-- ==== Sys2Proof/Word.lean ====
section
/-! DEFINITION. The word types of CORE: a byte (registers, memory, timers) and a 16-bit word (I, pc, stack entries,
instruction words). -/

namespace Sys2Proof

/-- An 8-bit value: a V register, a memory byte, a timer counter (10_state.md R31, R41, R44). -/
abbrev Byte := BitVec 8

/-- A 16-bit value: I, pc, a return address, an instruction word (10_state.md R35, R37, R39; 30_encoding.md R100). -/
abbrev Word := BitVec 16

end Sys2Proof
end

