-- ==== Sys2Proof/Syntax.lean ====
section
/-! DEFINITION. The instructions of CORE: one constructor per row of spec/opcode_table.json, each with the fields of
its format (30_encoding.md R103, R107). -/

namespace Sys2Proof

/-- A register number, V0 to VF: every value of the fields X and Y is legal (30_encoding.md R105). -/
abbrev Reg := Fin 16

/-- VF, register 15, which doubles as the flag (10_state.md R32). -/
abbrev VF : Reg := 15

/-- The 36 instructions (30_encoding.md R114). `nnn` and `nn` are immediates, `n` is a row count (R104). -/
inductive Instr where
  | halt
  | cls
  | ret
  /-- Every 0NNN other than the three words above. -/
  | sys (nnn : BitVec 12)
  | jp (nnn : BitVec 12)
  | call (nnn : BitVec 12)
  | seVxNn (x : Reg) (nn : Byte)
  | sneVxNn (x : Reg) (nn : Byte)
  | seVxVy (x y : Reg)
  | ldVxNn (x : Reg) (nn : Byte)
  | addVxNn (x : Reg) (nn : Byte)
  | ldVxVy (x y : Reg)
  | orVxVy (x y : Reg)
  | andVxVy (x y : Reg)
  | xorVxVy (x y : Reg)
  | addVxVy (x y : Reg)
  | subVxVy (x y : Reg)
  /-- Y is decoded and ignored (42_alu.md R221). -/
  | shrVx (x y : Reg)
  | subnVxVy (x y : Reg)
  /-- Y is decoded and ignored (42_alu.md R223). -/
  | shlVx (x y : Reg)
  | sneVxVy (x y : Reg)
  | ldINnn (nnn : BitVec 12)
  | jpV0 (nnn : BitVec 12)
  | rnd (x : Reg) (nn : Byte)
  | drw (x y : Reg) (n : Fin 16)
  | skp (x : Reg)
  | sknp (x : Reg)
  | ldVxDt (x : Reg)
  | ldVxK (x : Reg)
  | ldDtVx (x : Reg)
  | ldStVx (x : Reg)
  | addIVx (x : Reg)
  | ldFVx (x : Reg)
  | ldBVx (x : Reg)
  | ldMemIVx (x : Reg)
  | ldVxMemI (x : Reg)
deriving DecidableEq, Repr

end Sys2Proof
end

