-- ==== Sys2Proof/WellFormed.lean ====
section
/-! DEFINITION. Which instruction terms an encoding exists for. Only SYS has a restriction: its NNN may not spell one
of the three other words of group 0. -/

namespace Sys2Proof

/-- "`SYS` takes only `nnn` not in {0x000, 0x0E0, 0x0EE}" (30_encoding.md R117); every field of every other
instruction may take every value (R105). -/
def Instr.wellFormed : Instr → Bool
  | .sys nnn => nnn != 0x000#12 && nnn != 0x0E0#12 && nnn != 0x0EE#12
  | .halt | .cls | .ret | .jp _ | .call _ | .seVxNn _ _ | .sneVxNn _ _ | .seVxVy _ _ | .ldVxNn _ _ | .addVxNn _ _
  | .ldVxVy _ _ | .orVxVy _ _ | .andVxVy _ _ | .xorVxVy _ _ | .addVxVy _ _ | .subVxVy _ _ | .shrVx _ _ | .subnVxVy _ _
  | .shlVx _ _ | .sneVxVy _ _ | .ldINnn _ | .jpV0 _ | .rnd _ _ | .drw _ _ _ | .skp _ | .sknp _ | .ldVxDt _ | .ldVxK _
  | .ldDtVx _ | .ldStVx _ | .addIVx _ | .ldFVx _ | .ldBVx _ | .ldMemIVx _ | .ldVxMemI _ => true

end Sys2Proof
end

