-- ==== Sys2Proof/Decode.lean ====
section
/-! DEFINITION. The opcode decoder and the choice of a handler (30_encoding.md R101 to R112), total on any bytes, and
the encoder (30_encoding.md R103, R117). -/

namespace Sys2Proof

/-- The decoded fields of a word (30_encoding.md R102). `X` and `Y` name registers, `N` is a row count. -/
structure Fields where
  full : Word
  leftByte : Byte
  /-- Also `NN`. -/
  rightByte : Byte
  nibble4 : BitVec 4
  /-- The third nibble. -/
  X : Reg
  /-- The second nibble. -/
  Y : Reg
  nibble1 : BitVec 4
  NNN : BitVec 12
deriving DecidableEq, Repr

/-- Splitting a word into its fields cannot fail and reads no state (30_encoding.md R101). -/
def fieldsOf (w : Word) : Fields where
  full := w
  leftByte := w.extractLsb' 8 8
  rightByte := w.extractLsb' 0 8
  nibble4 := w.extractLsb' 12 4
  X := (w.extractLsb' 8 4).toFin
  Y := (w.extractLsb' 4 4).toFin
  nibble1 := w.extractLsb' 0 4
  NNN := w.extractLsb' 0 12

/-- Why bytes are no instruction. -/
inductive DecodeReject where
  /-- No handler takes the word (30_encoding.md R112): `Malformed(NoPattern)`. -/
  | noPattern
  /-- Fewer than the two bytes that every instruction has (30_encoding.md R100). -/
  | tooFewBytes
deriving DecidableEq, Repr

/-- Group 0, on the whole word, in the priority of 30_encoding.md R108. -/
def selectGroup0 (f : Fields) : Instr :=
  if f.full = 0x0000#16 then .halt
  else if f.full = 0x00E0#16 then .cls
  else if f.full = 0x00EE#16 then .ret
  else .sys f.NNN

/-- Group 8, on `nibble1` (30_encoding.md R109). PRESUMED: the middle nibbles are the spec's general knowledge,
log 12. -/
def selectGroup8 (f : Fields) : Except DecodeReject Instr :=
  match f.nibble1 with
  | 0x0#4 => .ok (.ldVxVy f.X f.Y)
  | 0x1#4 => .ok (.orVxVy f.X f.Y)
  | 0x2#4 => .ok (.andVxVy f.X f.Y)
  | 0x3#4 => .ok (.xorVxVy f.X f.Y)
  | 0x4#4 => .ok (.addVxVy f.X f.Y)
  | 0x5#4 => .ok (.subVxVy f.X f.Y)
  | 0x6#4 => .ok (.shrVx f.X f.Y)
  | 0x7#4 => .ok (.subnVxVy f.X f.Y)
  | 0xE#4 => .ok (.shlVx f.X f.Y)
  | _ => .error .noPattern

/-- Group E, on `right_byte` (30_encoding.md R110). -/
def selectGroupE (f : Fields) : Except DecodeReject Instr :=
  match f.rightByte with
  | 0x9E#8 => .ok (.skp f.X)
  | 0xA1#8 => .ok (.sknp f.X)
  | _ => .error .noPattern

/-- Group F, on `right_byte` (30_encoding.md R111). -/
def selectGroupF (f : Fields) : Except DecodeReject Instr :=
  match f.rightByte with
  | 0x07#8 => .ok (.ldVxDt f.X)
  | 0x0A#8 => .ok (.ldVxK f.X)
  | 0x15#8 => .ok (.ldDtVx f.X)
  | 0x18#8 => .ok (.ldStVx f.X)
  | 0x1E#8 => .ok (.addIVx f.X)
  | 0x29#8 => .ok (.ldFVx f.X)
  | 0x33#8 => .ok (.ldBVx f.X)
  | 0x55#8 => .ok (.ldMemIVx f.X)
  | 0x65#8 => .ok (.ldVxMemI f.X)
  | _ => .error .noPattern

/-- The opcode map, on `nibble4` (30_encoding.md R106, R107). Groups 5 and 9 also ask for `nibble1 = 0`. -/
def selectHandler (f : Fields) : Except DecodeReject Instr :=
  match f.nibble4 with
  | 0x0#4 => .ok (selectGroup0 f)
  | 0x1#4 => .ok (.jp f.NNN)
  | 0x2#4 => .ok (.call f.NNN)
  | 0x3#4 => .ok (.seVxNn f.X f.rightByte)
  | 0x4#4 => .ok (.sneVxNn f.X f.rightByte)
  | 0x5#4 => if f.nibble1 = 0x0#4 then .ok (.seVxVy f.X f.Y) else .error .noPattern
  | 0x6#4 => .ok (.ldVxNn f.X f.rightByte)
  | 0x7#4 => .ok (.addVxNn f.X f.rightByte)
  | 0x8#4 => selectGroup8 f
  | 0x9#4 => if f.nibble1 = 0x0#4 then .ok (.sneVxVy f.X f.Y) else .error .noPattern
  | 0xA#4 => .ok (.ldINnn f.NNN)
  | 0xB#4 => .ok (.jpV0 f.NNN)
  | 0xC#4 => .ok (.rnd f.X f.rightByte)
  | 0xD#4 => .ok (.drw f.X f.Y f.nibble1.toFin)
  | 0xE#4 => selectGroupE f
  | _ => selectGroupF f

/-- The handler of a word, or the rejection of R112. -/
def decode (w : Word) : Except DecodeReject Instr :=
  selectHandler (fieldsOf w)

/-- The word of two bytes: the byte at the lower address is the left byte (20_memory.md R72). -/
def wordOfBytes (left right : Byte) : Word :=
  left ++ right

/-- The bytes of a word in address order (20_memory.md R72). -/
def bytesOfWord (w : Word) : List Byte :=
  [w.extractLsb' 8 8, w.extractLsb' 0 8]

/-- Decoding from bytes: exactly two are consumed (30_encoding.md R100), and the rest is returned. -/
def decodeBytes : List Byte → Except DecodeReject (Instr × List Byte)
  | left :: right :: rest =>
    match decode (wordOfBytes left right) with
    | .ok i => .ok (i, rest)
    | .error e => .error e
  | _ => .error .tooFewBytes

/-! The encoder: fields at the bit positions of 30_encoding.md R103. -/

/-- A register number or a row count as a 4-bit field. -/
def nibbleOf (r : Fin 16) : BitVec 4 :=
  BitVec.ofFin r

/-- Format `NNN`. -/
def encodeNnn (op : BitVec 4) (nnn : BitVec 12) : Word :=
  op ++ nnn

/-- Formats `XNN` and `X` (for `X` the low byte is fixed). -/
def encodeXnn (op : BitVec 4) (x : Reg) (nn : Byte) : Word :=
  op ++ (nibbleOf x ++ nn : BitVec 12)

/-- Formats `XY` and `XYN` (for `XY` the low nibble is fixed). -/
def encodeXyn (op : BitVec 4) (x y : Reg) (n : BitVec 4) : Word :=
  op ++ (nibbleOf x ++ (nibbleOf y ++ n : BitVec 8) : BitVec 12)

/-- The word of an instruction (30_encoding.md R103, R117). For a SYS that is not well formed it is the word of HALT,
CLS or RET. -/
def encode : Instr → Word
  | .halt => 0x0000#16
  | .cls => 0x00E0#16
  | .ret => 0x00EE#16
  | .sys nnn => encodeNnn 0x0#4 nnn
  | .jp nnn => encodeNnn 0x1#4 nnn
  | .call nnn => encodeNnn 0x2#4 nnn
  | .seVxNn x nn => encodeXnn 0x3#4 x nn
  | .sneVxNn x nn => encodeXnn 0x4#4 x nn
  | .seVxVy x y => encodeXyn 0x5#4 x y 0x0#4
  | .ldVxNn x nn => encodeXnn 0x6#4 x nn
  | .addVxNn x nn => encodeXnn 0x7#4 x nn
  | .ldVxVy x y => encodeXyn 0x8#4 x y 0x0#4
  | .orVxVy x y => encodeXyn 0x8#4 x y 0x1#4
  | .andVxVy x y => encodeXyn 0x8#4 x y 0x2#4
  | .xorVxVy x y => encodeXyn 0x8#4 x y 0x3#4
  | .addVxVy x y => encodeXyn 0x8#4 x y 0x4#4
  | .subVxVy x y => encodeXyn 0x8#4 x y 0x5#4
  | .shrVx x y => encodeXyn 0x8#4 x y 0x6#4
  | .subnVxVy x y => encodeXyn 0x8#4 x y 0x7#4
  | .shlVx x y => encodeXyn 0x8#4 x y 0xE#4
  | .sneVxVy x y => encodeXyn 0x9#4 x y 0x0#4
  | .ldINnn nnn => encodeNnn 0xA#4 nnn
  | .jpV0 nnn => encodeNnn 0xB#4 nnn
  | .rnd x nn => encodeXnn 0xC#4 x nn
  | .drw x y n => encodeXyn 0xD#4 x y (nibbleOf n)
  | .skp x => encodeXnn 0xE#4 x 0x9E#8
  | .sknp x => encodeXnn 0xE#4 x 0xA1#8
  | .ldVxDt x => encodeXnn 0xF#4 x 0x07#8
  | .ldVxK x => encodeXnn 0xF#4 x 0x0A#8
  | .ldDtVx x => encodeXnn 0xF#4 x 0x15#8
  | .ldStVx x => encodeXnn 0xF#4 x 0x18#8
  | .addIVx x => encodeXnn 0xF#4 x 0x1E#8
  | .ldFVx x => encodeXnn 0xF#4 x 0x29#8
  | .ldBVx x => encodeXnn 0xF#4 x 0x33#8
  | .ldMemIVx x => encodeXnn 0xF#4 x 0x55#8
  | .ldVxMemI x => encodeXnn 0xF#4 x 0x65#8

/-- The table's numbering of an instruction's bits: there is one 16-bit word, so bit 0 is that word's lowest bit
(30_encoding.md R100, R103). Bits above `nbits` are 0. -/
def tableWord (nbits w : Nat) : Word :=
  BitVec.ofNat 16 (w % 2 ^ nbits)

/-- What the decoder reads from the bytes of a word of the opcode table. -/
def decodeTableWord (nbits w : Nat) : Option Instr :=
  match decodeBytes (bytesOfWord (tableWord nbits w)) with
  | .ok (i, _) => some i
  | .error _ => none

end Sys2Proof
end

