-- ==== Sys2Proof/Config.lean ====
section
/-! DEFINITION. What does not change as CORE runs: the fixed sizes, the types of the parameters that have alternatives
(00_scope.md R9), and the values the spec leaves free, as constants without a body. -/

namespace Sys2Proof.Config

/-- `MEM_SIZE` (00_scope.md R9; 93 U4). Every bound is written in terms of it. -/
def memSize : Nat := 4096

/-- `LOAD_ADDR`: the program load offset and the reset pc (00_scope.md R9; 70 R381). -/
def loadAddr : Nat := 0x200

/-- `VF_ORDER`: which of result and flag is written last when X = 15 (42_alu.md R213). -/
inductive VfOrder where
  | flagLast
  | resultLast
deriving DecidableEq, Repr

/-- `SPRITE_WRAP`: where a sprite pixel past the screen edge goes (44_display.md R274). -/
inductive SpriteWrap where
  | perAxis
  | flatModulo
  | clip
deriving DecidableEq, Repr

/-- `KEY_SCAN_COUNT`: how many keys the edge detector scans, 16 or 15 (40_cycle.md R151). -/
inductive KeyScan where
  | sixteen
  | fifteen
deriving DecidableEq, Repr

/-- The five parameters that proofs may quantify over (00_scope.md R10). -/
structure Params where
  keyScan : KeyScan
  spriteWrap : SpriteWrap
  /-- `LOADSTORE_INCREMENTS_I` (43_index_memory.md R249). -/
  loadStoreIncrementsI : Bool
  vfOrder : VfOrder
  /-- `STACK_LIMIT`: `none` is unbounded (41_control_flow.md R185). -/
  stackLimit : Option Nat
deriving DecidableEq, Repr

/-- `FONT`: 16 glyphs of 5 bytes, glyph d at 5*d: a parameter with the table of 10_state.md R44 as its default. -/
abbrev Font := Vector Byte 80

/-- The key vector of the cycle in the n-th step that the environment did not script: any vector (40_cycle.md R141).
Log 3. -/
opaque freeKeys : Nat → Vector Bool 16

/-- How many TickDelay steps come in the n-th unscripted step: any number (60_exceptions.md R346). Log 3. -/
opaque freeDelayTicks : Nat → Nat

/-- How many TickSound steps come in the n-th unscripted step: any number, its own (60_exceptions.md R345).
Log 3. -/
opaque freeSoundTicks : Nat → Nat

/-- The n-th random byte that the environment did not script: any byte (42_alu.md R226). Log 4. -/
opaque freeByte : Nat → Byte

/-- `UNSET_RGBA`, an open colour (44_display.md R285). Log 11. -/
opaque unsetRgba : BitVec 32

/-- How far `SET_RGBA` lies from `UNSET_RGBA`, less one: any of the 2^32 - 1 distances between two distinct colours.
Log 11. -/
opaque rgbaDistance : Fin 4294967295

/-- `SET_RGBA`, an open colour other than `UNSET_RGBA` (44_display.md R285): every such colour is one of these. -/
def setRgba : BitVec 32 := unsetRgba + BitVec.ofNat 32 (rgbaDistance.val + 1)

end Sys2Proof.Config
end

