-- ==== Sys2Proof/Machine/Params.lean ====
section
/-! DEFINITION. This hardware's values of the parameters with alternatives, the default font, and what a memory
byte that nothing has written reads as. -/

namespace Sys2Proof.Machine

open Sys2Proof.Config

/-- This hardware's parameter values (00_scope.md R9): `KEY_SCAN_COUNT` = 16, `SPRITE_WRAP` = PerAxis,
`LOADSTORE_INCREMENTS_I` = false, `VF_ORDER` = FlagLast, `STACK_LIMIT` = none. -/
def thisHardware : Params where
  keyScan := .sixteen
  spriteWrap := .perAxis
  loadStoreIncrementsI := false
  vfOrder := .flagLast
  stackLimit := none

/-- The default of `FONT` (10_state.md R44). PRESUMED: the bytes are the spec's general knowledge, log 8. -/
def standardFont : Font :=
  ⟨([0xF0, 0x90, 0x90, 0x90, 0xF0] ++ [0x20, 0x60, 0x20, 0x20, 0x70] ++
  [0xF0, 0x10, 0xF0, 0x80, 0xF0] ++ [0xF0, 0x10, 0xF0, 0x10, 0xF0] ++
  [0x90, 0x90, 0xF0, 0x10, 0x10] ++ [0xF0, 0x80, 0xF0, 0x10, 0xF0] ++
  [0xF0, 0x80, 0xF0, 0x90, 0xF0] ++ [0xF0, 0x10, 0x20, 0x40, 0x40] ++
  [0xF0, 0x90, 0xF0, 0x90, 0xF0] ++ [0xF0, 0x90, 0xF0, 0x10, 0xF0] ++
  [0xF0, 0x90, 0xF0, 0x90, 0x90] ++ [0xE0, 0x90, 0xE0, 0x90, 0xE0] ++
  [0xF0, 0x80, 0x80, 0x80, 0xF0] ++ [0xE0, 0x90, 0x90, 0x90, 0xE0] ++
  [0xF0, 0x80, 0xF0, 0x80, 0xF0] ++ [0xF0, 0x80, 0xF0, 0x80, 0x80] : List Byte).toArray, rfl⟩

/-- The reset content of an address, for a `FONT`: the font below 80 and 0x00 above (10_state.md R51; 20_memory.md
R81). It is what an address that the memory list does not name reads as. Log 9. -/
def resetByte (font : Font) (a : Nat) : Byte :=
  font[a]?.getD 0x00#8

end Sys2Proof.Machine
end

