-- ==== Sys2Proof/Machine/State.lean ====
section
/-! DEFINITION. The state of CORE (10_state.md R30), the reasons a step can stop, and the state after reset
(10_state.md R51). -/

namespace Sys2Proof.Machine

open Sys2Proof.Config

/-- The fault kinds of 60_exceptions.md R331. Taking one is a NEXT state with `run = faulted kind`. -/
inductive FaultKind where
  | invalidOpcode
  | addressBoundsViolation
  | emptyCallStackUnderflow
  | memoryBoundsViolation
  | keyIndexOutOfRange
  | stackOverflow
deriving DecidableEq, Repr

/-- The run status (10_state.md R47). -/
inductive RunStatus where
  | active
  | terminated
  | faulted (kind : FaultKind)
deriving DecidableEq, Repr

/-- Why the dispatcher answers Malformed (40_cycle.md R148). -/
inductive MalformedCause where
  | noPattern
  | emptyStack
deriving DecidableEq, Repr

/-- What a handler answers (40_cycle.md R144), `fault` for one raised inside it: the eight codes of the outcome port
(60_exceptions.md R362). A jump's target is a natural, checked when it is applied (40_cycle.md R146). -/
inductive CycleOutcome where
  | continueNext
  | skipNext
  | jump (target : Nat)
  | terminate
  | malformed (cause : MalformedCause)
  | requestRedraw
  | waitingForKey (x : Reg)
  | fault (kind : FaultKind)
deriving DecidableEq, Repr

/-- 16 key booleans (10_state.md R42). -/
abbrev Keys := Vector Bool 16

/-- A ROM as the host supplies it: bytes, or a resolved path that could not be read (70_reset_and_hazards.md R384,
R385). -/
inductive Rom where
  | bytes (b : List Byte)
  | ioFailure
deriving DecidableEq, Repr

/-- The answer to a load (70_reset_and_hazards.md R384, R385). -/
inductive LoadResult where
  | byteCount (n : Nat)
  | romLoadFailure
deriving DecidableEq, Repr

/-- A move of CORE's environment or of the timer activity: what one step performs (60_exceptions.md R345, R360). -/
inductive Move where
  | cycle (keys : Keys)
  | tickDelay
  | tickSound
  | load (rom : Rom)
deriving DecidableEq, Repr

/-- The memory array (10_state.md R44), as the list of its bytes that differ from `resetByte`: addresses strictly
rising, all below `MEM_SIZE` (`Memory.wf` in Ops.lean). -/
structure Memory where
  /-- The parameter `FONT` that the memory was constructed with; no operation changes it (log 1). -/
  font : Font
  cells : List Host.Cell
deriving DecidableEq, Repr

/-- The framebuffer `fb[x][y]`: 64 columns of 32 cells, `true` is set (10_state.md R43). -/
structure Framebuffer where
  columns : Vector (Vector Bool 32) 64
deriving DecidableEq, Repr

/-- The state record of 10_state.md R30, and after it the model's own fields (INVENTORY.md, State). -/
structure State where
  V : Vector Byte 16
  I : Word
  pc : Word
  /-- Top = last (10_state.md R39). -/
  stack : List Word
  mem : Memory
  delay : Byte
  sound : Byte
  keyCur : Keys
  keyPrev : Keys
  fb : Framebuffer
  waiting : Bool
  waitReg : Reg
  run : RunStatus
  /-- The model's own: the parameters of 00_scope.md R10, which no step changes (log 1). -/
  cfg : Params
  /-- The model's own: the next moves, oldest first (log 2). -/
  pending : List Move
  /-- The model's own: once `pending` is used up, the host requests no more cycles (60_exceptions.md R368; log 3). -/
  hostStopped : Bool
  /-- The model's own: numbers the unscripted steps (log 3). -/
  inputCount : Nat
  /-- The model's own: the bytes waiting at the `rand` port (log 4). -/
  rand : List Byte
  /-- The model's own: numbers the unscripted draws (log 4). -/
  drawCount : Nat
  /-- The model's own: a cycle has been requested since construction (log 6). -/
  started : Bool
  /-- The `load_result` port (log 6). -/
  loadResult : Option LoadResult
  /-- The `outcome` port: the latest report (log 7). -/
  outcome : Option CycleOutcome
  /-- The `redraw` port (log 7). -/
  redraw : Bool
deriving DecidableEq, Repr

/-- A step that cannot be taken in the state it is asked of. CORE's own faults are not here: they are next states
(log 5). -/
inductive Fault where
  /-- The instruction cycle, when pc or pc + 1 is outside memory. Safe: 10_state.md R38 says that no reachable state
  has such a pc, and the invariant of the model proves it (log 18). -/
  | fetchOutsideMemory (pc : Word)
deriving DecidableEq, Repr

/-- A move that the spec does not offer. -/
inductive Refusal where
  /-- `exec`, for an instruction without a meaning. Safe. -/
  | notModelled (mnemonic : String)
  /-- A cycle request after RomLoadFailure: "no cycle is enabled" (70_reset_and_hazards.md R385). Safe. -/
  | cycleAfterRomLoadFailure
  /-- A second load, or a load after a cycle: the host has no such move (60_exceptions.md R368). Safe. -/
  | loadNotOffered
deriving DecidableEq, Repr

/-- All keys up. -/
def noKeys : Keys :=
  Vector.replicate 16 false

/-- Every cell unset (44_display.md R270). -/
def clearScreen : Framebuffer :=
  ⟨Vector.replicate 64 (Vector.replicate 32 false)⟩

/-- The state after construction with given parameters (10_state.md R51; 70_reset_and_hazards.md R380). The fields
from `cfg` on are the model's own: DESIGN CHOICE, log 19. -/
def State.construct (params : Params) (font : Font) : State where
  V := Vector.replicate 16 0x00#8
  I := 0x0000#16
  pc := BitVec.ofNat 16 loadAddr
  stack := []
  mem := ⟨font, []⟩
  delay := 0x00#8
  sound := 0x00#8
  keyCur := noKeys
  keyPrev := noKeys
  fb := clearScreen
  waiting := false
  waitReg := 0
  run := .active
  cfg := params
  pending := []
  hostStopped := false
  inputCount := 0
  rand := []
  drawCount := 0
  started := false
  loadResult := none
  outcome := none
  redraw := false

/-- This hardware after construction. -/
def State.reset : State :=
  State.construct thisHardware standardFont

end Sys2Proof.Machine
end

