-- ==== Sys2Proof/Machine/Ops.lean ====
section
/-! DEFINITION. The named operations of the machine: memory, registers, the call stack, the framebuffer, the random
draw; taking a fault; and applying a handler's outcome to pc and run. -/

namespace Sys2Proof.Machine

open Sys2Proof.Config

/-! ## Memory (20_memory.md) -/

/-- The byte a memory list holds at an address. -/
def cellsGet (font : Font) : List Host.Cell → Nat → Byte
  | [], a => resetByte font a
  | (a', b) :: rest, a => if a = a' then b else cellsGet font rest a

/-- A memory list without an address. -/
def cellsErase (a : Nat) : List Host.Cell → List Host.Cell
  | [] => []
  | (a', b') :: rest => if a' = a then cellsErase a rest else (a', b') :: cellsErase a rest

/-- A memory list with an entry put before the first higher address. -/
def cellsInsert (a : Nat) (b : Byte) : List Host.Cell → List Host.Cell
  | [] => [(a, b)]
  | (a', b') :: rest => if a < a' then (a, b) :: (a', b') :: rest else (a', b') :: cellsInsert a b rest

/-- Write a byte into a memory list, keeping the canonical form: an entry that would equal the reset content is not
listed. -/
def cellsSet (font : Font) (cells : List Host.Cell) (a : Nat) (b : Byte) : List Host.Cell :=
  if b = resetByte font a then cellsErase a cells else cellsInsert a b (cellsErase a cells)

/-- Canonical form of a list all of whose addresses are at least `lo`: addresses strictly rising and below
`MEM_SIZE`, and no entry equal to the reset content of its address. -/
def cellsWf (font : Font) : Nat → List Host.Cell → Bool
  | _, [] => true
  | lo, (a, b) :: rest => decide (lo ≤ a) && decide (a < memSize) && b != resetByte font a && cellsWf font (a + 1) rest

/-- The canonical form of memory: equal memories with one font are equal data. -/
def Memory.wf (m : Memory) : Bool :=
  cellsWf m.font 0 m.cells

/-- `MemRead(addr, 1)` (00_scope.md R15); its caller has checked the address. -/
def Memory.get (m : Memory) (a : Nat) : Byte :=
  cellsGet m.font m.cells a

/-- `MemWrite(addr, 1, v)` (00_scope.md R15); its caller has checked the address. -/
def Memory.set (m : Memory) (a : Nat) (b : Byte) : Memory :=
  { m with cells := cellsSet m.font m.cells a b }

/-- `n` bytes from address `a` on, in ascending order (20_memory.md R77). -/
def Memory.readBytes (m : Memory) (a : Nat) : Nat → List Byte
  | 0 => []
  | n + 1 => m.get a :: m.readBytes (a + 1) n

/-- Bytes stored from address `a` on, in ascending order (20_memory.md R77). -/
def Memory.writeBytes (m : Memory) (a : Nat) : List Byte → Memory
  | [] => m
  | b :: rest => (m.set a b).writeBytes (a + 1) rest

/-- The fetched word, high byte first (20_memory.md R73), where both bytes exist. -/
def State.fetchWord (s : State) : Option Word :=
  if s.pc.toNat + 1 < memSize then
    some (wordOfBytes (s.mem.get s.pc.toNat) (s.mem.get (s.pc.toNat + 1)))
  else none

/-! ## Registers (10_state.md) -/

/-- `V[r]` (10_state.md R31). -/
def State.reg (s : State) (r : Reg) : Byte :=
  s.V[r]

/-- `V[r] <- v` (00_scope.md R14). -/
def State.setReg (s : State) (r : Reg) (v : Byte) : State :=
  { s with V := s.V.set r v }

/-- `V[k], V[k+1], ... <- bytes`, in ascending order. -/
def loadRegs (V : Vector Byte 16) : Nat → List Byte → Vector Byte 16
  | _, [] => V
  | k, b :: rest => loadRegs (V.setIfInBounds k b) (k + 1) rest

/-- `I <- v`, reduced mod 65536 (43_index_memory.md R241). -/
def State.setI (s : State) (v : Nat) : State :=
  { s with I := BitVec.ofNat 16 v }

/-! ## The call stack (10_state.md R39) -/

/-- Whether a push would pass a finite `STACK_LIMIT` (41_control_flow.md R185). -/
def State.stackFull (s : State) : Bool :=
  match s.cfg.stackLimit with
  | none => false
  | some n => s.stack.length == n

/-- `push(v)`: the top is the last entry. -/
def State.push (s : State) (v : Word) : State :=
  { s with stack := s.stack ++ [v] }

/-- `pop()`: the top entry, `none` for EMPTY, and the stack without it. -/
def State.pop (s : State) : Option Word × State :=
  (s.stack.getLast?, { s with stack := s.stack.dropLast })

/-! ## The framebuffer (10_state.md R43) -/

/-- `fb[x][y]`. -/
def Framebuffer.cell (fb : Framebuffer) (x : Fin 64) (y : Fin 32) : Bool :=
  fb.columns[x][y]

/-- `fb[x][y] <- fb[x][y] ^ 1`. -/
def Framebuffer.toggle (fb : Framebuffer) (x : Fin 64) (y : Fin 32) : Framebuffer :=
  ⟨fb.columns.set x (fb.columns[x].set y (!fb.columns[x][y]))⟩

/-! ## The random draw (42_alu.md R226) -/

/-- `draw_byte()`: the oldest byte at the `rand` port, or a free byte when none was scripted (log 4). -/
def State.drawByte (s : State) : Byte × State :=
  match s.rand with
  | b :: rest => (b, { s with rand := rest })
  | [] => (freeByte s.drawCount, { s with drawCount := s.drawCount + 1 })

/-! ## Keys (10_state.md R42) -/

/-- `keys[k]`; a number above 15 is no key and is not down. -/
def keyDown (keys : Keys) (k : Nat) : Bool :=
  keys[k]?.getD false

/-- The number of keys the edge detector scans (40_cycle.md R151). -/
def scanCount : KeyScan → Nat
  | .sixteen => 16
  | .fifteen => 15

/-- `FirstEdge(cur, prev)`: the least scanned key that is down now and was not in the previous cycle
(40_cycle.md R151). -/
def firstEdge (scan : KeyScan) (cur prev : Keys) : Option Nat :=
  (List.range (scanCount scan)).find? fun k => keyDown cur k && !keyDown prev k

/-! ## Taking a fault

CORE's only exception mechanism (60_exceptions.md R330). There is no return from a fault (R341), so no operation
stands beside this one. -/

/-- Take a fault: the kind is recorded in `run`; pc keeps the address of the faulting instruction, and nothing else
is saved, pushed or changed (60_exceptions.md R333, R340). -/
def State.takeFault (s : State) (kind : FaultKind) : State :=
  { s with run := .faulted kind }

/-! ## Outcomes (40_cycle.md) -/

/-- The largest legal pc: both bytes of the word at it are in memory (40_cycle.md R146). -/
def maxPc : Nat :=
  memSize - 2

/-- `advance(t)`, the pc bounds check: no 16-bit wrap (40_cycle.md R146). -/
def State.advance (s : State) (t : Nat) : State :=
  if t ≤ maxPc then { s with pc := BitVec.ofNat 16 t } else s.takeFault .addressBoundsViolation

/-- The fault kind of a Malformed outcome (40_cycle.md R148). -/
def faultOfMalformed : MalformedCause → FaultKind
  | .noPattern => .invalidOpcode
  | .emptyStack => .emptyCallStackUnderflow

/-- Report an outcome to the host: the outcome port, and the redraw pulse of a RequestRedraw (40_cycle.md R154,
R155). -/
def State.report (s : State) (o : CycleOutcome) : State :=
  { s with outcome := some o, redraw := o == .requestRedraw }

/-- The effect of an outcome on pc, waiting and run (40_cycle.md R145). -/
def State.effect (s : State) : CycleOutcome → State
  | .continueNext => s.advance (s.pc.toNat + 2)
  | .skipNext => s.advance (s.pc.toNat + 4)
  | .jump target => s.advance target
  | .requestRedraw => s.advance (s.pc.toNat + 2)
  | .waitingForKey x => { s with waiting := true, waitReg := x }
  | .terminate => { s with run := .terminated }
  | .malformed cause => s.takeFault (faultOfMalformed cause)
  | .fault kind => s.takeFault kind

/-- Step 4 of an instruction cycle (40_cycle.md R149): the outcome is reported and applied, after the handler's
writes. -/
def State.conclude (s : State) (o : CycleOutcome) : State :=
  (s.report o).effect o

/-- A handler ends with the state after its writes and an outcome; the instruction's answer is always a next
state. -/
def finish (o : CycleOutcome) (s : State) : Host.Outcome State Fault Refusal :=
  .next (s.conclude o)

end Sys2Proof.Machine
end

