-- ==== Sys2Proof/Machine/Flags.lean ====
section
/-! DEFINITION. VF as a flag (42_alu.md R212): carry, not-borrow, shifted-out bits, and the order of the result and
flag writes. -/

namespace Sys2Proof.Machine

open Sys2Proof.Config

/-- A flag as VF holds it: 1 or 0. -/
def flagByte (f : Bool) : Byte :=
  if f then 0x01#8 else 0x00#8

/-- The carry of 8XY4: `a + b >= 256` (42_alu.md R218). -/
def carry (a b : Byte) : Bool :=
  decide (256 ≤ a.toNat + b.toNat)

/-- The flag of both subtractions: no borrow of the subtrahend from the minuend (42_alu.md R220). -/
def notBorrow (minuend subtrahend : Byte) : Bool :=
  decide (subtrahend.toNat ≤ minuend.toNat)

/-- The bit 8XY6 shifts out: bit 0 (42_alu.md R221). -/
def lowBit (a : Byte) : Bool :=
  a.getLsbD 0

/-- The bit 8XYE shifts out: bit 7 (42_alu.md R223). -/
def highBit (a : Byte) : Bool :=
  a.getLsbD 7

/-- `WriteRF(X, r, f)`: result and flag, in the order of `VF_ORDER` (42_alu.md R213). -/
def State.writeRF (s : State) (x : Reg) (r : Byte) (f : Bool) : State :=
  match s.cfg.vfOrder with
  | .flagLast => (s.setReg x r).setReg VF (flagByte f)
  | .resultLast => (s.setReg VF (flagByte f)).setReg x r

end Sys2Proof.Machine
end

