-- ==== Sys2Proof/Machine/Operands.lean ====
section
/-! DEFINITION. The operand forms: immediates as addresses, the data range at I, the sprite's place on the screen, a
key index in a register, the font address, the decimal digits. -/

namespace Sys2Proof.Machine

open Sys2Proof.Config

/-- `zext_16(NNN)` as an address (30_encoding.md R104). -/
def addressOf (nnn : BitVec 12) : Nat :=
  nnn.toNat

/-- BNNN's target: a natural, at most 0x10FE, with no wrap (41_control_flow.md R186). -/
def targetPlusV0 (nnn : BitVec 12) (s : State) : Nat :=
  addressOf nnn + (s.reg 0).toNat

/-- The return address a CALL pushes (41_control_flow.md R184), at most 0x1000 (log 10). -/
def returnAddress (s : State) : Word :=
  BitVec.ofNat 16 (s.pc.toNat + 2)

/-- `I + k`, the address of the k-th byte of a data access: a natural, not wrapped at 16 bits (20_memory.md R71). -/
def dataAddress (s : State) (k : Nat) : Nat :=
  s.I.toNat + k

/-- Whether every address of the range `[I, I + count)` is in memory (20_memory.md R80). An empty range is never out
of bounds (44_display.md R275). -/
def dataInBounds (s : State) (count : Nat) : Bool :=
  count == 0 || decide (dataAddress s (count - 1) < memSize)

/-- How many registers FX55 and FX65 transfer: V0 to V[X] inclusive (43_index_memory.md R251). -/
def transferCount (x : Reg) : Nat :=
  x.val + 1

/-- I after FX55 and FX65 (43_index_memory.md R249). -/
def stepI (x : Reg) (s : State) : State :=
  if s.cfg.loadStoreIncrementsI then s.setI (s.I.toNat + transferCount x) else s

/-- V[X] as a key index: above 0xF it names no key (45_timers_keys.md R305). -/
def keyIndex (x : Reg) (s : State) : Option Nat :=
  if (s.reg x).toNat ≤ 15 then some (s.reg x).toNat else none

/-- FX29's address: `V[X] * 5`, all 8 bits of V[X] (43_index_memory.md R245, R246). -/
def glyphAddress (x : Reg) (s : State) : Nat :=
  (s.reg x).toNat * 5

/-- FX33's digits: hundreds, tens, ones, as bytes 0 to 9 (43_index_memory.md R247). -/
def bcdDigits (v : Byte) : List Byte :=
  [BitVec.ofNat 8 (v.toNat / 100), BitVec.ofNat 8 (v.toNat / 10 % 10), BitVec.ofNat 8 (v.toNat % 10)]

/-- `Place(px, py)`: the cell of a pixel position under `SPRITE_WRAP`; `none` only under Clip (44_display.md
R274). -/
def place (wrap : SpriteWrap) (px py : Nat) : Option (Fin 64 × Fin 32) :=
  match wrap with
  | .perAxis => some (Fin.ofNat 64 px, Fin.ofNat 32 py)
  | .flatModulo =>
    let i := (px + 64 * py) % 2048
    some (Fin.ofNat 64 i, Fin.ofNat 32 (i / 64))
  | .clip => if px < 64 ∧ py < 32 then some (Fin.ofNat 64 px, Fin.ofNat 32 py) else none

end Sys2Proof.Machine
end

