-- ==== Sys2Proof/Machine/Alu.lean ====
section
/-! DEFINITION. The meanings of group 8, 6XNN, 7XNN and CXNN (42_alu.md). Every one of them returns Continue. -/

namespace Sys2Proof.Machine

/-- LD Vx, Vy (42_alu.md R214). -/
def execLdVxVy (x y : Reg) (s : State) : Host.Outcome State Fault Refusal :=
  finish .continueNext (s.setReg x (s.reg y))

/-- OR Vx, Vy: VF is written only as the destination (42_alu.md R215, R212). -/
def execOrVxVy (x y : Reg) (s : State) : Host.Outcome State Fault Refusal :=
  finish .continueNext (s.setReg x (s.reg x ||| s.reg y))

/-- AND Vx, Vy (42_alu.md R216). -/
def execAndVxVy (x y : Reg) (s : State) : Host.Outcome State Fault Refusal :=
  finish .continueNext (s.setReg x (s.reg x &&& s.reg y))

/-- XOR Vx, Vy (42_alu.md R217). -/
def execXorVxVy (x y : Reg) (s : State) : Host.Outcome State Fault Refusal :=
  finish .continueNext (s.setReg x (s.reg x ^^^ s.reg y))

/-- ADD Vx, Vy (42_alu.md R218). -/
def execAddVxVy (x y : Reg) (s : State) : Host.Outcome State Fault Refusal :=
  finish .continueNext (s.writeRF x (s.reg x + s.reg y) (carry (s.reg x) (s.reg y)))

/-- SUB Vx, Vy: minuend V[X] (42_alu.md R219, R220). -/
def execSubVxVy (x y : Reg) (s : State) : Host.Outcome State Fault Refusal :=
  finish .continueNext (s.writeRF x (s.reg x - s.reg y) (notBorrow (s.reg x) (s.reg y)))

/-- SHR Vx: V[Y] is not read (42_alu.md R221). -/
def execShrVx (x _y : Reg) (s : State) : Host.Outcome State Fault Refusal :=
  finish .continueNext (s.writeRF x (s.reg x >>> 1) (lowBit (s.reg x)))

/-- SUBN Vx, Vy: minuend V[Y] (42_alu.md R222, R220). -/
def execSubnVxVy (x y : Reg) (s : State) : Host.Outcome State Fault Refusal :=
  finish .continueNext (s.writeRF x (s.reg y - s.reg x) (notBorrow (s.reg y) (s.reg x)))

/-- SHL Vx: V[Y] is not read (42_alu.md R223). -/
def execShlVx (x _y : Reg) (s : State) : Host.Outcome State Fault Refusal :=
  finish .continueNext (s.writeRF x (s.reg x <<< 1) (highBit (s.reg x)))

/-- LD Vx, nn (42_alu.md R224). -/
def execLdVxNn (x : Reg) (nn : Byte) (s : State) : Host.Outcome State Fault Refusal :=
  finish .continueNext (s.setReg x nn)

/-- ADD Vx, nn: VF is not written as a flag (42_alu.md R225). -/
def execAddVxNn (x : Reg) (nn : Byte) (s : State) : Host.Outcome State Fault Refusal :=
  finish .continueNext (s.setReg x (s.reg x + nn))

/-- RND Vx, nn: the draw is a free input (42_alu.md R226; log 4). -/
def execRnd (x : Reg) (nn : Byte) (s : State) : Host.Outcome State Fault Refusal :=
  finish .continueNext (s.drawByte.2.setReg x (s.drawByte.1 &&& nn))

end Sys2Proof.Machine
end

