-- ==== Sys2Proof/Machine/Display.lean ====
section
/-! DEFINITION. The sprite blitter and the meanings of 00E0 and DXYN (44_display.md). -/

namespace Sys2Proof.Machine

open Sys2Proof.Config

/-- A screen being drawn on, and the collision so far. -/
structure Canvas where
  fb : Framebuffer
  collision : Bool
deriving DecidableEq, Repr

/-- One set sprite bit at a pixel position: it toggles the cell it is placed on, and collides when that cell was set
(44_display.md R271, R273). -/
def drawPixel (wrap : SpriteWrap) (px py : Nat) (c : Canvas) : Canvas :=
  match place wrap px py with
  | none => c
  | some (x, y) => ⟨c.fb.toggle x y, c.collision || c.fb.cell x y⟩

/-- The columns `from` to 7 of a sprite byte: bit 7 is the leftmost pixel (44_display.md R272). The first argument
counts the columns that are left. -/
def drawColumns (wrap : SpriteWrap) (x0 py : Nat) (b : Byte) : Nat → Canvas → Canvas
  | 0, c => c
  | left + 1, c =>
    drawColumns wrap x0 py b left
      (if b.getLsbD left then drawPixel wrap (x0 + (7 - left)) py c else c)

/-- The rows of a sprite, one byte each, downwards from pixel row `py` (44_display.md R272). -/
def drawRows (wrap : SpriteWrap) (x0 : Nat) : Nat → List Byte → Canvas → Canvas
  | _, [], c => c
  | py, b :: rest, c => drawRows wrap x0 (py + 1) rest (drawColumns wrap x0 py b 8 c)

/-- CLS: VF is not written (44_display.md R270). -/
def execCls (s : State) : Host.Outcome State Fault Refusal :=
  finish .requestRedraw { s with fb := clearScreen }

/-- The screen and the collision of a DXYN: origin (V[X], V[Y]), N bytes at I (44_display.md R271). -/
def drawSprite (x y : Reg) (n : Fin 16) (s : State) : Canvas :=
  drawRows s.cfg.spriteWrap (s.reg x).toNat (s.reg y).toNat (s.mem.readBytes (dataAddress s 0) n.val) ⟨s.fb, false⟩

/-- DRW Vx, Vy, n: VF receives the collision, last of all (44_display.md R271, R276). -/
def execDrw (x y : Reg) (n : Fin 16) (s : State) : Host.Outcome State Fault Refusal :=
  if dataInBounds s n.val then
    finish .requestRedraw
      (({ s with fb := (drawSprite x y n s).fb } : State).setReg VF (flagByte (drawSprite x y n s).collision))
  else finish (.fault .memoryBoundsViolation) s

end Sys2Proof.Machine
end

