-- ==== Sys2Proof/Machine/Index.lean ====
section
/-! DEFINITION. The meanings of ANNN, FX1E, FX29, FX33, FX55 and FX65 (43_index_memory.md). -/

namespace Sys2Proof.Machine

/-- LD I, nnn (43_index_memory.md R240). -/
def execLdINnn (nnn : BitVec 12) (s : State) : Host.Outcome State Fault Refusal :=
  finish .continueNext (s.setI (addressOf nnn))

/-- ADD I, Vx: wraps at 16 bits, VF is not written (43_index_memory.md R243, R244). -/
def execAddIVx (x : Reg) (s : State) : Host.Outcome State Fault Refusal :=
  finish .continueNext (s.setI (s.I.toNat + (s.reg x).toNat))

/-- LD F, Vx (43_index_memory.md R245). -/
def execLdFVx (x : Reg) (s : State) : Host.Outcome State Fault Refusal :=
  finish .continueNext (s.setI (glyphAddress x s))

/-- LD B, Vx (43_index_memory.md R247). -/
def execLdBVx (x : Reg) (s : State) : Host.Outcome State Fault Refusal :=
  if dataInBounds s 3 then
    finish .continueNext { s with mem := s.mem.writeBytes (dataAddress s 0) (bcdDigits (s.reg x)) }
  else finish (.fault .memoryBoundsViolation) s

/-- LD [I], Vx: stores V0 to V[X] (43_index_memory.md R250). -/
def execLdMemIVx (x : Reg) (s : State) : Host.Outcome State Fault Refusal :=
  if dataInBounds s (transferCount x) then
    finish .continueNext
      (stepI x { s with mem := s.mem.writeBytes (dataAddress s 0) (s.V.toList.take (transferCount x)) })
  else finish (.fault .memoryBoundsViolation) s

/-- LD Vx, [I]: loads V0 to V[X] (43_index_memory.md R252). -/
def execLdVxMemI (x : Reg) (s : State) : Host.Outcome State Fault Refusal :=
  if dataInBounds s (transferCount x) then
    finish .continueNext
      (stepI x { s with V := loadRegs s.V 0 (s.mem.readBytes (dataAddress s 0) (transferCount x)) })
  else finish (.fault .memoryBoundsViolation) s

end Sys2Proof.Machine
end

