-- ==== Sys2Proof/Machine/Control.lean ====
section
/-! DEFINITION. The meanings of group 0 (but CLS), the jumps, the call and the skips on registers and immediates
(41_control_flow.md). -/

namespace Sys2Proof.Machine

/-- A skip: SkipNext when the condition holds, else Continue; nothing is written (41_control_flow.md R187 to R190). -/
def skipWhen (c : Bool) (s : State) : Host.Outcome State Fault Refusal :=
  finish (if c then .skipNext else .continueNext) s

/-- HALT (41_control_flow.md R180). -/
def execHalt (s : State) : Host.Outcome State Fault Refusal :=
  finish .terminate s

/-- SYS, a no-op (41_control_flow.md R181). -/
def execSys (_nnn : BitVec 12) (s : State) : Host.Outcome State Fault Refusal :=
  finish .continueNext s

/-- RET: an empty stack or a popped 0 is Malformed(EmptyStack); the entry is removed in any case
(41_control_flow.md R182). -/
def execRet (s : State) : Host.Outcome State Fault Refusal :=
  match s.pop.1 with
  | none => finish (.malformed .emptyStack) s.pop.2
  | some r => if r = 0x0000#16 then finish (.malformed .emptyStack) s.pop.2 else finish (.jump r.toNat) s.pop.2

/-- JP nnn (41_control_flow.md R183). -/
def execJp (nnn : BitVec 12) (s : State) : Host.Outcome State Fault Refusal :=
  finish (.jump (addressOf nnn)) s

/-- CALL nnn: the stack limit is checked before the push (41_control_flow.md R184, R185). -/
def execCall (nnn : BitVec 12) (s : State) : Host.Outcome State Fault Refusal :=
  if s.stackFull then finish (.fault .stackOverflow) s
  else finish (.jump (addressOf nnn)) (s.push (returnAddress s))

/-- JP V0, nnn (41_control_flow.md R186). -/
def execJpV0 (nnn : BitVec 12) (s : State) : Host.Outcome State Fault Refusal :=
  finish (.jump (targetPlusV0 nnn s)) s

/-- SE Vx, nn (41_control_flow.md R187). -/
def execSeVxNn (x : Reg) (nn : Byte) (s : State) : Host.Outcome State Fault Refusal :=
  skipWhen (s.reg x == nn) s

/-- SNE Vx, nn (41_control_flow.md R188). -/
def execSneVxNn (x : Reg) (nn : Byte) (s : State) : Host.Outcome State Fault Refusal :=
  skipWhen (s.reg x != nn) s

/-- SE Vx, Vy (41_control_flow.md R189). -/
def execSeVxVy (x y : Reg) (s : State) : Host.Outcome State Fault Refusal :=
  skipWhen (s.reg x == s.reg y) s

/-- SNE Vx, Vy (41_control_flow.md R190). -/
def execSneVxVy (x y : Reg) (s : State) : Host.Outcome State Fault Refusal :=
  skipWhen (s.reg x != s.reg y) s

end Sys2Proof.Machine
end

