-- ==== Sys2Proof/Machine/Timers.lean ====
section
/-! DEFINITION. The timer activity (60_exceptions.md R345 to R347), and the meanings of FX07, FX15, FX18, EX9E, EXA1
and FX0A (45_timers_keys.md). -/

namespace Sys2Proof.Machine

open Sys2Proof.Config

/-- One decrement: a counter at 0 stays 0 (60_exceptions.md R345). -/
def countDown (v : Byte) : Byte :=
  if v = 0x00#8 then v else v - 0x01#8

/-- `n` decrements of a counter, stated without counting them out. -/
def countDownBy (v : Byte) (n : Nat) : Byte :=
  BitVec.ofNat 8 (v.toNat - n)

/-- TickDelay (60_exceptions.md R345). -/
def State.tickDelay (s : State) : State :=
  { s with delay := countDown s.delay }

/-- TickSound (60_exceptions.md R345). -/
def State.tickSound (s : State) : State :=
  { s with sound := countDown s.sound }

/-- The source's decrement of a counter that read `seen` and finds `now` at its compare-and-swap (60_exceptions.md
R347). No step performs it: R345's steps admit all its outcomes (log 13). -/
def casDecrement (seen now : Byte) : Byte :=
  if seen ≠ 0x00#8 ∧ now = seen then seen - 0x01#8 else now

/-- LD Vx, DT (45_timers_keys.md R300). -/
def execLdVxDt (x : Reg) (s : State) : Host.Outcome State Fault Refusal :=
  finish .continueNext (s.setReg x s.delay)

/-- LD DT, Vx (45_timers_keys.md R301). -/
def execLdDtVx (x : Reg) (s : State) : Host.Outcome State Fault Refusal :=
  finish .continueNext { s with delay := s.reg x }

/-- LD ST, Vx (45_timers_keys.md R302). -/
def execLdStVx (x : Reg) (s : State) : Host.Outcome State Fault Refusal :=
  finish .continueNext { s with sound := s.reg x }

/-- SKP Vx: the level of the key, not an edge (45_timers_keys.md R303, R305). -/
def execSkp (x : Reg) (s : State) : Host.Outcome State Fault Refusal :=
  match keyIndex x s with
  | none => finish (.fault .keyIndexOutOfRange) s
  | some k => skipWhen (keyDown s.keyCur k) s

/-- SKNP Vx (45_timers_keys.md R304, R305). -/
def execSknp (x : Reg) (s : State) : Host.Outcome State Fault Refusal :=
  match keyIndex x s with
  | none => finish (.fault .keyIndexOutOfRange) s
  | some k => skipWhen (!keyDown s.keyCur k) s

/-- LD Vx, K: an edge in its own cycle completes it; otherwise the wait begins (45_timers_keys.md R310). -/
def execLdVxK (x : Reg) (s : State) : Host.Outcome State Fault Refusal :=
  match firstEdge s.cfg.keyScan s.keyCur s.keyPrev with
  | some k => finish .continueNext (s.setReg x (BitVec.ofNat 8 k))
  | none => finish (.waitingForKey x) s

/-- A poll cycle between the key sampling and the snapshot (40_cycle.md R150): an edge completes the FX0A, reported
as its Continue (R155); without one nothing changes. -/
def State.poll (s : State) : State :=
  match firstEdge s.cfg.keyScan s.keyCur s.keyPrev with
  | some k => ({ s.setReg s.waitReg (BitVec.ofNat 8 k) with waiting := false } : State).conclude .continueNext
  | none => s.report (.waitingForKey s.waitReg)

end Sys2Proof.Machine
end

