-- ==== Sys2Proof/Machine/Cycle.lean ====
section
/-! DEFINITION. The interpreter cycle around an instruction, the poll cycle, the stopped run, the ROM load, and what
one move does (40_cycle.md; 70_reset_and_hazards.md R384, R385). -/

namespace Sys2Proof.Machine

open Sys2Proof.Config

/-- The start of a cycle: the host's vector is sampled before anything reads the keys (40_cycle.md R141). -/
def State.beginCycle (s : State) (keys : Keys) : State :=
  { s with keyCur := keys, started := true }

/-- The end of a cycle: the key snapshot (40_cycle.md R156). -/
def State.endCycle (s : State) : State :=
  { s with keyPrev := s.keyCur }

/-- Apply a function to the next state of an answer. -/
def mapNext (f : State → State) : Host.Outcome State Fault Refusal → Host.Outcome State Fault Refusal
  | .next s => .next (f s)
  | .fault r => .fault r
  | .refused r => .refused r

/-- Fetch, decode, execute, apply the outcome (40_cycle.md R143 to R149). A word no handler takes is
Malformed(NoPattern). -/
def instructionCycle (s : State) : Host.Outcome State Fault Refusal :=
  match s.fetchWord with
  | none => .fault (.fetchOutsideMemory s.pc)
  | some w =>
    match decode w with
    | .ok i => exec i s
    | .error _ => finish (.malformed .noPattern) s

/-- A cycle request (40_cycle.md R140 to R142, R157). A stopped run changes nothing; only the redraw pulse of an
earlier cycle is over (R154). After RomLoadFailure no cycle is enabled (70_reset_and_hazards.md R385). -/
def cycle (keys : Keys) (s : State) : Host.Outcome State Fault Refusal :=
  if s.loadResult = some .romLoadFailure then .refused .cycleAfterRomLoadFailure
  else if s.run = .active then
    if s.waiting then .next (s.beginCycle keys).poll.endCycle
    else mapNext State.endCycle (instructionCycle (s.beginCycle keys))
  else .next { s with redraw := false }

/-- The capacity of a load: `MEM_SIZE - LOAD_ADDR`, 3584 bytes (70_reset_and_hazards.md R384). -/
def romCapacity : Nat :=
  memSize - loadAddr

/-- A ROM load: at most once, before any cycle (70_reset_and_hazards.md R384). A failed one leaves memory unchanged
(R385). -/
def load (rom : Rom) (s : State) : Host.Outcome State Fault Refusal :=
  if s.started = true ∨ s.loadResult ≠ none then .refused .loadNotOffered
  else
    match rom with
    | .ioFailure => .next { s with loadResult := some .romLoadFailure }
    | .bytes b =>
      if romCapacity < b.length then .next { s with loadResult := some .romLoadFailure }
      else .next { s with mem := s.mem.writeBytes loadAddr b, loadResult := some (.byteCount b.length) }

/-- What one move does. -/
def perform (m : Move) (s : State) : Host.Outcome State Fault Refusal :=
  match m with
  | .cycle keys => cycle keys s
  | .tickDelay => .next s.tickDelay
  | .tickSound => .next s.tickSound
  | .load rom => load rom s

/-- The timer steps of an unscripted step: a free number of each (log 3). They may all stand before its cycle
(40_cycle.md R158). -/
def State.freeTicks (s : State) : State :=
  { s with
    delay := countDownBy s.delay (freeDelayTicks s.inputCount)
    sound := countDownBy s.sound (freeSoundTicks s.inputCount)
    inputCount := s.inputCount + 1 }

/-- A step with no scripted move: free timer steps, and then a cycle with a free key vector, unless the host has
stopped requesting cycles (60_exceptions.md R368). Log 3. -/
def unscripted (s : State) : Host.Outcome State Fault Refusal :=
  if s.hostStopped then .next s.freeTicks else cycle (freeKeys s.inputCount) s.freeTicks

/-- Place a word for the next fetch: its two bytes at pc, and the next move a cycle request to a run that is active,
not waiting and not stuck after a failed load (log 14). -/
def placeWord (s : State) (w : Word) : State :=
  { s with
    mem := s.mem.writeBytes s.pc.toNat (bytesOfWord w)
    pending := .cycle noKeys :: s.pending
    run := .active
    waiting := false
    loadResult := if s.loadResult = some .romLoadFailure then none else s.loadResult }

end Sys2Proof.Machine
end

