-- ==== Sys2Proof/Machine/Step.lean ====
section
/-! DEFINITION. One step of CORE: the oldest scripted move, or an unscripted step. -/

namespace Sys2Proof.Machine

/-- One step: the move at the head of `pending` (log 2), or, when nothing is scripted, free timer steps and
a cycle with free keys, which a host that has stopped leaves out (log 3). -/
def step (s : State) : Host.Outcome State Fault Refusal :=
  match s.pending with
  | m :: rest => perform m { s with pending := rest }
  | [] => unscripted s

/-- `s` with the word `w` stored where the next step fetches (log 14). -/
def State.withFetchWord (s : State) (nbits w : Nat) : State :=
  placeWord s (tableWord nbits w)

end Sys2Proof.Machine
end

