-- ==== Sys2Proof/Machine/Assembly.lean ====
section
/-! DEFINITION. The assembler syntax (30_encoding.md R116, R117): the line of an instruction, as a mnemonic and
operands, what a line assembles to, and its text. -/

namespace Sys2Proof.Machine

/-- The mnemonics of 30_encoding.md R116. -/
inductive Mnemonic where
  | halt | cls | ret | sys | jp | call | se | sne | ld | add | or | and | xor | sub | shr | subn | shl | rnd | drw
  | skp | sknp
deriving DecidableEq, Repr

/-- The operands of 30_encoding.md R116. -/
inductive AsmOperand where
  | reg (x : Reg)
  /-- An immediate: `nnn`, `nn` or `n`. -/
  | imm (v : Nat)
  | i
  | memI
  | dt
  | st
  | k
  | f
  | b
deriving DecidableEq, Repr

/-- A line of assembly. -/
structure AsmLine where
  mnemonic : Mnemonic
  operands : List AsmOperand
deriving DecidableEq, Repr

/-- The line of an instruction, by the table of 30_encoding.md R116. -/
def lineOf : Instr → AsmLine
  | .halt => ⟨.halt, []⟩
  | .cls => ⟨.cls, []⟩
  | .ret => ⟨.ret, []⟩
  | .sys nnn => ⟨.sys, [.imm nnn.toNat]⟩
  | .jp nnn => ⟨.jp, [.imm nnn.toNat]⟩
  | .call nnn => ⟨.call, [.imm nnn.toNat]⟩
  | .seVxNn x nn => ⟨.se, [.reg x, .imm nn.toNat]⟩
  | .sneVxNn x nn => ⟨.sne, [.reg x, .imm nn.toNat]⟩
  | .seVxVy x y => ⟨.se, [.reg x, .reg y]⟩
  | .ldVxNn x nn => ⟨.ld, [.reg x, .imm nn.toNat]⟩
  | .addVxNn x nn => ⟨.add, [.reg x, .imm nn.toNat]⟩
  | .ldVxVy x y => ⟨.ld, [.reg x, .reg y]⟩
  | .orVxVy x y => ⟨.or, [.reg x, .reg y]⟩
  | .andVxVy x y => ⟨.and, [.reg x, .reg y]⟩
  | .xorVxVy x y => ⟨.xor, [.reg x, .reg y]⟩
  | .addVxVy x y => ⟨.add, [.reg x, .reg y]⟩
  | .subVxVy x y => ⟨.sub, [.reg x, .reg y]⟩
  | .shrVx x y => ⟨.shr, [.reg x, .reg y]⟩
  | .subnVxVy x y => ⟨.subn, [.reg x, .reg y]⟩
  | .shlVx x y => ⟨.shl, [.reg x, .reg y]⟩
  | .sneVxVy x y => ⟨.sne, [.reg x, .reg y]⟩
  | .ldINnn nnn => ⟨.ld, [.i, .imm nnn.toNat]⟩
  | .jpV0 nnn => ⟨.jp, [.reg 0, .imm nnn.toNat]⟩
  | .rnd x nn => ⟨.rnd, [.reg x, .imm nn.toNat]⟩
  | .drw x y n => ⟨.drw, [.reg x, .reg y, .imm n.val]⟩
  | .skp x => ⟨.skp, [.reg x]⟩
  | .sknp x => ⟨.sknp, [.reg x]⟩
  | .ldVxDt x => ⟨.ld, [.reg x, .dt]⟩
  | .ldVxK x => ⟨.ld, [.reg x, .k]⟩
  | .ldDtVx x => ⟨.ld, [.dt, .reg x]⟩
  | .ldStVx x => ⟨.ld, [.st, .reg x]⟩
  | .addIVx x => ⟨.add, [.i, .reg x]⟩
  | .ldFVx x => ⟨.ld, [.f, .reg x]⟩
  | .ldBVx x => ⟨.ld, [.b, .reg x]⟩
  | .ldMemIVx x => ⟨.ld, [.memI, .reg x]⟩
  | .ldVxMemI x => ⟨.ld, [.reg x, .memI]⟩

/-- An immediate that fits `w` bits. -/
def immOf (w v : Nat) : Option (BitVec w) :=
  if v < 2 ^ w then some (BitVec.ofNat w v) else none

/-- An instruction that exists as a word: `SYS` takes not every `nnn` (30_encoding.md R117). -/
def ifWellFormed (i : Instr) : Option Instr :=
  if i.wellFormed = true then some i else none

/-- The instruction a line spells, `none` when it spells none. The Y of SHR and SHL may be omitted, and is then 0
(30_encoding.md R116). -/
def instrOfLine (l : AsmLine) : Option Instr :=
  match l.mnemonic, l.operands with
  | .halt, [] => some .halt
  | .cls, [] => some .cls
  | .ret, [] => some .ret
  | .sys, [.imm v] => (immOf 12 v).bind fun nnn => ifWellFormed (.sys nnn)
  | .jp, [.imm v] => (immOf 12 v).map .jp
  | .call, [.imm v] => (immOf 12 v).map .call
  | .se, [.reg x, .imm v] => (immOf 8 v).map (.seVxNn x)
  | .sne, [.reg x, .imm v] => (immOf 8 v).map (.sneVxNn x)
  | .se, [.reg x, .reg y] => some (.seVxVy x y)
  | .ld, [.reg x, .imm v] => (immOf 8 v).map (.ldVxNn x)
  | .add, [.reg x, .imm v] => (immOf 8 v).map (.addVxNn x)
  | .ld, [.reg x, .reg y] => some (.ldVxVy x y)
  | .or, [.reg x, .reg y] => some (.orVxVy x y)
  | .and, [.reg x, .reg y] => some (.andVxVy x y)
  | .xor, [.reg x, .reg y] => some (.xorVxVy x y)
  | .add, [.reg x, .reg y] => some (.addVxVy x y)
  | .sub, [.reg x, .reg y] => some (.subVxVy x y)
  | .shr, [.reg x, .reg y] => some (.shrVx x y)
  | .shr, [.reg x] => some (.shrVx x 0)
  | .subn, [.reg x, .reg y] => some (.subnVxVy x y)
  | .shl, [.reg x, .reg y] => some (.shlVx x y)
  | .shl, [.reg x] => some (.shlVx x 0)
  | .sne, [.reg x, .reg y] => some (.sneVxVy x y)
  | .ld, [.i, .imm v] => (immOf 12 v).map .ldINnn
  | .jp, [.reg x, .imm v] => if x = 0 then (immOf 12 v).map .jpV0 else none
  | .rnd, [.reg x, .imm v] => (immOf 8 v).map (.rnd x)
  | .drw, [.reg x, .reg y, .imm v] => (immOf 4 v).map fun n => .drw x y n.toFin
  | .skp, [.reg x] => some (.skp x)
  | .sknp, [.reg x] => some (.sknp x)
  | .ld, [.reg x, .dt] => some (.ldVxDt x)
  | .ld, [.reg x, .k] => some (.ldVxK x)
  | .ld, [.dt, .reg x] => some (.ldDtVx x)
  | .ld, [.st, .reg x] => some (.ldStVx x)
  | .add, [.i, .reg x] => some (.addIVx x)
  | .ld, [.f, .reg x] => some (.ldFVx x)
  | .ld, [.b, .reg x] => some (.ldBVx x)
  | .ld, [.memI, .reg x] => some (.ldMemIVx x)
  | .ld, [.reg x, .memI] => some (.ldVxMemI x)
  | _, _ => none

/-- The word a line assembles to (30_encoding.md R117). -/
def assemble (l : AsmLine) : Option Word :=
  (instrOfLine l).map encode

/-! ## Text -/

/-- A hex digit, as R116 writes registers `V0` to `VF`. -/
def hexDigit (d : Fin 16) : String :=
  ["0", "1", "2", "3", "4", "5", "6", "7", "8", "9", "A", "B", "C", "D", "E", "F"].getD d.val ""

/-- A value below 0x1000 in hex with `0x`, without leading zeros (log 20). -/
def hexText (v : Nat) : String :=
  "0x" ++
    (if 256 ≤ v then hexDigit (Fin.ofNat 16 (v / 256)) else "") ++
    (if 16 ≤ v then hexDigit (Fin.ofNat 16 (v / 16)) else "") ++
    hexDigit (Fin.ofNat 16 v)

def Mnemonic.text : Mnemonic → String
  | .halt => "HALT" | .cls => "CLS" | .ret => "RET" | .sys => "SYS" | .jp => "JP" | .call => "CALL" | .se => "SE"
  | .sne => "SNE" | .ld => "LD" | .add => "ADD" | .or => "OR" | .and => "AND" | .xor => "XOR" | .sub => "SUB"
  | .shr => "SHR" | .subn => "SUBN" | .shl => "SHL" | .rnd => "RND" | .drw => "DRW" | .skp => "SKP" | .sknp => "SKNP"

def AsmOperand.text : AsmOperand → String
  | .reg x => "V" ++ hexDigit x
  | .imm v => hexText v
  | .i => "I"
  | .memI => "[I]"
  | .dt => "DT"
  | .st => "ST"
  | .k => "K"
  | .f => "F"
  | .b => "B"

/-- The text of a line: operands are comma-separated (30_encoding.md R116). -/
def AsmLine.text (l : AsmLine) : String :=
  match l.operands with
  | [] => l.mnemonic.text
  | a :: rest => l.mnemonic.text ++ " " ++ rest.foldl (fun t o => t ++ ", " ++ o.text) a.text

end Sys2Proof.Machine
end

