-- ==== Sys2Proof/Machine/Ports.lean ====
section
/-! DEFINITION. What the host reads between cycles (60_exceptions.md R360, R369): the status and outcome codes, the
fault class, the tone, the RGBA buffer. -/

namespace Sys2Proof.Machine

open Sys2Proof.Config

/-- The codes of the fault kinds (60_exceptions.md R331). -/
def faultCode : FaultKind → BitVec 3
  | .invalidOpcode => 1
  | .addressBoundsViolation => 2
  | .emptyCallStackUnderflow => 3
  | .memoryBoundsViolation => 4
  | .keyIndexOutOfRange => 5
  | .stackOverflow => 6

/-- The status port (60_exceptions.md R363; 10_state.md R49). -/
structure Status where
  run : BitVec 2
  faultKind : BitVec 3
  waiting : BitVec 1
  waitReg : BitVec 4
deriving DecidableEq, Repr

/-- The code of the run status (10_state.md R49). -/
def runCode : RunStatus → BitVec 2
  | .active => 0
  | .terminated => 1
  | .faulted _ => 2

/-- The `fault_kind` field: 0 when there is no fault (10_state.md R49). -/
def faultKindCode : RunStatus → BitVec 3
  | .active => 0
  | .terminated => 0
  | .faulted k => faultCode k

/-- The fields of the status port. -/
def State.status (s : State) : Status where
  run := runCode s.run
  faultKind := faultKindCode s.run
  waiting := BitVec.ofBool s.waiting
  waitReg := nibbleOf s.waitReg

/-- The codes of the outcomes (60_exceptions.md R362). -/
def outcomeCode : CycleOutcome → BitVec 3
  | .continueNext => 0
  | .skipNext => 1
  | .jump _ => 2
  | .terminate => 3
  | .malformed _ => 4
  | .requestRedraw => 5
  | .waitingForKey _ => 6
  | .fault _ => 7

/-- The fault classes of the source that the host sees (60_exceptions.md R332). -/
inductive FaultClass where
  | invalidOpcode
  | addressBoundsViolation
deriving DecidableEq, Repr

/-- EmptyCallStackUnderflow is reported in the class InvalidOpcode; kinds 4 to 6 are in no class of the source
(60_exceptions.md R332). -/
def hostClass : FaultKind → Option FaultClass
  | .invalidOpcode => some .invalidOpcode
  | .emptyCallStackUnderflow => some .invalidOpcode
  | .addressBoundsViolation => some .addressBoundsViolation
  | .memoryBoundsViolation => none
  | .keyIndexOutOfRange => none
  | .stackOverflow => none

/-- The tone is on while `sound != 0` (60_exceptions.md R366). -/
def State.toneOn (s : State) : Bool :=
  s.sound != 0x00#8

/-- The colour of a cell (44_display.md R285). -/
def cellColour (set : Bool) : BitVec 32 :=
  if set then setRgba else unsetRgba

/-- The bytes of a colour in the order R, G, B, A (44_display.md R285). -/
def colourBytes (c : BitVec 32) : List Byte :=
  [c.extractLsb' 24 8, c.extractLsb' 16 8, c.extractLsb' 8 8, c.extractLsb' 0 8]

/-- The byte offset of a cell in the RGBA buffer: `((x mod 64) + y * 64) * 4` (44_display.md R285). -/
def rgbaOffset (x : Fin 64) (y : Fin 32) : Nat :=
  (x.val % 64 + y.val * 64) * 4

/-- The RGBA buffer of 8192 bytes, derived from `fb`: rows from the top, cells from the left (44_display.md R285). -/
def State.rgbaBuffer (s : State) : List Byte :=
  (List.finRange 32).flatMap fun y =>
    (List.finRange 64).flatMap fun x => colourBytes (cellColour (s.fb.cell x y))

end Sys2Proof.Machine
end

