-- ==== Sys2Proof/Safety.lean ====
section
/-! DEFINITION. The terms claims use: what a good end is, what a run and a fair run are, the invariant of the model,
how pc moves, and what an instruction leaves unchanged. -/

namespace Sys2Proof.Machine

open Sys2Proof.Config

/-! ## Ends and runs -/

/-- The only successful final status (70_reset_and_hazards.md R392). -/
def EndedWell (s : State) : Prop :=
  s.run = .terminated

/-- A bad stop (60_exceptions.md R335). -/
def BadStop (s : State) : Prop :=
  ∃ k, s.run = .faulted k

/-- An infinite execution: every step answers the next state. -/
def IsRun (f : Nat → State) : Prop :=
  ∀ n, step (f n) = .next (f (n + 1))

/-- The next step takes a TickDelay step, alone or in an unscripted step. -/
def TicksDelay (s : State) : Prop :=
  match s.pending with
  | .tickDelay :: _ => True
  | [] => 0 < freeDelayTicks s.inputCount
  | _ => False

/-- The next step takes a TickSound step, alone or in an unscripted step. -/
def TicksSound (s : State) : Prop :=
  match s.pending with
  | .tickSound :: _ => True
  | [] => 0 < freeSoundTicks s.inputCount
  | _ => False

/-- The fairness of the timer activity (60_exceptions.md R346): a counter that stays positive from some point on is
ticked after that point, hence infinitely often. -/
def FairTimers (f : Nat → State) : Prop :=
  (∀ n, (∀ m, n ≤ m → (f m).delay ≠ 0x00#8) → ∃ m, n ≤ m ∧ TicksDelay (f m)) ∧
  (∀ n, (∀ m, n ≤ m → (f m).sound ≠ 0x00#8) → ∃ m, n ≤ m ∧ TicksSound (f m))

/-- The next step is a cycle request with the vector `keys`, and `u` is the state the cycle begins in: `s` without the
scripted move, or, with nothing scripted and a host that has not stopped, `s` after free timer steps. -/
def CycleBegins (s : State) (keys : Keys) (u : State) : Prop :=
  (∃ rest, s.pending = .cycle keys :: rest ∧ u = { s with pending := rest }) ∨
  (s.pending = [] ∧ s.hostStopped = false ∧ keys = freeKeys s.inputCount ∧
    u = { s with
      delay := countDownBy s.delay (freeDelayTicks s.inputCount)
      sound := countDownBy s.sound (freeSoundTicks s.inputCount)
      inputCount := s.inputCount + 1 })

/-- The next step is a cycle request, scripted or not. -/
def RequestsCycle (s : State) : Prop :=
  ∃ keys u, CycleBegins s keys u

/-- The host keeps requesting cycles: a premise of claims about ending runs, not a duty of the host
(60_exceptions.md R368). -/
def HostKeepsRequesting (f : Nat → State) : Prop :=
  ∀ n, ∃ m, n ≤ m ∧ RequestsCycle (f m)

/-! ## The invariant -/

/-- What every reachable state satisfies: memory in canonical form; pc where both fetch bytes exist (10_state.md
R38); stack entries as CALL pushes them, never 0 (41_control_flow.md R182), and no more of them than a finite
`STACK_LIMIT`; a key wait only in an active run; before the first cycle, an active run that is not waiting; after
RomLoadFailure, no cycle (70_reset_and_hazards.md R385). -/
structure Inv (s : State) : Prop where
  memWf : s.mem.wf = true
  pcInMemory : s.pc.toNat ≤ maxPc
  stackEntries : ∀ e ∈ s.stack, 2 ≤ e.toNat ∧ e.toNat ≤ memSize
  stackWithinLimit : ∀ n, s.cfg.stackLimit = some n → s.stack.length ≤ n
  waitingIsActive : s.waiting = true → s.run = .active
  activeBeforeStart : s.started = false → s.run = .active ∧ s.waiting = false
  noCycleAfterFailure : s.loadResult = some .romLoadFailure → s.started = false

/-! ## How pc moves -/

/-- pc moves to `target` when both fetch bytes are in memory there, and otherwise the run faults with pc unchanged
(40_cycle.md R146). -/
def MovesTo (s t : State) (target : Nat) : Prop :=
  (target ≤ memSize - 2 → t.pc.toNat = target ∧ t.run = s.run) ∧
  (memSize - 2 < target → t.pc = s.pc ∧ t.run = .faulted .addressBoundsViolation)

/-- The cycle applied Continue (40_cycle.md R145). -/
def Continues (s t : State) : Prop :=
  t.outcome = some .continueNext ∧ t.redraw = false ∧ MovesTo s t (s.pc.toNat + 2)

/-- The cycle applied SkipNext (40_cycle.md R145). -/
def Skips (s t : State) : Prop :=
  t.outcome = some .skipNext ∧ t.redraw = false ∧ MovesTo s t (s.pc.toNat + 4)

/-- The cycle applied Jump (40_cycle.md R145). -/
def JumpsTo (s t : State) (target : Nat) : Prop :=
  t.outcome = some (.jump target) ∧ t.redraw = false ∧ MovesTo s t target

/-- The cycle applied RequestRedraw (40_cycle.md R145, R154). -/
def Redraws (s t : State) : Prop :=
  t.outcome = some .requestRedraw ∧ t.redraw = true ∧ MovesTo s t (s.pc.toNat + 2)

/-- The handler raised a fault: nothing but the run status and the ports differs (60_exceptions.md R333, R334). -/
def FaultsWith (s t : State) (k : FaultKind) : Prop :=
  t = { s with run := .faulted k, outcome := some (.fault k), redraw := false }

/-! ## What is left unchanged -/

/-- `s` with pc, run and the ports of `t`: what any instruction may change. -/
def State.withControlOf (s t : State) : State :=
  { s with pc := t.pc, run := t.run, outcome := t.outcome, redraw := t.redraw }

/-- Nothing but pc, run and the ports changes: every register, I, the stack, every byte of memory, the timers, the
keys, the screen and the wait-state stay. -/
def OnlyControl (s t : State) : Prop :=
  t = s.withControlOf t

/-- Beside pc, run and the ports only the listed registers may change. -/
def OnlyRegs (rs : List Reg) (s t : State) : Prop :=
  t = { s.withControlOf t with V := t.V } ∧ ∀ r, r ∉ rs → t.reg r = s.reg r

/-- Every byte of memory outside the `n` bytes from `a` on reads as before. -/
def MemoryKeptOutside (a n : Nat) (s t : State) : Prop :=
  ∀ b, ¬ (a ≤ b ∧ b < a + n) → t.mem.get b = s.mem.get b

/-- The byte at address `a` after the bytes `bs` were stored over `s` from address `base` on. -/
def storedOver (s : State) (base : Nat) (bs : List Byte) (a : Nat) : Byte :=
  if base ≤ a ∧ a < base + bs.length then bs.getD (a - base) 0x00#8 else s.mem.get a

/-- The hundreds, tens and ones of a byte (43_index_memory.md R247). -/
def digitsOf (v : Byte) : List Byte :=
  [BitVec.ofNat 8 (v.toNat / 100), BitVec.ofNat 8 (v.toNat / 10 % 10), BitVec.ofNat 8 (v.toNat % 10)]

/-- The result `r` in V[x] and the flag `f` in VF; when X = 15 the one that `VF_ORDER` writes last survives
(42_alu.md R213). No other register changes. -/
def WritesResultAndFlag (x : Reg) (r f : Nat) (s t : State) : Prop :=
  OnlyRegs [x, VF] s t ∧
  (x ≠ VF → (t.reg x).toNat = r ∧ (t.reg VF).toNat = f) ∧
  (x = VF → (t.reg VF).toNat = match s.cfg.vfOrder with | .flagLast => f | .resultLast => r)

/-- Instructions one after another, each at the state the one before it left. -/
def execAll : List Instr → State → Host.Outcome State Fault Refusal
  | [], s => .next s
  | i :: rest, s =>
    match exec i s with
    | .next t => execAll rest t
    | .fault r => .fault r
    | .refused r => .refused r

/-! ## Keys and pixels -/

/-- Key `k` is the least scanned key with a rising edge (40_cycle.md R151). -/
def IsFirstEdge (s : State) (k : Nat) : Prop :=
  k < scanCount s.cfg.keyScan ∧ keyDown s.keyCur k = true ∧ keyDown s.keyPrev k = false ∧
  ∀ j, j < k → ¬ (keyDown s.keyCur j = true ∧ keyDown s.keyPrev j = false)

/-- No scanned key has a rising edge (40_cycle.md R151). -/
def NoEdge (s : State) : Prop :=
  ∀ k, k < scanCount s.cfg.keyScan → ¬ (keyDown s.keyCur k = true ∧ keyDown s.keyPrev k = false)

/-- The pixel position (px, py) is drawn in cell (x, y): the three formulas of 44_display.md R274. -/
def LandsOn (wrap : SpriteWrap) (px py x y : Nat) : Prop :=
  match wrap with
  | .perAxis => x = px % 64 ∧ y = py % 32
  | .flatModulo => x = (px + 64 * py) % 2048 % 64 ∧ y = (px + 64 * py) % 2048 / 64
  | .clip => px < 64 ∧ py < 32 ∧ x = px ∧ y = py

/-- Some set bit of the N-row sprite at I, drawn at (V[X], V[Y]), lands on cell (cx, cy): row r is byte `I + r`, and
its bit `7 - c` is column c (44_display.md R272). -/
def SpriteCovers (x y : Reg) (n : Nat) (s : State) (cx cy : Nat) : Prop :=
  ∃ r c, r < n ∧ c < 8 ∧ (s.mem.get (s.I.toNat + r)).getLsbD (7 - c) = true ∧
    LandsOn s.cfg.spriteWrap ((s.reg x).toNat + c) ((s.reg y).toNat + r) cx cy

/-! ## Which instructions name a part of the state (10_state.md R33, R35, R41, R43) -/

/-- I is read or written (10_state.md R35). -/
def namesI : Instr → Bool
  | .ldINnn _ | .addIVx _ | .ldFVx _ | .ldBVx _ | .ldMemIVx _ | .ldVxMemI _ | .drw _ _ _ => true
  | _ => false

/-- The call stack is read or written (10_state.md R39). -/
def namesStack : Instr → Bool
  | .call _ | .ret => true
  | _ => false

/-- Memory is read or written (20_memory.md R76). -/
def namesMemory : Instr → Bool
  | .drw _ _ _ | .ldBVx _ | .ldMemIVx _ | .ldVxMemI _ => true
  | _ => false

/-- The delay counter is read or written (10_state.md R41). -/
def namesDelay : Instr → Bool
  | .ldVxDt _ | .ldDtVx _ => true
  | _ => false

/-- The sound counter is written; no instruction reads it (10_state.md R41). -/
def namesSound : Instr → Bool
  | .ldStVx _ => true
  | _ => false

/-- The present key vector is read (10_state.md R33). -/
def namesKeys : Instr → Bool
  | .skp _ | .sknp _ | .ldVxK _ => true
  | _ => false

/-- The previous key vector is read (10_state.md R50). -/
def namesKeySnapshot : Instr → Bool
  | .ldVxK _ => true
  | _ => false

/-- The framebuffer is read or written (44_display.md R280). -/
def namesScreen : Instr → Bool
  | .cls | .drw _ _ _ => true
  | _ => false

end Sys2Proof.Machine
end

