-- ==== Sys2Proof/Certificates/Slice0/Obligations.lean ====
section
/-! DEFINITION. The statements for the provers. A statement about an instruction says what its rule says: the
encoding, the values written, what stays unchanged, and both sides of the pc bounds check of its outcome. -/

open Sys2Proof Sys2Proof.Machine Sys2Proof.Config

/-! ## Reset, decoding -/

/-- Every field of the reset state holds the value of 10_state.md R51, and the first fetch reads the word 0x0000. The
80 font bytes are written out from the table of R44. With another `FONT` or other parameters, the state after
construction reads that font, and 0 above it. The values of I, the timers, the keys, the wait-state and run are the
spec's decision D17, and the font bytes its general knowledge (log 8, log 16). -/
def Obligations.ResetStateIsAsSpecified : Prop :=
  (∀ r, State.reset.reg r = 0x00#8) ∧ State.reset.I = 0x0000#16 ∧ State.reset.pc.toNat = 0x200 ∧
  State.reset.stack = [] ∧ State.reset.delay = 0x00#8 ∧ State.reset.sound = 0x00#8 ∧
  (∀ k, keyDown State.reset.keyCur k = false ∧ keyDown State.reset.keyPrev k = false) ∧
  (∀ x y, State.reset.fb.cell x y = false) ∧ State.reset.waiting = false ∧ State.reset.waitReg = 0 ∧
  State.reset.run = .active ∧
  State.reset.mem.readBytes 0x000 80 =
    [0xF0, 0x90, 0x90, 0x90, 0xF0] ++ [0x20, 0x60, 0x20, 0x20, 0x70] ++
    [0xF0, 0x10, 0xF0, 0x80, 0xF0] ++ [0xF0, 0x10, 0xF0, 0x10, 0xF0] ++
    [0x90, 0x90, 0xF0, 0x10, 0x10] ++ [0xF0, 0x80, 0xF0, 0x10, 0xF0] ++
    [0xF0, 0x80, 0xF0, 0x90, 0xF0] ++ [0xF0, 0x10, 0x20, 0x40, 0x40] ++
    [0xF0, 0x90, 0xF0, 0x90, 0xF0] ++ [0xF0, 0x90, 0xF0, 0x10, 0xF0] ++
    [0xF0, 0x90, 0xF0, 0x90, 0x90] ++ [0xE0, 0x90, 0xE0, 0x90, 0xE0] ++
    [0xF0, 0x80, 0x80, 0x80, 0xF0] ++ [0xE0, 0x90, 0x90, 0x90, 0xE0] ++
    [0xF0, 0x80, 0xF0, 0x80, 0xF0] ++ [0xF0, 0x80, 0xF0, 0x80, 0x80] ∧
  (∀ (params : Params) (font : Font),
    (∀ a : Fin 80, (State.construct params font).mem.get a = font[a]) ∧
    ∀ a, 80 ≤ a → a < memSize → (State.construct params font).mem.get a = 0x00#8) ∧
  (∀ a, 80 ≤ a → a < memSize → State.reset.mem.get a = 0x00#8) ∧
  State.reset.fetchWord = some 0x0000#16

/-- Words written out bit by bit from the bit pictures of 30_encoding.md R103 decode to what they stand for. -/
def Obligations.WordsWrittenOutDecode : Prop :=
  decode 0b0000000000000000#16 = .ok .halt ∧
  decode 0b0000000011100000#16 = .ok .cls ∧
  decode 0b0000000011101110#16 = .ok .ret ∧
  decode 0b0000000100100011#16 = .ok (.sys 0x123#12) ∧
  decode 0b0010010100000000#16 = .ok (.call 0x500#12) ∧
  decode 0b0011001101000010#16 = .ok (.seVxNn 3 0x42#8) ∧
  decode 0b1000000101110100#16 = .ok (.addVxVy 1 7) ∧
  decode 0b1101000100101111#16 = .ok (.drw 1 2 15) ∧
  decode 0b1110010110011110#16 = .ok (.skp 5) ∧
  decode 0b1111111101010101#16 = .ok (.ldMemIVx 15) ∧
  decode 0b0101000100100001#16 = .error .noPattern

/-- The decoder gives back every well-formed instruction from its word, with every operand at every value the
encoding admits. -/
def Obligations.DecodeOfEncodeIsTheInstruction : Prop :=
  ∀ i : Instr, i.wellFormed = true → decode (encode i) = .ok i

/-- A word that decodes has one meaning and loses no bit: the instruction is well formed and encodes to the word. -/
def Obligations.EncodeOfDecodeIsTheWord : Prop :=
  ∀ (w : Word) (i : Instr), decode w = .ok i → i.wellFormed = true ∧ encode i = w

/-- The malformed words are exactly those of the table of 30_encoding.md R112. The rows of groups 5 and 9 are the
spec's decision D10 (log 15). -/
def Obligations.MalformedWordsAreExactlyTheListedOnes : Prop :=
  ∀ w : Word, decode w = .error .noPattern ↔
    ((w.toNat / 4096 = 0x5 ∨ w.toNat / 4096 = 0x9) ∧ w.toNat % 16 ≠ 0) ∨
    (w.toNat / 4096 = 0x8 ∧ 8 ≤ w.toNat % 16 ∧ w.toNat % 16 ≠ 0xE) ∨
    (w.toNat / 4096 = 0xE ∧ w.toNat % 256 ∉ [0x9E, 0xA1]) ∨
    (w.toNat / 4096 = 0xF ∧ w.toNat % 256 ∉ [0x07, 0x0A, 0x15, 0x18, 0x1E, 0x29, 0x33, 0x55, 0x65])

/-- The assembler: an instruction's line spells its word, every word that a line assembles to decodes to the
instruction the line spells, and SHR and SHL may omit Y. The mnemonics are the spec's general knowledge (log 20). -/
def Obligations.AssemblyLinesSpellTheirWord : Prop :=
  (∀ i : Instr, i.wellFormed = true → assemble (lineOf i) = some (encode i)) ∧
  (∀ (l : AsmLine) (w : Word), assemble l = some w → ∃ i, instrOfLine l = some i ∧ decode w = .ok i) ∧
  (∀ x : Reg, instrOfLine ⟨.shr, [.reg x]⟩ = some (.shrVx x 0) ∧ instrOfLine ⟨.shl, [.reg x]⟩ = some (.shlVx x 0))

/-! ## The cycle -/

/-- A cycle request in an active run that does not wait executes the instruction at pc: the keys are sampled first,
and the key snapshot is taken last. `CycleBegins` covers a scripted cycle, and an unscripted one after its free timer
steps (log 2, log 3: the model's choice of how its environment stands in State). -/
def Obligations.StepRunsTheDecodedInstruction : Prop :=
  ∀ (s u : State) (keys : Keys) (i : Instr), CycleBegins s keys u →
    s.loadResult ≠ some .romLoadFailure → s.run = .active → s.waiting = false → s.pc.toNat ≤ 0xFFE →
    decode (wordOfBytes (s.mem.get s.pc.toNat) (s.mem.get (s.pc.toNat + 1))) = .ok i →
    ∃ t, exec i { u with keyCur := keys, started := true } = .next t ∧ step s = .next { t with keyPrev := t.keyCur }

/-- Every instruction answers a next state in every state, and the outcome it reports is applied to pc, waiting and
run as 40_cycle.md R145 and R146 say. pc after Terminate and Malformed and the exact bound are the spec's decisions
D19 and D4 (log 16). -/
def Obligations.ExecAppliesTheReportedOutcome : Prop :=
  ∀ (i : Instr) (s : State), ∃ t o, exec i s = .next t ∧ t.outcome = some o ∧
    match o with
    | .continueNext => Continues s t
    | .skipNext => Skips s t
    | .jump target => JumpsTo s t target
    | .requestRedraw => Redraws s t
    | .waitingForKey x =>
      t = { s with waiting := true, waitReg := x, outcome := some (.waitingForKey x), redraw := false }
    | .terminate => t = { s with run := .terminated, outcome := some .terminate, redraw := false }
    | .malformed cause =>
      cause = .emptyStack ∧ t.pc = s.pc ∧ t.run = .faulted .emptyCallStackUnderflow ∧ t.redraw = false
    | .fault k => FaultsWith s t k

/-- The two causes of Malformed: a word that no handler takes gives InvalidOpcode, and a RET with nothing to return
to gives EmptyCallStackUnderflow, which the host sees in the class InvalidOpcode. That a popped 0 is nothing to return
to is the spec's decision D39; the key snapshot is D18 and the kept pc D19 (log 16). -/
def Obligations.MalformedCausesGiveTheirFaultKinds : Prop :=
  (∀ (s u : State) (keys : Keys), CycleBegins s keys u →
    s.loadResult ≠ some .romLoadFailure → s.run = .active → s.waiting = false → s.pc.toNat ≤ 0xFFE →
    decode (wordOfBytes (s.mem.get s.pc.toNat) (s.mem.get (s.pc.toNat + 1))) = .error .noPattern →
    step s = .next { u with
      keyCur := keys, keyPrev := keys, started := true, run := .faulted .invalidOpcode
      outcome := some (.malformed .noPattern), redraw := false }) ∧
  (∀ s : State, s.stack.getLast? = none ∨ s.stack.getLast? = some 0x0000#16 →
    exec .ret s = .next { s with
      stack := s.stack.dropLast, run := .faulted .emptyCallStackUnderflow
      outcome := some (.malformed .emptyStack), redraw := false }) ∧
  hostClass .emptyCallStackUnderflow = hostClass .invalidOpcode

/-- A poll cycle, scripted or not, fetches no instruction. With an edge, the least scanned key goes into V[wait_reg],
waiting ends and pc moves by 2; without one, nothing changes but the key vectors and the report. That the completion
is reported as Continue is the spec's decision D38, and the key snapshot its D18 (log 16). -/
def Obligations.PollCycleWaitsForAnEdge : Prop :=
  ∀ (s u : State) (keys : Keys), CycleBegins s keys u →
    s.loadResult ≠ some .romLoadFailure → s.run = .active → s.waiting = true →
    (∀ k, IsFirstEdge { s with keyCur := keys } k →
      ∃ t, step s = .next t ∧ Continues s t ∧ t.waiting = false ∧ (t.reg s.waitReg).toNat = k ∧
        (∀ r, r ≠ s.waitReg → t.reg r = s.reg r) ∧
        t = { u.withControlOf t with
          V := t.V, waiting := false, keyCur := keys, keyPrev := keys, started := true }) ∧
    (NoEdge { s with keyCur := keys } →
      step s = .next { u with
        keyCur := keys, keyPrev := keys, started := true
        outcome := some (.waitingForKey s.waitReg), redraw := false })

/-- Every cycle of an active run, scripted or not, instruction, poll or faulting, ends with the vector it was given in
key_cur and key_prev: the spec's decision D18 (log 16). -/
def Obligations.EveryActiveCycleTakesTheKeySnapshot : Prop :=
  ∀ (s t u : State) (keys : Keys), CycleBegins s keys u → s.run = .active → step s = .next t →
    t.keyCur = keys ∧ t.keyPrev = keys

/-- A cycle request in a stopped run, scripted or not, changes nothing; the redraw pulse of an earlier cycle is over.
That the keys are frozen too is the spec's decision D40 (log 16). -/
def Obligations.StoppedRunIgnoresCycles : Prop :=
  ∀ (s u : State) (keys : Keys), CycleBegins s keys u →
    s.loadResult ≠ some .romLoadFailure → s.run ≠ .active → step s = .next { u with redraw := false }

/-- Terminated and Faulted are permanent: no step from a stopped state that satisfies the invariant changes anything
but the timers, the environment's own fields and the redraw pulse. -/
def Obligations.StoppedIsPermanent : Prop :=
  ∀ s t : State, Inv s → s.run ≠ .active → step s = .next t →
    t = { s with
      delay := t.delay, sound := t.sound, pending := t.pending, inputCount := t.inputCount, redraw := t.redraw }

/-- A run ends well only by executing the word 0x0000, with pc at it. -/
def Obligations.OnlyTheHaltWordTerminates : Prop :=
  ∀ s t : State, step s = .next t → s.run ≠ .terminated → t.run = .terminated →
    s.fetchWord = some 0x0000#16 ∧ t.pc = s.pc ∧ t.outcome = some .terminate

/-! ## Invariants and whole-machine rules -/

/-- The state after construction satisfies the invariant, with this hardware's parameters and font and with all
others. -/
def Obligations.ResetSatisfiesTheInvariant : Prop :=
  Inv State.reset ∧ ∀ (params : Params) (font : Font), Inv (State.construct params font)

/-- Every step, scripted or not, keeps the invariant: canonical memory, pc at a fetchable address, stack entries as
CALL pushes them and within the limit, a wait only in an active run, no cycle after a failed load. -/
def Obligations.EveryStepKeepsTheInvariant : Prop :=
  ∀ s t : State, Inv s → step s = .next t → Inv t

/-- A step from a state that satisfies the invariant never faults: the fetch is always inside memory. -/
def Obligations.NoFaultFromTheInvariant : Prop :=
  ∀ (s : State) (f : Fault), Inv s → step s ≠ .fault f

/-- No step changes a parameter or the font that memory was constructed with (log 1: the model keeps them in State),
nor whether the host stops when the script is used up (log 3). -/
def Obligations.EveryStepKeepsTheParameters : Prop :=
  ∀ s t : State, step s = .next t → t.cfg = s.cfg ∧ t.mem.font = s.mem.font ∧ t.hostStopped = s.hostStopped

/-- An instruction that does not name a part of the state neither reads nor writes it: replacing that part before the
instruction is replacing it after. For I, the stack, memory, the timers, the keys and the screen. -/
def Obligations.ExecIgnoresWhatItDoesNotName : Prop :=
  ∀ (i : Instr) (s : State),
    (namesI i = false → ∀ v, exec i { s with I := v } = mapNext (fun t => { t with I := v }) (exec i s)) ∧
    (namesStack i = false →
      ∀ v, exec i { s with stack := v } = mapNext (fun t => { t with stack := v }) (exec i s)) ∧
    (namesMemory i = false → ∀ v, exec i { s with mem := v } = mapNext (fun t => { t with mem := v }) (exec i s)) ∧
    (namesDelay i = false →
      ∀ v, exec i { s with delay := v } = mapNext (fun t => { t with delay := v }) (exec i s)) ∧
    (namesSound i = false →
      ∀ v, exec i { s with sound := v } = mapNext (fun t => { t with sound := v }) (exec i s)) ∧
    (namesKeys i = false →
      ∀ v, exec i { s with keyCur := v } = mapNext (fun t => { t with keyCur := v }) (exec i s)) ∧
    (namesKeySnapshot i = false →
      ∀ v, exec i { s with keyPrev := v } = mapNext (fun t => { t with keyPrev := v }) (exec i s)) ∧
    (namesScreen i = false → ∀ v, exec i { s with fb := v } = mapNext (fun t => { t with fb := v }) (exec i s))

/-- A fault raised inside a handler comes before all its writes: nothing differs but run and the ports. The spec's
decision D20 (log 16). -/
def Obligations.HandlerFaultsWriteNothing : Prop :=
  ∀ (i : Instr) (s t : State) (k : FaultKind), exec i s = .next t → t.outcome = some (.fault k) → FaultsWith s t k

/-- Only CLS and a DRW whose sprite is in memory assert redraw, and they do so even when the pc movement then
faults. The spec's decision D35 (log 16). -/
def Obligations.OnlyClsAndDrwRedraw : Prop :=
  ∀ (i : Instr) (s t : State), exec i s = .next t →
    (t.redraw = true ↔
      i = .cls ∨ ∃ x y n, i = .drw x y n ∧ (n = 0 ∨ s.I.toNat + n.val - 1 < memSize))

/-- The earlier check decides: CALL at full depth faults StackOverflow even to 0xFFF, and DRW with a bad I at 0xFFE
faults MemoryBoundsViolation. The spec's decision D34 (log 16). -/
def Obligations.EarlierCheckDecidesTheFault : Prop :=
  (∀ (s : State) (n : Nat), s.cfg.stackLimit = some n → s.stack.length = n →
    ∃ t, exec (.call 0xFFF#12) s = .next t ∧ FaultsWith s t .stackOverflow) ∧
  (∀ (s : State) (x y : Reg) (n : Fin 16), s.pc.toNat = 0xFFE → 0 < n.val → memSize ≤ s.I.toNat + n.val - 1 →
    ∃ t, exec (.drw x y n) s = .next t ∧ FaultsWith s t .memoryBoundsViolation)

/-! ## Control flow -/

/-- HALT, 41_control_flow.md R180. -/
def Obligations.HaltTerminatesInPlace : Prop :=
  decode 0x0000#16 = .ok .halt ∧
  ∀ s : State, exec .halt s = .next { s with run := .terminated, outcome := some .terminate, redraw := false }

/-- SYS, 41_control_flow.md R181. -/
def Obligations.SysIsANoOp : Prop :=
  ∀ nnn : BitVec 12, nnn ≠ 0x000#12 → nnn ≠ 0x0E0#12 → nnn ≠ 0x0EE#12 →
    decode (encodeNnn 0x0#4 nnn) = .ok (.sys nnn) ∧
    ∀ s : State, ∃ t, exec (.sys nnn) s = .next t ∧ Continues s t ∧ OnlyControl s t

/-- RET pops the top entry and jumps to it; an empty stack, or a popped 0, is Malformed(EmptyStack). The popped 0 is
the spec's decision D39 (log 16). -/
def Obligations.RetJumpsToThePoppedAddress : Prop :=
  ∀ s : State,
    (∀ below r, s.stack = below ++ [r] → r ≠ 0x0000#16 →
      ∃ t, exec .ret s = .next t ∧ JumpsTo s t r.toNat ∧ t = { s.withControlOf t with stack := below }) ∧
    (∀ below, s.stack = below ++ [0x0000#16] →
      ∃ t, exec .ret s = .next t ∧ t.pc = s.pc ∧ t.run = .faulted .emptyCallStackUnderflow ∧
        t.outcome = some (.malformed .emptyStack) ∧ t = { s.withControlOf t with stack := below }) ∧
    (s.stack = [] →
      ∃ t, exec .ret s = .next t ∧ t.pc = s.pc ∧ t.run = .faulted .emptyCallStackUnderflow ∧
        t.outcome = some (.malformed .emptyStack) ∧ OnlyControl s t)

/-- JP and JP V0, 41_control_flow.md R183 and R186: the target of JP V0 is a natural, not wrapped. -/
def Obligations.JumpsGoToTheirTarget : Prop :=
  ∀ (nnn : BitVec 12) (s : State),
    (decode (encodeNnn 0x1#4 nnn) = .ok (.jp nnn) ∧
      ∃ t, exec (.jp nnn) s = .next t ∧ JumpsTo s t nnn.toNat ∧ OnlyControl s t) ∧
    (decode (encodeNnn 0xB#4 nnn) = .ok (.jpV0 nnn) ∧
      ∃ t, exec (.jpV0 nnn) s = .next t ∧ JumpsTo s t (nnn.toNat + (s.reg 0).toNat) ∧ OnlyControl s t)

/-- CALL, 41_control_flow.md R184: the return address pc + 2 is pushed before the target is checked; at a finite
`STACK_LIMIT` the call faults StackOverflow instead and pushes nothing (the limit is the spec's decision D16, log 15). -/
def Obligations.CallPushesTheReturnAddress : Prop :=
  ∀ (nnn : BitVec 12) (s : State), s.pc.toNat ≤ 0xFFE →
    decode (encodeNnn 0x2#4 nnn) = .ok (.call nnn) ∧
    (s.cfg.stackLimit ≠ some s.stack.length →
      ∃ t r, exec (.call nnn) s = .next t ∧ JumpsTo s t nnn.toNat ∧ r.toNat = s.pc.toNat + 2 ∧
        t = { s.withControlOf t with stack := s.stack ++ [r] }) ∧
    (s.cfg.stackLimit = some s.stack.length → ∃ t, exec (.call nnn) s = .next t ∧ FaultsWith s t .stackOverflow)

/-- The skips against an immediate, 41_control_flow.md R187 and R188. -/
def Obligations.ImmediateSkipsCompareTheRegister : Prop :=
  ∀ (x : Reg) (nn : Byte) (s : State),
    (decode (encodeXnn 0x3#4 x nn) = .ok (.seVxNn x nn) ∧
      ∃ t, exec (.seVxNn x nn) s = .next t ∧ OnlyControl s t ∧
        (s.reg x = nn → Skips s t) ∧ (s.reg x ≠ nn → Continues s t)) ∧
    (decode (encodeXnn 0x4#4 x nn) = .ok (.sneVxNn x nn) ∧
      ∃ t, exec (.sneVxNn x nn) s = .next t ∧ OnlyControl s t ∧
        (s.reg x ≠ nn → Skips s t) ∧ (s.reg x = nn → Continues s t))

/-- The skips between registers, 41_control_flow.md R189 and R190; the words with a low nibble other than 0 are
malformed. -/
def Obligations.RegisterSkipsCompareTheRegisters : Prop :=
  ∀ (x y : Reg) (s : State),
    (decode (encodeXyn 0x5#4 x y 0x0#4) = .ok (.seVxVy x y) ∧
      (∀ n, n ≠ 0x0#4 → decode (encodeXyn 0x5#4 x y n) = .error .noPattern) ∧
      ∃ t, exec (.seVxVy x y) s = .next t ∧ OnlyControl s t ∧
        (s.reg x = s.reg y → Skips s t) ∧ (s.reg x ≠ s.reg y → Continues s t)) ∧
    (decode (encodeXyn 0x9#4 x y 0x0#4) = .ok (.sneVxVy x y) ∧
      (∀ n, n ≠ 0x0#4 → decode (encodeXyn 0x9#4 x y n) = .error .noPattern) ∧
      ∃ t, exec (.sneVxVy x y) s = .next t ∧ OnlyControl s t ∧
        (s.reg x ≠ s.reg y → Skips s t) ∧ (s.reg x = s.reg y → Continues s t))

/-- N nested CALLs and then N RETs, with no stack limit, every target fetchable and every return address fetchable: the
stack is as before the first CALL, and pc is just after it. The return addresses are two past the first CALL and two
past every target but the last. -/
def Obligations.MatchedCallsReturnAfterTheFirstCall : Prop :=
  ∀ (targets : List (BitVec 12)) (s : State), targets ≠ [] → s.cfg.stackLimit = none → s.run = .active →
    s.pc.toNat + 2 ≤ 0xFFE → (∀ a ∈ targets, a.toNat ≤ 0xFFE) → (∀ a ∈ targets.dropLast, a.toNat + 2 ≤ 0xFFE) →
    ∃ t, execAll (targets.map Instr.call ++ List.replicate targets.length .ret) s = .next t ∧
      t.stack = s.stack ∧ t.pc.toNat = s.pc.toNat + 2 ∧ t.run = .active

/-! ## Registers and the ALU -/

/-- LD, OR, AND and XOR between registers, 42_alu.md R214 to R217: VF changes only as the destination. -/
def Obligations.CopyAndLogicWriteOnlyTheDestination : Prop :=
  ∀ (x y : Reg) (s : State),
    (decode (encodeXyn 0x8#4 x y 0x0#4) = .ok (.ldVxVy x y) ∧
      ∃ t, exec (.ldVxVy x y) s = .next t ∧ Continues s t ∧ OnlyRegs [x] s t ∧ t.reg x = s.reg y) ∧
    (decode (encodeXyn 0x8#4 x y 0x1#4) = .ok (.orVxVy x y) ∧
      ∃ t, exec (.orVxVy x y) s = .next t ∧ Continues s t ∧ OnlyRegs [x] s t ∧ t.reg x = s.reg x ||| s.reg y) ∧
    (decode (encodeXyn 0x8#4 x y 0x2#4) = .ok (.andVxVy x y) ∧
      ∃ t, exec (.andVxVy x y) s = .next t ∧ Continues s t ∧ OnlyRegs [x] s t ∧ t.reg x = s.reg x &&& s.reg y) ∧
    (decode (encodeXyn 0x8#4 x y 0x3#4) = .ok (.xorVxVy x y) ∧
      ∃ t, exec (.xorVxVy x y) s = .next t ∧ Continues s t ∧ OnlyRegs [x] s t ∧ t.reg x = s.reg x ^^^ s.reg y)

/-- ADD between registers, 42_alu.md R218: the sum mod 256 and the carry. Here and below, X = 15 follows `VF_ORDER`,
the spec's decision D8, and the group-8 nibbles are its general knowledge (log 12, log 16). -/
def Obligations.AddWritesSumAndCarry : Prop :=
  ∀ (x y : Reg) (s : State),
    decode (encodeXyn 0x8#4 x y 0x4#4) = .ok (.addVxVy x y) ∧
    ∃ t, exec (.addVxVy x y) s = .next t ∧ Continues s t ∧
      WritesResultAndFlag x (((s.reg x).toNat + (s.reg y).toNat) % 256)
        (if 256 ≤ (s.reg x).toNat + (s.reg y).toNat then 1 else 0) s t

/-- SUB and SUBN, 42_alu.md R219, R220, R222: the difference mod 256 and not-borrow. -/
def Obligations.SubtractionsWriteDifferenceAndNotBorrow : Prop :=
  ∀ (x y : Reg) (s : State),
    (decode (encodeXyn 0x8#4 x y 0x5#4) = .ok (.subVxVy x y) ∧
      ∃ t, exec (.subVxVy x y) s = .next t ∧ Continues s t ∧
        WritesResultAndFlag x (((s.reg x).toNat + 256 - (s.reg y).toNat) % 256)
          (if (s.reg x).toNat < (s.reg y).toNat then 0 else 1) s t) ∧
    (decode (encodeXyn 0x8#4 x y 0x7#4) = .ok (.subnVxVy x y) ∧
      ∃ t, exec (.subnVxVy x y) s = .next t ∧ Continues s t ∧
        WritesResultAndFlag x (((s.reg y).toNat + 256 - (s.reg x).toNat) % 256)
          (if (s.reg y).toNat < (s.reg x).toNat then 0 else 1) s t)

/-- SHR and SHL, 42_alu.md R221 and R223: V[X] is shifted by one, the bit shifted out is the flag, and Y is
ignored. -/
def Obligations.ShiftsWriteTheBitShiftedOut : Prop :=
  ∀ (x y : Reg) (s : State),
    (decode (encodeXyn 0x8#4 x y 0x6#4) = .ok (.shrVx x y) ∧
      ∃ t, exec (.shrVx x y) s = .next t ∧ Continues s t ∧
        WritesResultAndFlag x ((s.reg x).toNat / 2) ((s.reg x).toNat % 2) s t) ∧
    (decode (encodeXyn 0x8#4 x y 0xE#4) = .ok (.shlVx x y) ∧
      ∃ t, exec (.shlVx x y) s = .next t ∧ Continues s t ∧
        WritesResultAndFlag x ((s.reg x).toNat * 2 % 256) ((s.reg x).toNat / 128) s t)

/-- 6XNN and 7XNN, 42_alu.md R224 and R225: no flag is written, even when the sum wraps. -/
def Obligations.ImmediatesWriteNoFlag : Prop :=
  ∀ (x : Reg) (nn : Byte) (s : State),
    (decode (encodeXnn 0x6#4 x nn) = .ok (.ldVxNn x nn) ∧
      ∃ t, exec (.ldVxNn x nn) s = .next t ∧ Continues s t ∧ OnlyRegs [x] s t ∧ t.reg x = nn) ∧
    (decode (encodeXnn 0x7#4 x nn) = .ok (.addVxNn x nn) ∧
      ∃ t, exec (.addVxNn x nn) s = .next t ∧ Continues s t ∧ OnlyRegs [x] s t ∧
        (t.reg x).toNat = ((s.reg x).toNat + nn.toNat) % 256)

/-- RND masks the byte at the rand port, whichever it is, or a free byte when none is scripted; bits clear in NN are
clear in V[X]. The free draw is the spec's decision D23; how it stands in State is the model's choice (log 4). -/
def Obligations.RandomByteIsMasked : Prop :=
  ∀ (x : Reg) (nn : Byte) (s : State),
    ∃ t, exec (.rnd x nn) s = .next t ∧ Continues s t ∧
      t = { s.withControlOf t with V := t.V, rand := t.rand, drawCount := t.drawCount } ∧
      (∀ r, r ≠ x → t.reg r = s.reg r) ∧
      (∀ b rest, s.rand = b :: rest → t.reg x = b &&& nn ∧ t.rand = rest ∧ t.drawCount = s.drawCount) ∧
      (s.rand = [] → t.reg x = freeByte s.drawCount &&& nn ∧ t.rand = [] ∧ t.drawCount = s.drawCount + 1) ∧
      (∀ j, nn.getLsbD j = false → (t.reg x).getLsbD j = false)

/-! ## I and memory -/

/-- ANNN, FX1E and FX29, 43_index_memory.md R240, R243, R245: I is the only register written; FX1E wraps at 16
bits. -/
def Obligations.AddressRegisterIsLoadedAndAdjusted : Prop :=
  (∀ (nnn : BitVec 12) (s : State), decode (encodeNnn 0xA#4 nnn) = .ok (.ldINnn nnn) ∧
    ∃ t, exec (.ldINnn nnn) s = .next t ∧ Continues s t ∧ t.I.toNat = nnn.toNat ∧
      t = { s.withControlOf t with I := t.I }) ∧
  (∀ (x : Reg) (s : State), decode (encodeXnn 0xF#4 x 0x1E#8) = .ok (.addIVx x) ∧
    ∃ t, exec (.addIVx x) s = .next t ∧ Continues s t ∧
      t.I.toNat = (s.I.toNat + (s.reg x).toNat) % 65536 ∧ t = { s.withControlOf t with I := t.I }) ∧
  (∀ (x : Reg) (s : State), decode (encodeXnn 0xF#4 x 0x29#8) = .ok (.ldFVx x) ∧
    ∃ t, exec (.ldFVx x) s = .next t ∧ Continues s t ∧ t.I.toNat = (s.reg x).toNat * 5 ∧
      t = { s.withControlOf t with I := t.I })

/-- FX33, 43_index_memory.md R247: three decimal digits at I, I+1, I+2, every other byte of memory as before; when
I + 2 is outside memory, MemoryBoundsViolation and nothing written (the spec's decision D6, log 15). -/
def Obligations.BcdStoresThreeDigits : Prop :=
  ∀ (x : Reg) (s : State),
    decode (encodeXnn 0xF#4 x 0x33#8) = .ok (.ldBVx x) ∧
    (s.I.toNat + 2 < memSize →
      ∃ t, exec (.ldBVx x) s = .next t ∧ Continues s t ∧ t = { s.withControlOf t with mem := t.mem } ∧
        (t.mem.get (dataAddress s 0)).toNat = (s.reg x).toNat / 100 ∧
        (t.mem.get (dataAddress s 1)).toNat = (s.reg x).toNat / 10 % 10 ∧
        (t.mem.get (dataAddress s 2)).toNat = (s.reg x).toNat % 10 ∧
        MemoryKeptOutside (dataAddress s 0) 3 s t) ∧
    (memSize ≤ s.I.toNat + 2 → ∃ t, exec (.ldBVx x) s = .next t ∧ FaultsWith s t .memoryBoundsViolation)

/-- The BCD law: after FX33 the three stored bytes recompose V[X], each is at most 9, and the first at most 2. -/
def Obligations.BcdDigitsRecomposeTheByte : Prop :=
  ∀ (x : Reg) (s : State), s.I.toNat + 2 < memSize →
    ∃ t, exec (.ldBVx x) s = .next t ∧
      100 * (t.mem.get s.I.toNat).toNat + 10 * (t.mem.get (s.I.toNat + 1)).toNat +
        (t.mem.get (s.I.toNat + 2)).toNat = (s.reg x).toNat ∧
      (t.mem.get s.I.toNat).toNat ≤ 2 ∧ (t.mem.get (s.I.toNat + 1)).toNat ≤ 9 ∧
      (t.mem.get (s.I.toNat + 2)).toNat ≤ 9

/-- FX55, 43_index_memory.md R250: V0 to V[X] at I to I + X, every other byte of memory as before; I moves only when
`LOADSTORE_INCREMENTS_I`; outside memory, MemoryBoundsViolation and nothing written (the spec's decision D6, log 15). -/
def Obligations.BulkStoreWritesV0ToVx : Prop :=
  ∀ (x : Reg) (s : State),
    decode (encodeXnn 0xF#4 x 0x55#8) = .ok (.ldMemIVx x) ∧
    (s.I.toNat + x.val < memSize →
      ∃ t, exec (.ldMemIVx x) s = .next t ∧ Continues s t ∧
        t = { s.withControlOf t with mem := t.mem, I := t.I } ∧
        (s.cfg.loadStoreIncrementsI = false → t.I = s.I) ∧
        (s.cfg.loadStoreIncrementsI = true → t.I.toNat = (s.I.toNat + x.val + 1) % 65536) ∧
        (∀ k : Reg, k ≤ x → t.mem.get (dataAddress s k.val) = s.reg k) ∧
        MemoryKeptOutside (dataAddress s 0) (x.val + 1) s t) ∧
    (memSize ≤ s.I.toNat + x.val → ∃ t, exec (.ldMemIVx x) s = .next t ∧ FaultsWith s t .memoryBoundsViolation)

/-- FX65, 43_index_memory.md R252: V0 to V[X] from I to I + X, and no other register; memory is not written. -/
def Obligations.BulkLoadReadsV0ToVx : Prop :=
  ∀ (x : Reg) (s : State),
    decode (encodeXnn 0xF#4 x 0x65#8) = .ok (.ldVxMemI x) ∧
    (s.I.toNat + x.val < memSize →
      ∃ t, exec (.ldVxMemI x) s = .next t ∧ Continues s t ∧
        t = { s.withControlOf t with V := t.V, I := t.I } ∧
        (s.cfg.loadStoreIncrementsI = false → t.I = s.I) ∧
        (s.cfg.loadStoreIncrementsI = true → t.I.toNat = (s.I.toNat + x.val + 1) % 65536) ∧
        (∀ k : Reg, k ≤ x → t.reg k = s.mem.get (dataAddress s k.val)) ∧
        (∀ k : Reg, x < k → t.reg k = s.reg k)) ∧
    (memSize ≤ s.I.toNat + x.val → ∃ t, exec (.ldVxMemI x) s = .next t ∧ FaultsWith s t .memoryBoundsViolation)

/-- FX55 and a later FX65 with the same X and I restore V0 to V[X], whatever ran between them, if it left I and the
stored bytes alone; I is unchanged by both. -/
def Obligations.StoreThenLoadRestoresTheRegisters : Prop :=
  ∀ (x : Reg) (s u : State), s.cfg.loadStoreIncrementsI = false → u.cfg = s.cfg → s.I.toNat + x.val < memSize →
    ∃ t, exec (.ldMemIVx x) s = .next t ∧ t.I = s.I ∧
      (u.I = t.I → (∀ a, s.I.toNat ≤ a → a ≤ s.I.toNat + x.val → u.mem.get a = t.mem.get a) →
        ∃ w, exec (.ldVxMemI x) u = .next w ∧ w.I = u.I ∧ ∀ k : Reg, k ≤ x → w.reg k = s.reg k)

/-- What FX55 and FX33 store over the next instruction, wholly or in part and from whatever I, is what the next fetch
reads there; bytes they do not store to are read as before. -/
def Obligations.StoredWordIsFetchedNext : Prop :=
  ∀ (x : Reg) (s : State), s.pc.toNat + 2 ≤ 0xFFE →
    (s.I.toNat + x.val < memSize →
      ∃ t, exec (.ldMemIVx x) s = .next t ∧
        t.fetchWord = some (wordOfBytes
          (storedOver s s.I.toNat (s.V.toList.take (x.val + 1)) (s.pc.toNat + 2))
          (storedOver s s.I.toNat (s.V.toList.take (x.val + 1)) (s.pc.toNat + 3)))) ∧
    (s.I.toNat + 2 < memSize →
      ∃ t, exec (.ldBVx x) s = .next t ∧
        t.fetchWord = some (wordOfBytes
          (storedOver s s.I.toNat (digitsOf (s.reg x)) (s.pc.toNat + 2))
          (storedOver s s.I.toNat (digitsOf (s.reg x)) (s.pc.toNat + 3))))

/-- A ROM load: at most 3584 bytes are copied to 0x200 and counted, every other byte of memory as before; a longer
ROM or an I/O failure leaves memory unchanged; a second load is not offered, and after a failure no cycle is. The
details are the spec's decision D30; how the load stands in State is the model's choice (log 6). -/
def Obligations.RomLoadCopiesOrFails : Prop :=
  ∀ (s : State) (rom : Rom) (rest : List Move),
    (s.pending = .load rom :: rest → s.started = false → s.loadResult = none →
      (∀ b, rom = .bytes b → b.length ≤ 3584 →
        ∃ t, step s = .next t ∧ t.loadResult = some (.byteCount b.length) ∧
          t = { s with pending := rest, mem := t.mem, loadResult := t.loadResult } ∧
          (∀ j, j < b.length → t.mem.get (0x200 + j) = b.getD j 0x00#8) ∧ MemoryKeptOutside 0x200 b.length s t) ∧
      ((rom = .ioFailure ∨ ∃ b, rom = .bytes b ∧ 3584 < b.length) →
        step s = .next { s with pending := rest, loadResult := some .romLoadFailure })) ∧
    (s.pending = .load rom :: rest → s.started = true ∨ s.loadResult ≠ none → step s = .refused .loadNotOffered) ∧
    (∀ keys, s.pending = .cycle keys :: rest → s.loadResult = some .romLoadFailure →
      step s = .refused .cycleAfterRomLoadFailure)

/-! ## Display -/

/-- CLS, 44_display.md R270. -/
def Obligations.ClsClearsEveryCell : Prop :=
  decode 0x00E0#16 = .ok .cls ∧
  ∀ s : State, ∃ t, exec .cls s = .next t ∧ Redraws s t ∧ t = { s.withControlOf t with fb := t.fb } ∧
    ∀ x y, t.fb.cell x y = false

/-- DRW, 44_display.md R271: each cell that the sprite covers is toggled, every other cell stays; VF is 1 exactly
when a covered cell was set; a sprite that reaches outside memory faults with nothing written (the spec's
decision D6, log 15). -/
def Obligations.DrwTogglesTheCoveredCells : Prop :=
  ∀ (x y : Reg) (n : Fin 16) (s : State),
    decode (encodeXyn 0xD#4 x y (nibbleOf n)) = .ok (.drw x y n) ∧
    ((n.val = 0 ∨ s.I.toNat + n.val - 1 < memSize) →
      ∃ t, exec (.drw x y n) s = .next t ∧ Redraws s t ∧ t = { s.withControlOf t with V := t.V, fb := t.fb } ∧
        (∀ r, r ≠ VF → t.reg r = s.reg r) ∧
        (∀ cx cy, (SpriteCovers x y n.val s cx.val cy.val → t.fb.cell cx cy = !s.fb.cell cx cy) ∧
          (¬ SpriteCovers x y n.val s cx.val cy.val → t.fb.cell cx cy = s.fb.cell cx cy)) ∧
        ((∃ cx cy, SpriteCovers x y n.val s cx.val cy.val ∧ s.fb.cell cx cy = true) → t.reg VF = 0x01#8) ∧
        ((¬ ∃ cx cy, SpriteCovers x y n.val s cx.val cy.val ∧ s.fb.cell cx cy = true) → t.reg VF = 0x00#8)) ∧
    (0 < n.val → memSize ≤ s.I.toNat + n.val - 1 →
      ∃ t, exec (.drw x y n) s = .next t ∧ FaultsWith s t .memoryBoundsViolation)

/-- One sprite never touches the same cell twice, under any `SPRITE_WRAP`. -/
def Obligations.SpritePixelsLandOnDistinctCells : Prop :=
  ∀ (wrap : SpriteWrap) (x0 y0 r r' c c' : Nat) (p : Fin 64 × Fin 32), r < 15 → r' < 15 → c < 8 → c' < 8 →
    place wrap (x0 + c) (y0 + r) = some p → place wrap (x0 + c') (y0 + r') = some p → r = r' ∧ c = c'

/-- Drawing a sprite again at the same origin restores the screen, and the second draw collides exactly when some
covered cell was unset before the first one. So after a first draw without collision it collides exactly when the
sprite covers a cell, as the flag sentence of 44_display.md R279 says; where every covered cell was set, that
sentence, an inference of the spec, differs from R271 and R273, which are followed (log 21). X and Y other than 15: the first draw moves the origin of VF. -/
def Obligations.SecondDrawRestoresTheScreen : Prop :=
  ∀ (x y : Reg) (n : Fin 16) (s : State), x ≠ VF → y ≠ VF → (n.val = 0 ∨ s.I.toNat + n.val - 1 < memSize) →
    ∃ t u, exec (.drw x y n) s = .next t ∧ exec (.drw x y n) t = .next u ∧
      (∀ cx cy, u.fb.cell cx cy = s.fb.cell cx cy) ∧
      (u.reg VF = 0x01#8 ↔ ∃ cx cy, SpriteCovers x y n.val s cx.val cy.val ∧ s.fb.cell cx cy = false) ∧
      (t.reg VF = 0x00#8 →
        (u.reg VF = 0x01#8 ↔ ∃ (cx : Fin 64) (cy : Fin 32), SpriteCovers x y n.val s cx.val cy.val))

/-- The flag sentence of 44_display.md R279, a derived inference of the spec, read for every screen: the second draw
collides whenever the sprite covers a cell. It is expected to FAIL where every covered cell was already set before
the first draw, which clears them all (log 21). -/
def Obligations.SecondDrawAlwaysCollides : Prop :=
  ∀ (x y : Reg) (n : Fin 16) (s t u : State), x ≠ VF → y ≠ VF → (n.val = 0 ∨ s.I.toNat + n.val - 1 < memSize) →
    exec (.drw x y n) s = .next t → exec (.drw x y n) t = .next u →
    (∃ cx cy : Nat, SpriteCovers x y n.val s cx cy) → u.reg VF = 0x01#8

/-- The RGBA buffer has 8192 bytes; the four at a cell's offset are its colour, and the two colours differ. That the
colours are open is the spec's decision D25 (log 11). -/
def Obligations.RgbaBufferShowsTheScreen : Prop :=
  setRgba ≠ unsetRgba ∧
  ∀ s : State, s.rgbaBuffer.length = 8192 ∧
    ∀ (x : Fin 64) (y : Fin 32),
      (s.rgbaBuffer.drop ((x.val % 64 + y.val * 64) * 4)).take 4 =
        colourBytes (if s.fb.cell x y = true then setRgba else unsetRgba)

/-! ## Timers and keys -/

/-- FX07, FX15 and FX18, 45_timers_keys.md R300 to R302: one access to one counter. That each is one atomic access is
the spec's decision D37 (log 13). -/
def Obligations.TimerInstructionsAccessOneCounter : Prop :=
  ∀ (x : Reg) (s : State),
    (∃ t, exec (.ldVxDt x) s = .next t ∧ Continues s t ∧ OnlyRegs [x] s t ∧ t.reg x = s.delay) ∧
    (∃ t, exec (.ldDtVx x) s = .next t ∧ Continues s t ∧ t = { s.withControlOf t with delay := s.reg x }) ∧
    (∃ t, exec (.ldStVx x) s = .next t ∧ Continues s t ∧ t = { s.withControlOf t with sound := s.reg x })

/-- TickDelay and TickSound lower one positive counter by one, leave a counter at 0, and touch nothing else, in any
state, waiting and stopped ones too. The agent and its separate steps are the spec's decisions D21 and D22 (log 2,
log 16). -/
def Obligations.TimerStepsSaturateAtZero : Prop :=
  ∀ (s : State) (rest : List Move),
    (s.pending = .tickDelay :: rest →
      ∃ t, step s = .next t ∧ t.delay.toNat = s.delay.toNat - 1 ∧ t = { s with pending := rest, delay := t.delay }) ∧
    (s.pending = .tickSound :: rest →
      ∃ t, step s = .next t ∧ t.sound.toNat = s.sound.toNat - 1 ∧ t = { s with pending := rest, sound := t.sound })

/-- After `t` timer steps a counter that held `v` holds `max(0, v - t)`, and the free timer steps of an unscripted
cycle are such steps. -/
def Obligations.TicksLowerACounterToZero : Prop :=
  ∀ (v : Byte) (t : Nat), (Nat.iterate countDown t v).toNat = v.toNat - t ∧ countDownBy v t = Nat.iterate countDown t v

/-- A decrement that raced a write ends as if the tick had not happened or had come after the write. -/
def Obligations.RacedDecrementIsATickOrNothing : Prop :=
  ∀ seen now : Byte,
    (now ≠ seen → casDecrement seen now = now) ∧ (now = seen → casDecrement seen now = countDown now)

/-- SKP and SKNP, 45_timers_keys.md R303 and R304: the level of key V[X] in this cycle; an index above 15 faults
KeyIndexOutOfRange (the spec's decision D12, log 15). -/
def Obligations.KeySkipsTestTheLevel : Prop :=
  ∀ (x : Reg) (s : State),
    decode (encodeXnn 0xE#4 x 0x9E#8) = .ok (.skp x) ∧ decode (encodeXnn 0xE#4 x 0xA1#8) = .ok (.sknp x) ∧
    ((s.reg x).toNat ≤ 15 →
      (∃ t, exec (.skp x) s = .next t ∧ OnlyControl s t ∧
        (keyDown s.keyCur (s.reg x).toNat = true → Skips s t) ∧
        (keyDown s.keyCur (s.reg x).toNat = false → Continues s t)) ∧
      (∃ t, exec (.sknp x) s = .next t ∧ OnlyControl s t ∧
        (keyDown s.keyCur (s.reg x).toNat = false → Skips s t) ∧
        (keyDown s.keyCur (s.reg x).toNat = true → Continues s t))) ∧
    (15 < (s.reg x).toNat →
      (∃ t, exec (.skp x) s = .next t ∧ FaultsWith s t .keyIndexOutOfRange) ∧
      (∃ t, exec (.sknp x) s = .next t ∧ FaultsWith s t .keyIndexOutOfRange))

/-- FX0A, 45_timers_keys.md R310: an edge in its own cycle stores the least scanned key and continues; otherwise the
wait begins with pc unchanged. -/
def Obligations.KeyWaitStoresTheLeastEdge : Prop :=
  ∀ (x : Reg) (s : State),
    decode (encodeXnn 0xF#4 x 0x0A#8) = .ok (.ldVxK x) ∧
    (∀ k, IsFirstEdge s k →
      ∃ t, exec (.ldVxK x) s = .next t ∧ Continues s t ∧ OnlyRegs [x] s t ∧ (t.reg x).toNat = k) ∧
    (NoEdge s →
      exec (.ldVxK x) s = .next { s with
        waiting := true, waitReg := x, outcome := some (.waitingForKey x), redraw := false })

/-- In an infinite execution that is fair to the timers and stays stopped from some point on, both counters reach 0.
Fairness is a premise (log 17), over scripted and free timer steps (log 3); the agent is the spec's decision D21. -/
def Obligations.FairTimersRunDownAfterTheRunStops : Prop :=
  ∀ (f : Nat → State) (n : Nat), IsRun f → FairTimers f → (∀ m, n ≤ m → (f m).run ≠ .active) →
    (∃ m, n ≤ m ∧ (f m).delay = 0x00#8) ∧ (∃ m, n ≤ m ∧ (f m).sound = 0x00#8)

/-! ## The host -/

/-- The host may stop requesting cycles: once it has, an unscripted step is timer steps alone, and after a
point from which no cycle is requested, in a run that has started, only the counters and the environment's own fields
change. How the host's choice stands in State is the model's choice (log 2, log 3). -/
def Obligations.WithoutCycleRequestsOnlyTimersRun : Prop :=
  (∀ s : State, s.pending = [] → s.hostStopped = true →
    step s = .next { s with
      delay := countDownBy s.delay (freeDelayTicks s.inputCount)
      sound := countDownBy s.sound (freeSoundTicks s.inputCount)
      inputCount := s.inputCount + 1 }) ∧
  (∀ (f : Nat → State) (n : Nat), IsRun f → (f n).started = true → (∀ m, n ≤ m → ¬ RequestsCycle (f m)) →
    ∀ m, n ≤ m → f m = { f n with
      delay := (f m).delay, sound := (f m).sound, pending := (f m).pending, inputCount := (f m).inputCount })

/-- A run that stands at the word 0x0000 ends well, if the host keeps requesting cycles. That premise is no duty of
the host (60_exceptions.md R368). -/
def Obligations.HaltIsReachedIfTheHostKeepsRequesting : Prop :=
  ∀ f : Nat → State, IsRun f → HostKeepsRequesting f → (f 0).started = true → (f 0).run = .active →
    (f 0).waiting = false → (f 0).fetchWord = some 0x0000#16 → ∃ n, EndedWell (f n) ∧ (f n).pc = (f 0).pc

/-- The codes and signals that the host reads: the run codes and fields of the status port, the fault kinds, the
outcome codes, the fault classes and the tone. The codes are the spec's decision D27 and the tone its D36 (log 16). -/
def Obligations.HostCodesAreThoseOfTheTables : Prop :=
  (∀ s : State, s.status.waiting = (if s.waiting = true then 1#1 else 0#1) ∧
    s.status.waitReg.toNat = s.waitReg.val ∧
    (s.run = .active → s.status.run = 0#2 ∧ s.status.faultKind = 0#3) ∧
    (s.run = .terminated → s.status.run = 1#2 ∧ s.status.faultKind = 0#3) ∧
    (∀ k, s.run = .faulted k → s.status.run = 2#2 ∧ s.status.faultKind = faultCode k) ∧
    (s.toneOn = true ↔ s.sound ≠ 0x00#8)) ∧
  (faultCode .invalidOpcode = 1#3 ∧ faultCode .addressBoundsViolation = 2#3 ∧
    faultCode .emptyCallStackUnderflow = 3#3 ∧ faultCode .memoryBoundsViolation = 4#3 ∧
    faultCode .keyIndexOutOfRange = 5#3 ∧ faultCode .stackOverflow = 6#3) ∧
  (outcomeCode .continueNext = 0#3 ∧ outcomeCode .skipNext = 1#3 ∧ (∀ a, outcomeCode (.jump a) = 2#3) ∧
    outcomeCode .terminate = 3#3 ∧ (∀ c, outcomeCode (.malformed c) = 4#3) ∧ outcomeCode .requestRedraw = 5#3 ∧
    (∀ x, outcomeCode (.waitingForKey x) = 6#3) ∧ ∀ k, outcomeCode (.fault k) = 7#3) ∧
  (hostClass .invalidOpcode = some .invalidOpcode ∧
    hostClass .addressBoundsViolation = some .addressBoundsViolation ∧
    hostClass .emptyCallStackUnderflow = some .invalidOpcode ∧ hostClass .memoryBoundsViolation = none ∧
    hostClass .keyIndexOutOfRange = none ∧ hostClass .stackOverflow = none)
end

