-- ==== Sys2Proof/Laws/Decode.lean ====
section
/-! SUPPORT. The fields of an encoded word, format by format (30_encoding.md R102, R103), and immediates of the
assembler. -/

namespace Sys2Proof.Laws

/-! ## Slices of joined bit vectors -/

theorem extract_low {a b : Nat} (hi : BitVec a) (lo : BitVec b) (s n : Nat) (h : s + n ≤ b) :
    (hi ++ lo).extractLsb' s n = lo.extractLsb' s n := by
  ext i hi'
  simp only [BitVec.getElem_extractLsb', BitVec.getLsbD_append]
  rw [if_pos (by omega)]

theorem extract_high {a b : Nat} (hi : BitVec a) (lo : BitVec b) (s n : Nat) (h : b ≤ s) :
    (hi ++ lo).extractLsb' s n = hi.extractLsb' (s - b) n := by
  ext i hi'
  simp only [BitVec.getElem_extractLsb', BitVec.getLsbD_append]
  rw [if_neg (by omega)]
  congr 1
  omega

theorem extract_all {a : Nat} (x : BitVec a) : x.extractLsb' 0 a = x := by
  ext i hi
  simp

@[simp] theorem toFin_nibbleOf (r : Fin 16) : (nibbleOf r).toFin = r := rfl

/-! ## Format NNN -/

@[simp] theorem full_fieldsOf (w : Word) : (fieldsOf w).full = w := rfl

@[simp] theorem nibble4_encodeNnn (op : BitVec 4) (nnn : BitVec 12) : (fieldsOf (encodeNnn op nnn)).nibble4 = op := by
  simp only [fieldsOf, encodeNnn]
  rw [extract_high _ _ _ _ (by decide), extract_all]

@[simp] theorem NNN_encodeNnn (op : BitVec 4) (nnn : BitVec 12) : (fieldsOf (encodeNnn op nnn)).NNN = nnn := by
  simp only [fieldsOf, encodeNnn]
  rw [extract_low _ _ _ _ (by decide), extract_all]

/-! ## Formats XNN and X -/

@[simp] theorem nibble4_encodeXnn (op : BitVec 4) (x : Reg) (nn : Byte) : (fieldsOf (encodeXnn op x nn)).nibble4 = op := by
  simp only [fieldsOf, encodeXnn]
  rw [extract_high _ _ _ _ (by decide), extract_all]

@[simp] theorem X_encodeXnn (op : BitVec 4) (x : Reg) (nn : Byte) : (fieldsOf (encodeXnn op x nn)).X = x := by
  simp only [fieldsOf, encodeXnn]
  rw [extract_low op (nibbleOf x ++ nn) 8 4 (by decide), extract_high (nibbleOf x) nn 8 4 (by decide), extract_all]
  rfl

@[simp] theorem rightByte_encodeXnn (op : BitVec 4) (x : Reg) (nn : Byte) :
    (fieldsOf (encodeXnn op x nn)).rightByte = nn := by
  simp only [fieldsOf, encodeXnn]
  rw [extract_low op (nibbleOf x ++ nn) 0 8 (by decide), extract_low (nibbleOf x) nn 0 8 (by decide), extract_all]

/-! ## Formats XY and XYN -/

@[simp] theorem nibble4_encodeXyn (op : BitVec 4) (x y : Reg) (n : BitVec 4) :
    (fieldsOf (encodeXyn op x y n)).nibble4 = op := by
  simp only [fieldsOf, encodeXyn]
  rw [extract_high _ _ _ _ (by decide), extract_all]

@[simp] theorem X_encodeXyn (op : BitVec 4) (x y : Reg) (n : BitVec 4) : (fieldsOf (encodeXyn op x y n)).X = x := by
  simp only [fieldsOf, encodeXyn]
  rw [extract_low op (nibbleOf x ++ (nibbleOf y ++ n)) 8 4 (by decide),
    extract_high (nibbleOf x) (nibbleOf y ++ n) 8 4 (by decide), extract_all]
  rfl

@[simp] theorem Y_encodeXyn (op : BitVec 4) (x y : Reg) (n : BitVec 4) : (fieldsOf (encodeXyn op x y n)).Y = y := by
  simp only [fieldsOf, encodeXyn]
  rw [extract_low op (nibbleOf x ++ (nibbleOf y ++ n)) 4 4 (by decide),
    extract_low (nibbleOf x) (nibbleOf y ++ n) 4 4 (by decide), extract_high (nibbleOf y) n 4 4 (by decide), extract_all]
  rfl

@[simp] theorem nibble1_encodeXyn (op : BitVec 4) (x y : Reg) (n : BitVec 4) :
    (fieldsOf (encodeXyn op x y n)).nibble1 = n := by
  simp only [fieldsOf, encodeXyn]
  rw [extract_low op (nibbleOf x ++ (nibbleOf y ++ n)) 0 4 (by decide),
    extract_low (nibbleOf x) (nibbleOf y ++ n) 0 4 (by decide), extract_low (nibbleOf y) n 0 4 (by decide), extract_all]

/-! ## Words put together again from their fields -/

/-- A word is its high nibble before its low 12 bits. -/
theorem encodeNnn_fieldsOf (w : Word) : encodeNnn (fieldsOf w).nibble4 (fieldsOf w).NNN = w := by
  simp only [encodeNnn, fieldsOf]
  exact BitVec.extractLsb'_append_extractLsb'_eq_extractLsb' (by decide) |>.trans (extract_all w)

/-! ## The assembler -/

@[simp] theorem immOf_toNat {w : Nat} (v : BitVec w) : Machine.immOf w v.toNat = some v := by
  simp [Machine.immOf, v.isLt]

end Sys2Proof.Laws
end

