-- ==== Sys2Proof/Laws/State.lean ====
section
/-! SUPPORT. One lemma per field per update of State: what each operation leaves alone, and what it writes where that
is one expression. -/

namespace Sys2Proof.Laws

open Sys2Proof.Machine

/-! ### setReg -/

@[simp] theorem setReg_I (s : State) (r : Reg) (v : Byte) : (s.setReg r v).I = s.I := rfl
@[simp] theorem setReg_pc (s : State) (r : Reg) (v : Byte) : (s.setReg r v).pc = s.pc := rfl
@[simp] theorem setReg_stack (s : State) (r : Reg) (v : Byte) : (s.setReg r v).stack = s.stack := rfl
@[simp] theorem setReg_mem (s : State) (r : Reg) (v : Byte) : (s.setReg r v).mem = s.mem := rfl
@[simp] theorem setReg_delay (s : State) (r : Reg) (v : Byte) : (s.setReg r v).delay = s.delay := rfl
@[simp] theorem setReg_sound (s : State) (r : Reg) (v : Byte) : (s.setReg r v).sound = s.sound := rfl
@[simp] theorem setReg_keyCur (s : State) (r : Reg) (v : Byte) : (s.setReg r v).keyCur = s.keyCur := rfl
@[simp] theorem setReg_keyPrev (s : State) (r : Reg) (v : Byte) : (s.setReg r v).keyPrev = s.keyPrev := rfl
@[simp] theorem setReg_fb (s : State) (r : Reg) (v : Byte) : (s.setReg r v).fb = s.fb := rfl
@[simp] theorem setReg_waiting (s : State) (r : Reg) (v : Byte) : (s.setReg r v).waiting = s.waiting := rfl
@[simp] theorem setReg_waitReg (s : State) (r : Reg) (v : Byte) : (s.setReg r v).waitReg = s.waitReg := rfl
@[simp] theorem setReg_run (s : State) (r : Reg) (v : Byte) : (s.setReg r v).run = s.run := rfl
@[simp] theorem setReg_cfg (s : State) (r : Reg) (v : Byte) : (s.setReg r v).cfg = s.cfg := rfl
@[simp] theorem setReg_pending (s : State) (r : Reg) (v : Byte) : (s.setReg r v).pending = s.pending := rfl
@[simp] theorem setReg_hostStopped (s : State) (r : Reg) (v : Byte) : (s.setReg r v).hostStopped = s.hostStopped := rfl
@[simp] theorem setReg_inputCount (s : State) (r : Reg) (v : Byte) : (s.setReg r v).inputCount = s.inputCount := rfl
@[simp] theorem setReg_rand (s : State) (r : Reg) (v : Byte) : (s.setReg r v).rand = s.rand := rfl
@[simp] theorem setReg_drawCount (s : State) (r : Reg) (v : Byte) : (s.setReg r v).drawCount = s.drawCount := rfl
@[simp] theorem setReg_started (s : State) (r : Reg) (v : Byte) : (s.setReg r v).started = s.started := rfl
@[simp] theorem setReg_loadResult (s : State) (r : Reg) (v : Byte) : (s.setReg r v).loadResult = s.loadResult := rfl
@[simp] theorem setReg_outcome (s : State) (r : Reg) (v : Byte) : (s.setReg r v).outcome = s.outcome := rfl
@[simp] theorem setReg_redraw (s : State) (r : Reg) (v : Byte) : (s.setReg r v).redraw = s.redraw := rfl

/-! ### setI -/

@[simp] theorem setI_V (s : State) (v : Nat) : (s.setI v).V = s.V := rfl
@[simp] theorem setI_pc (s : State) (v : Nat) : (s.setI v).pc = s.pc := rfl
@[simp] theorem setI_stack (s : State) (v : Nat) : (s.setI v).stack = s.stack := rfl
@[simp] theorem setI_mem (s : State) (v : Nat) : (s.setI v).mem = s.mem := rfl
@[simp] theorem setI_delay (s : State) (v : Nat) : (s.setI v).delay = s.delay := rfl
@[simp] theorem setI_sound (s : State) (v : Nat) : (s.setI v).sound = s.sound := rfl
@[simp] theorem setI_keyCur (s : State) (v : Nat) : (s.setI v).keyCur = s.keyCur := rfl
@[simp] theorem setI_keyPrev (s : State) (v : Nat) : (s.setI v).keyPrev = s.keyPrev := rfl
@[simp] theorem setI_fb (s : State) (v : Nat) : (s.setI v).fb = s.fb := rfl
@[simp] theorem setI_waiting (s : State) (v : Nat) : (s.setI v).waiting = s.waiting := rfl
@[simp] theorem setI_waitReg (s : State) (v : Nat) : (s.setI v).waitReg = s.waitReg := rfl
@[simp] theorem setI_run (s : State) (v : Nat) : (s.setI v).run = s.run := rfl
@[simp] theorem setI_cfg (s : State) (v : Nat) : (s.setI v).cfg = s.cfg := rfl
@[simp] theorem setI_pending (s : State) (v : Nat) : (s.setI v).pending = s.pending := rfl
@[simp] theorem setI_hostStopped (s : State) (v : Nat) : (s.setI v).hostStopped = s.hostStopped := rfl
@[simp] theorem setI_inputCount (s : State) (v : Nat) : (s.setI v).inputCount = s.inputCount := rfl
@[simp] theorem setI_rand (s : State) (v : Nat) : (s.setI v).rand = s.rand := rfl
@[simp] theorem setI_drawCount (s : State) (v : Nat) : (s.setI v).drawCount = s.drawCount := rfl
@[simp] theorem setI_started (s : State) (v : Nat) : (s.setI v).started = s.started := rfl
@[simp] theorem setI_loadResult (s : State) (v : Nat) : (s.setI v).loadResult = s.loadResult := rfl
@[simp] theorem setI_outcome (s : State) (v : Nat) : (s.setI v).outcome = s.outcome := rfl
@[simp] theorem setI_redraw (s : State) (v : Nat) : (s.setI v).redraw = s.redraw := rfl
@[simp] theorem setI_I (s : State) (v : Nat) : (s.setI v).I = BitVec.ofNat 16 v := rfl

/-! ### push -/

@[simp] theorem push_V (s : State) (v : Word) : (s.push v).V = s.V := rfl
@[simp] theorem push_I (s : State) (v : Word) : (s.push v).I = s.I := rfl
@[simp] theorem push_pc (s : State) (v : Word) : (s.push v).pc = s.pc := rfl
@[simp] theorem push_mem (s : State) (v : Word) : (s.push v).mem = s.mem := rfl
@[simp] theorem push_delay (s : State) (v : Word) : (s.push v).delay = s.delay := rfl
@[simp] theorem push_sound (s : State) (v : Word) : (s.push v).sound = s.sound := rfl
@[simp] theorem push_keyCur (s : State) (v : Word) : (s.push v).keyCur = s.keyCur := rfl
@[simp] theorem push_keyPrev (s : State) (v : Word) : (s.push v).keyPrev = s.keyPrev := rfl
@[simp] theorem push_fb (s : State) (v : Word) : (s.push v).fb = s.fb := rfl
@[simp] theorem push_waiting (s : State) (v : Word) : (s.push v).waiting = s.waiting := rfl
@[simp] theorem push_waitReg (s : State) (v : Word) : (s.push v).waitReg = s.waitReg := rfl
@[simp] theorem push_run (s : State) (v : Word) : (s.push v).run = s.run := rfl
@[simp] theorem push_cfg (s : State) (v : Word) : (s.push v).cfg = s.cfg := rfl
@[simp] theorem push_pending (s : State) (v : Word) : (s.push v).pending = s.pending := rfl
@[simp] theorem push_hostStopped (s : State) (v : Word) : (s.push v).hostStopped = s.hostStopped := rfl
@[simp] theorem push_inputCount (s : State) (v : Word) : (s.push v).inputCount = s.inputCount := rfl
@[simp] theorem push_rand (s : State) (v : Word) : (s.push v).rand = s.rand := rfl
@[simp] theorem push_drawCount (s : State) (v : Word) : (s.push v).drawCount = s.drawCount := rfl
@[simp] theorem push_started (s : State) (v : Word) : (s.push v).started = s.started := rfl
@[simp] theorem push_loadResult (s : State) (v : Word) : (s.push v).loadResult = s.loadResult := rfl
@[simp] theorem push_outcome (s : State) (v : Word) : (s.push v).outcome = s.outcome := rfl
@[simp] theorem push_redraw (s : State) (v : Word) : (s.push v).redraw = s.redraw := rfl
@[simp] theorem push_stack (s : State) (v : Word) : (s.push v).stack = s.stack ++ [v] := rfl

/-! ### pop -/

@[simp] theorem pop_V (s : State) : (s.pop.2).V = s.V := rfl
@[simp] theorem pop_I (s : State) : (s.pop.2).I = s.I := rfl
@[simp] theorem pop_pc (s : State) : (s.pop.2).pc = s.pc := rfl
@[simp] theorem pop_mem (s : State) : (s.pop.2).mem = s.mem := rfl
@[simp] theorem pop_delay (s : State) : (s.pop.2).delay = s.delay := rfl
@[simp] theorem pop_sound (s : State) : (s.pop.2).sound = s.sound := rfl
@[simp] theorem pop_keyCur (s : State) : (s.pop.2).keyCur = s.keyCur := rfl
@[simp] theorem pop_keyPrev (s : State) : (s.pop.2).keyPrev = s.keyPrev := rfl
@[simp] theorem pop_fb (s : State) : (s.pop.2).fb = s.fb := rfl
@[simp] theorem pop_waiting (s : State) : (s.pop.2).waiting = s.waiting := rfl
@[simp] theorem pop_waitReg (s : State) : (s.pop.2).waitReg = s.waitReg := rfl
@[simp] theorem pop_run (s : State) : (s.pop.2).run = s.run := rfl
@[simp] theorem pop_cfg (s : State) : (s.pop.2).cfg = s.cfg := rfl
@[simp] theorem pop_pending (s : State) : (s.pop.2).pending = s.pending := rfl
@[simp] theorem pop_hostStopped (s : State) : (s.pop.2).hostStopped = s.hostStopped := rfl
@[simp] theorem pop_inputCount (s : State) : (s.pop.2).inputCount = s.inputCount := rfl
@[simp] theorem pop_rand (s : State) : (s.pop.2).rand = s.rand := rfl
@[simp] theorem pop_drawCount (s : State) : (s.pop.2).drawCount = s.drawCount := rfl
@[simp] theorem pop_started (s : State) : (s.pop.2).started = s.started := rfl
@[simp] theorem pop_loadResult (s : State) : (s.pop.2).loadResult = s.loadResult := rfl
@[simp] theorem pop_outcome (s : State) : (s.pop.2).outcome = s.outcome := rfl
@[simp] theorem pop_redraw (s : State) : (s.pop.2).redraw = s.redraw := rfl
@[simp] theorem pop_stack (s : State) : s.pop.2.stack = s.stack.dropLast := rfl

/-! ### takeFault -/

@[simp] theorem takeFault_V (s : State) (k : FaultKind) : (s.takeFault k).V = s.V := rfl
@[simp] theorem takeFault_I (s : State) (k : FaultKind) : (s.takeFault k).I = s.I := rfl
@[simp] theorem takeFault_pc (s : State) (k : FaultKind) : (s.takeFault k).pc = s.pc := rfl
@[simp] theorem takeFault_stack (s : State) (k : FaultKind) : (s.takeFault k).stack = s.stack := rfl
@[simp] theorem takeFault_mem (s : State) (k : FaultKind) : (s.takeFault k).mem = s.mem := rfl
@[simp] theorem takeFault_delay (s : State) (k : FaultKind) : (s.takeFault k).delay = s.delay := rfl
@[simp] theorem takeFault_sound (s : State) (k : FaultKind) : (s.takeFault k).sound = s.sound := rfl
@[simp] theorem takeFault_keyCur (s : State) (k : FaultKind) : (s.takeFault k).keyCur = s.keyCur := rfl
@[simp] theorem takeFault_keyPrev (s : State) (k : FaultKind) : (s.takeFault k).keyPrev = s.keyPrev := rfl
@[simp] theorem takeFault_fb (s : State) (k : FaultKind) : (s.takeFault k).fb = s.fb := rfl
@[simp] theorem takeFault_waiting (s : State) (k : FaultKind) : (s.takeFault k).waiting = s.waiting := rfl
@[simp] theorem takeFault_waitReg (s : State) (k : FaultKind) : (s.takeFault k).waitReg = s.waitReg := rfl
@[simp] theorem takeFault_cfg (s : State) (k : FaultKind) : (s.takeFault k).cfg = s.cfg := rfl
@[simp] theorem takeFault_pending (s : State) (k : FaultKind) : (s.takeFault k).pending = s.pending := rfl
@[simp] theorem takeFault_hostStopped (s : State) (k : FaultKind) : (s.takeFault k).hostStopped = s.hostStopped := rfl
@[simp] theorem takeFault_inputCount (s : State) (k : FaultKind) : (s.takeFault k).inputCount = s.inputCount := rfl
@[simp] theorem takeFault_rand (s : State) (k : FaultKind) : (s.takeFault k).rand = s.rand := rfl
@[simp] theorem takeFault_drawCount (s : State) (k : FaultKind) : (s.takeFault k).drawCount = s.drawCount := rfl
@[simp] theorem takeFault_started (s : State) (k : FaultKind) : (s.takeFault k).started = s.started := rfl
@[simp] theorem takeFault_loadResult (s : State) (k : FaultKind) : (s.takeFault k).loadResult = s.loadResult := rfl
@[simp] theorem takeFault_outcome (s : State) (k : FaultKind) : (s.takeFault k).outcome = s.outcome := rfl
@[simp] theorem takeFault_redraw (s : State) (k : FaultKind) : (s.takeFault k).redraw = s.redraw := rfl
@[simp] theorem takeFault_run (s : State) (k : FaultKind) : (s.takeFault k).run = .faulted k := rfl

/-! ### advance -/

@[simp] theorem advance_V (s : State) (t : Nat) : (s.advance t).V = s.V := by unfold State.advance; split <;> rfl
@[simp] theorem advance_I (s : State) (t : Nat) : (s.advance t).I = s.I := by unfold State.advance; split <;> rfl
@[simp] theorem advance_stack (s : State) (t : Nat) : (s.advance t).stack = s.stack := by unfold State.advance; split <;> rfl
@[simp] theorem advance_mem (s : State) (t : Nat) : (s.advance t).mem = s.mem := by unfold State.advance; split <;> rfl
@[simp] theorem advance_delay (s : State) (t : Nat) : (s.advance t).delay = s.delay := by unfold State.advance; split <;> rfl
@[simp] theorem advance_sound (s : State) (t : Nat) : (s.advance t).sound = s.sound := by unfold State.advance; split <;> rfl
@[simp] theorem advance_keyCur (s : State) (t : Nat) : (s.advance t).keyCur = s.keyCur := by unfold State.advance; split <;> rfl
@[simp] theorem advance_keyPrev (s : State) (t : Nat) : (s.advance t).keyPrev = s.keyPrev := by unfold State.advance; split <;> rfl
@[simp] theorem advance_fb (s : State) (t : Nat) : (s.advance t).fb = s.fb := by unfold State.advance; split <;> rfl
@[simp] theorem advance_waiting (s : State) (t : Nat) : (s.advance t).waiting = s.waiting := by unfold State.advance; split <;> rfl
@[simp] theorem advance_waitReg (s : State) (t : Nat) : (s.advance t).waitReg = s.waitReg := by unfold State.advance; split <;> rfl
@[simp] theorem advance_cfg (s : State) (t : Nat) : (s.advance t).cfg = s.cfg := by unfold State.advance; split <;> rfl
@[simp] theorem advance_pending (s : State) (t : Nat) : (s.advance t).pending = s.pending := by unfold State.advance; split <;> rfl
@[simp] theorem advance_hostStopped (s : State) (t : Nat) : (s.advance t).hostStopped = s.hostStopped := by unfold State.advance; split <;> rfl
@[simp] theorem advance_inputCount (s : State) (t : Nat) : (s.advance t).inputCount = s.inputCount := by unfold State.advance; split <;> rfl
@[simp] theorem advance_rand (s : State) (t : Nat) : (s.advance t).rand = s.rand := by unfold State.advance; split <;> rfl
@[simp] theorem advance_drawCount (s : State) (t : Nat) : (s.advance t).drawCount = s.drawCount := by unfold State.advance; split <;> rfl
@[simp] theorem advance_started (s : State) (t : Nat) : (s.advance t).started = s.started := by unfold State.advance; split <;> rfl
@[simp] theorem advance_loadResult (s : State) (t : Nat) : (s.advance t).loadResult = s.loadResult := by unfold State.advance; split <;> rfl
@[simp] theorem advance_outcome (s : State) (t : Nat) : (s.advance t).outcome = s.outcome := by unfold State.advance; split <;> rfl
@[simp] theorem advance_redraw (s : State) (t : Nat) : (s.advance t).redraw = s.redraw := by unfold State.advance; split <;> rfl

/-! ### report -/

@[simp] theorem report_V (s : State) (o : CycleOutcome) : (s.report o).V = s.V := rfl
@[simp] theorem report_I (s : State) (o : CycleOutcome) : (s.report o).I = s.I := rfl
@[simp] theorem report_pc (s : State) (o : CycleOutcome) : (s.report o).pc = s.pc := rfl
@[simp] theorem report_stack (s : State) (o : CycleOutcome) : (s.report o).stack = s.stack := rfl
@[simp] theorem report_mem (s : State) (o : CycleOutcome) : (s.report o).mem = s.mem := rfl
@[simp] theorem report_delay (s : State) (o : CycleOutcome) : (s.report o).delay = s.delay := rfl
@[simp] theorem report_sound (s : State) (o : CycleOutcome) : (s.report o).sound = s.sound := rfl
@[simp] theorem report_keyCur (s : State) (o : CycleOutcome) : (s.report o).keyCur = s.keyCur := rfl
@[simp] theorem report_keyPrev (s : State) (o : CycleOutcome) : (s.report o).keyPrev = s.keyPrev := rfl
@[simp] theorem report_fb (s : State) (o : CycleOutcome) : (s.report o).fb = s.fb := rfl
@[simp] theorem report_waiting (s : State) (o : CycleOutcome) : (s.report o).waiting = s.waiting := rfl
@[simp] theorem report_waitReg (s : State) (o : CycleOutcome) : (s.report o).waitReg = s.waitReg := rfl
@[simp] theorem report_run (s : State) (o : CycleOutcome) : (s.report o).run = s.run := rfl
@[simp] theorem report_cfg (s : State) (o : CycleOutcome) : (s.report o).cfg = s.cfg := rfl
@[simp] theorem report_pending (s : State) (o : CycleOutcome) : (s.report o).pending = s.pending := rfl
@[simp] theorem report_hostStopped (s : State) (o : CycleOutcome) : (s.report o).hostStopped = s.hostStopped := rfl
@[simp] theorem report_inputCount (s : State) (o : CycleOutcome) : (s.report o).inputCount = s.inputCount := rfl
@[simp] theorem report_rand (s : State) (o : CycleOutcome) : (s.report o).rand = s.rand := rfl
@[simp] theorem report_drawCount (s : State) (o : CycleOutcome) : (s.report o).drawCount = s.drawCount := rfl
@[simp] theorem report_started (s : State) (o : CycleOutcome) : (s.report o).started = s.started := rfl
@[simp] theorem report_loadResult (s : State) (o : CycleOutcome) : (s.report o).loadResult = s.loadResult := rfl
@[simp] theorem report_outcome (s : State) (o : CycleOutcome) : (s.report o).outcome = some o := rfl
@[simp] theorem report_redraw (s : State) (o : CycleOutcome) : (s.report o).redraw = (o == .requestRedraw) := rfl

/-! ### conclude -/

@[simp] theorem conclude_V (s : State) (o : CycleOutcome) : (s.conclude o).V = s.V := by cases o <;> simp [State.conclude, State.effect]
@[simp] theorem conclude_I (s : State) (o : CycleOutcome) : (s.conclude o).I = s.I := by cases o <;> simp [State.conclude, State.effect]
@[simp] theorem conclude_stack (s : State) (o : CycleOutcome) : (s.conclude o).stack = s.stack := by cases o <;> simp [State.conclude, State.effect]
@[simp] theorem conclude_mem (s : State) (o : CycleOutcome) : (s.conclude o).mem = s.mem := by cases o <;> simp [State.conclude, State.effect]
@[simp] theorem conclude_delay (s : State) (o : CycleOutcome) : (s.conclude o).delay = s.delay := by cases o <;> simp [State.conclude, State.effect]
@[simp] theorem conclude_sound (s : State) (o : CycleOutcome) : (s.conclude o).sound = s.sound := by cases o <;> simp [State.conclude, State.effect]
@[simp] theorem conclude_keyCur (s : State) (o : CycleOutcome) : (s.conclude o).keyCur = s.keyCur := by cases o <;> simp [State.conclude, State.effect]
@[simp] theorem conclude_keyPrev (s : State) (o : CycleOutcome) : (s.conclude o).keyPrev = s.keyPrev := by cases o <;> simp [State.conclude, State.effect]
@[simp] theorem conclude_fb (s : State) (o : CycleOutcome) : (s.conclude o).fb = s.fb := by cases o <;> simp [State.conclude, State.effect]
@[simp] theorem conclude_cfg (s : State) (o : CycleOutcome) : (s.conclude o).cfg = s.cfg := by cases o <;> simp [State.conclude, State.effect]
@[simp] theorem conclude_pending (s : State) (o : CycleOutcome) : (s.conclude o).pending = s.pending := by cases o <;> simp [State.conclude, State.effect]
@[simp] theorem conclude_hostStopped (s : State) (o : CycleOutcome) : (s.conclude o).hostStopped = s.hostStopped := by cases o <;> simp [State.conclude, State.effect]
@[simp] theorem conclude_inputCount (s : State) (o : CycleOutcome) : (s.conclude o).inputCount = s.inputCount := by cases o <;> simp [State.conclude, State.effect]
@[simp] theorem conclude_rand (s : State) (o : CycleOutcome) : (s.conclude o).rand = s.rand := by cases o <;> simp [State.conclude, State.effect]
@[simp] theorem conclude_drawCount (s : State) (o : CycleOutcome) : (s.conclude o).drawCount = s.drawCount := by cases o <;> simp [State.conclude, State.effect]
@[simp] theorem conclude_started (s : State) (o : CycleOutcome) : (s.conclude o).started = s.started := by cases o <;> simp [State.conclude, State.effect]
@[simp] theorem conclude_loadResult (s : State) (o : CycleOutcome) : (s.conclude o).loadResult = s.loadResult := by cases o <;> simp [State.conclude, State.effect]
@[simp] theorem conclude_outcome (s : State) (o : CycleOutcome) : (s.conclude o).outcome = some o := by
  cases o <;> simp [State.conclude, State.effect]
@[simp] theorem conclude_redraw (s : State) (o : CycleOutcome) : (s.conclude o).redraw = (o == .requestRedraw) := by
  cases o <;> simp [State.conclude, State.effect]

/-! ### writeRF -/

@[simp] theorem writeRF_I (s : State) (x : Reg) (r : Byte) (f : Bool) : (s.writeRF x r f).I = s.I := by unfold State.writeRF; split <;> rfl
@[simp] theorem writeRF_pc (s : State) (x : Reg) (r : Byte) (f : Bool) : (s.writeRF x r f).pc = s.pc := by unfold State.writeRF; split <;> rfl
@[simp] theorem writeRF_stack (s : State) (x : Reg) (r : Byte) (f : Bool) : (s.writeRF x r f).stack = s.stack := by unfold State.writeRF; split <;> rfl
@[simp] theorem writeRF_mem (s : State) (x : Reg) (r : Byte) (f : Bool) : (s.writeRF x r f).mem = s.mem := by unfold State.writeRF; split <;> rfl
@[simp] theorem writeRF_delay (s : State) (x : Reg) (r : Byte) (f : Bool) : (s.writeRF x r f).delay = s.delay := by unfold State.writeRF; split <;> rfl
@[simp] theorem writeRF_sound (s : State) (x : Reg) (r : Byte) (f : Bool) : (s.writeRF x r f).sound = s.sound := by unfold State.writeRF; split <;> rfl
@[simp] theorem writeRF_keyCur (s : State) (x : Reg) (r : Byte) (f : Bool) : (s.writeRF x r f).keyCur = s.keyCur := by unfold State.writeRF; split <;> rfl
@[simp] theorem writeRF_keyPrev (s : State) (x : Reg) (r : Byte) (f : Bool) : (s.writeRF x r f).keyPrev = s.keyPrev := by unfold State.writeRF; split <;> rfl
@[simp] theorem writeRF_fb (s : State) (x : Reg) (r : Byte) (f : Bool) : (s.writeRF x r f).fb = s.fb := by unfold State.writeRF; split <;> rfl
@[simp] theorem writeRF_waiting (s : State) (x : Reg) (r : Byte) (f : Bool) : (s.writeRF x r f).waiting = s.waiting := by unfold State.writeRF; split <;> rfl
@[simp] theorem writeRF_waitReg (s : State) (x : Reg) (r : Byte) (f : Bool) : (s.writeRF x r f).waitReg = s.waitReg := by unfold State.writeRF; split <;> rfl
@[simp] theorem writeRF_run (s : State) (x : Reg) (r : Byte) (f : Bool) : (s.writeRF x r f).run = s.run := by unfold State.writeRF; split <;> rfl
@[simp] theorem writeRF_cfg (s : State) (x : Reg) (r : Byte) (f : Bool) : (s.writeRF x r f).cfg = s.cfg := by unfold State.writeRF; split <;> rfl
@[simp] theorem writeRF_pending (s : State) (x : Reg) (r : Byte) (f : Bool) : (s.writeRF x r f).pending = s.pending := by unfold State.writeRF; split <;> rfl
@[simp] theorem writeRF_hostStopped (s : State) (x : Reg) (r : Byte) (f : Bool) : (s.writeRF x r f).hostStopped = s.hostStopped := by unfold State.writeRF; split <;> rfl
@[simp] theorem writeRF_inputCount (s : State) (x : Reg) (r : Byte) (f : Bool) : (s.writeRF x r f).inputCount = s.inputCount := by unfold State.writeRF; split <;> rfl
@[simp] theorem writeRF_rand (s : State) (x : Reg) (r : Byte) (f : Bool) : (s.writeRF x r f).rand = s.rand := by unfold State.writeRF; split <;> rfl
@[simp] theorem writeRF_drawCount (s : State) (x : Reg) (r : Byte) (f : Bool) : (s.writeRF x r f).drawCount = s.drawCount := by unfold State.writeRF; split <;> rfl
@[simp] theorem writeRF_started (s : State) (x : Reg) (r : Byte) (f : Bool) : (s.writeRF x r f).started = s.started := by unfold State.writeRF; split <;> rfl
@[simp] theorem writeRF_loadResult (s : State) (x : Reg) (r : Byte) (f : Bool) : (s.writeRF x r f).loadResult = s.loadResult := by unfold State.writeRF; split <;> rfl
@[simp] theorem writeRF_outcome (s : State) (x : Reg) (r : Byte) (f : Bool) : (s.writeRF x r f).outcome = s.outcome := by unfold State.writeRF; split <;> rfl
@[simp] theorem writeRF_redraw (s : State) (x : Reg) (r : Byte) (f : Bool) : (s.writeRF x r f).redraw = s.redraw := by unfold State.writeRF; split <;> rfl

/-! ### stepI -/

@[simp] theorem stepI_V (s : State) (x : Reg) : (stepI x s).V = s.V := by unfold stepI; split <;> rfl
@[simp] theorem stepI_pc (s : State) (x : Reg) : (stepI x s).pc = s.pc := by unfold stepI; split <;> rfl
@[simp] theorem stepI_stack (s : State) (x : Reg) : (stepI x s).stack = s.stack := by unfold stepI; split <;> rfl
@[simp] theorem stepI_mem (s : State) (x : Reg) : (stepI x s).mem = s.mem := by unfold stepI; split <;> rfl
@[simp] theorem stepI_delay (s : State) (x : Reg) : (stepI x s).delay = s.delay := by unfold stepI; split <;> rfl
@[simp] theorem stepI_sound (s : State) (x : Reg) : (stepI x s).sound = s.sound := by unfold stepI; split <;> rfl
@[simp] theorem stepI_keyCur (s : State) (x : Reg) : (stepI x s).keyCur = s.keyCur := by unfold stepI; split <;> rfl
@[simp] theorem stepI_keyPrev (s : State) (x : Reg) : (stepI x s).keyPrev = s.keyPrev := by unfold stepI; split <;> rfl
@[simp] theorem stepI_fb (s : State) (x : Reg) : (stepI x s).fb = s.fb := by unfold stepI; split <;> rfl
@[simp] theorem stepI_waiting (s : State) (x : Reg) : (stepI x s).waiting = s.waiting := by unfold stepI; split <;> rfl
@[simp] theorem stepI_waitReg (s : State) (x : Reg) : (stepI x s).waitReg = s.waitReg := by unfold stepI; split <;> rfl
@[simp] theorem stepI_run (s : State) (x : Reg) : (stepI x s).run = s.run := by unfold stepI; split <;> rfl
@[simp] theorem stepI_cfg (s : State) (x : Reg) : (stepI x s).cfg = s.cfg := by unfold stepI; split <;> rfl
@[simp] theorem stepI_pending (s : State) (x : Reg) : (stepI x s).pending = s.pending := by unfold stepI; split <;> rfl
@[simp] theorem stepI_hostStopped (s : State) (x : Reg) : (stepI x s).hostStopped = s.hostStopped := by unfold stepI; split <;> rfl
@[simp] theorem stepI_inputCount (s : State) (x : Reg) : (stepI x s).inputCount = s.inputCount := by unfold stepI; split <;> rfl
@[simp] theorem stepI_rand (s : State) (x : Reg) : (stepI x s).rand = s.rand := by unfold stepI; split <;> rfl
@[simp] theorem stepI_drawCount (s : State) (x : Reg) : (stepI x s).drawCount = s.drawCount := by unfold stepI; split <;> rfl
@[simp] theorem stepI_started (s : State) (x : Reg) : (stepI x s).started = s.started := by unfold stepI; split <;> rfl
@[simp] theorem stepI_loadResult (s : State) (x : Reg) : (stepI x s).loadResult = s.loadResult := by unfold stepI; split <;> rfl
@[simp] theorem stepI_outcome (s : State) (x : Reg) : (stepI x s).outcome = s.outcome := by unfold stepI; split <;> rfl
@[simp] theorem stepI_redraw (s : State) (x : Reg) : (stepI x s).redraw = s.redraw := by unfold stepI; split <;> rfl

/-! ### drawByte -/

@[simp] theorem drawByte_V (s : State) : (s.drawByte.2).V = s.V := by unfold State.drawByte; split <;> rfl
@[simp] theorem drawByte_I (s : State) : (s.drawByte.2).I = s.I := by unfold State.drawByte; split <;> rfl
@[simp] theorem drawByte_pc (s : State) : (s.drawByte.2).pc = s.pc := by unfold State.drawByte; split <;> rfl
@[simp] theorem drawByte_stack (s : State) : (s.drawByte.2).stack = s.stack := by unfold State.drawByte; split <;> rfl
@[simp] theorem drawByte_mem (s : State) : (s.drawByte.2).mem = s.mem := by unfold State.drawByte; split <;> rfl
@[simp] theorem drawByte_delay (s : State) : (s.drawByte.2).delay = s.delay := by unfold State.drawByte; split <;> rfl
@[simp] theorem drawByte_sound (s : State) : (s.drawByte.2).sound = s.sound := by unfold State.drawByte; split <;> rfl
@[simp] theorem drawByte_keyCur (s : State) : (s.drawByte.2).keyCur = s.keyCur := by unfold State.drawByte; split <;> rfl
@[simp] theorem drawByte_keyPrev (s : State) : (s.drawByte.2).keyPrev = s.keyPrev := by unfold State.drawByte; split <;> rfl
@[simp] theorem drawByte_fb (s : State) : (s.drawByte.2).fb = s.fb := by unfold State.drawByte; split <;> rfl
@[simp] theorem drawByte_waiting (s : State) : (s.drawByte.2).waiting = s.waiting := by unfold State.drawByte; split <;> rfl
@[simp] theorem drawByte_waitReg (s : State) : (s.drawByte.2).waitReg = s.waitReg := by unfold State.drawByte; split <;> rfl
@[simp] theorem drawByte_run (s : State) : (s.drawByte.2).run = s.run := by unfold State.drawByte; split <;> rfl
@[simp] theorem drawByte_cfg (s : State) : (s.drawByte.2).cfg = s.cfg := by unfold State.drawByte; split <;> rfl
@[simp] theorem drawByte_pending (s : State) : (s.drawByte.2).pending = s.pending := by unfold State.drawByte; split <;> rfl
@[simp] theorem drawByte_hostStopped (s : State) : (s.drawByte.2).hostStopped = s.hostStopped := by unfold State.drawByte; split <;> rfl
@[simp] theorem drawByte_inputCount (s : State) : (s.drawByte.2).inputCount = s.inputCount := by unfold State.drawByte; split <;> rfl
@[simp] theorem drawByte_started (s : State) : (s.drawByte.2).started = s.started := by unfold State.drawByte; split <;> rfl
@[simp] theorem drawByte_loadResult (s : State) : (s.drawByte.2).loadResult = s.loadResult := by unfold State.drawByte; split <;> rfl
@[simp] theorem drawByte_outcome (s : State) : (s.drawByte.2).outcome = s.outcome := by unfold State.drawByte; split <;> rfl
@[simp] theorem drawByte_redraw (s : State) : (s.drawByte.2).redraw = s.redraw := by unfold State.drawByte; split <;> rfl

/-! ### beginCycle -/

@[simp] theorem beginCycle_V (s : State) (keys : Keys) : (s.beginCycle keys).V = s.V := rfl
@[simp] theorem beginCycle_I (s : State) (keys : Keys) : (s.beginCycle keys).I = s.I := rfl
@[simp] theorem beginCycle_pc (s : State) (keys : Keys) : (s.beginCycle keys).pc = s.pc := rfl
@[simp] theorem beginCycle_stack (s : State) (keys : Keys) : (s.beginCycle keys).stack = s.stack := rfl
@[simp] theorem beginCycle_mem (s : State) (keys : Keys) : (s.beginCycle keys).mem = s.mem := rfl
@[simp] theorem beginCycle_delay (s : State) (keys : Keys) : (s.beginCycle keys).delay = s.delay := rfl
@[simp] theorem beginCycle_sound (s : State) (keys : Keys) : (s.beginCycle keys).sound = s.sound := rfl
@[simp] theorem beginCycle_keyPrev (s : State) (keys : Keys) : (s.beginCycle keys).keyPrev = s.keyPrev := rfl
@[simp] theorem beginCycle_fb (s : State) (keys : Keys) : (s.beginCycle keys).fb = s.fb := rfl
@[simp] theorem beginCycle_waiting (s : State) (keys : Keys) : (s.beginCycle keys).waiting = s.waiting := rfl
@[simp] theorem beginCycle_waitReg (s : State) (keys : Keys) : (s.beginCycle keys).waitReg = s.waitReg := rfl
@[simp] theorem beginCycle_run (s : State) (keys : Keys) : (s.beginCycle keys).run = s.run := rfl
@[simp] theorem beginCycle_cfg (s : State) (keys : Keys) : (s.beginCycle keys).cfg = s.cfg := rfl
@[simp] theorem beginCycle_pending (s : State) (keys : Keys) : (s.beginCycle keys).pending = s.pending := rfl
@[simp] theorem beginCycle_hostStopped (s : State) (keys : Keys) : (s.beginCycle keys).hostStopped = s.hostStopped := rfl
@[simp] theorem beginCycle_inputCount (s : State) (keys : Keys) : (s.beginCycle keys).inputCount = s.inputCount := rfl
@[simp] theorem beginCycle_rand (s : State) (keys : Keys) : (s.beginCycle keys).rand = s.rand := rfl
@[simp] theorem beginCycle_drawCount (s : State) (keys : Keys) : (s.beginCycle keys).drawCount = s.drawCount := rfl
@[simp] theorem beginCycle_loadResult (s : State) (keys : Keys) : (s.beginCycle keys).loadResult = s.loadResult := rfl
@[simp] theorem beginCycle_outcome (s : State) (keys : Keys) : (s.beginCycle keys).outcome = s.outcome := rfl
@[simp] theorem beginCycle_redraw (s : State) (keys : Keys) : (s.beginCycle keys).redraw = s.redraw := rfl
@[simp] theorem beginCycle_keyCur (s : State) (keys : Keys) : (s.beginCycle keys).keyCur = keys := rfl
@[simp] theorem beginCycle_started (s : State) (keys : Keys) : (s.beginCycle keys).started = true := rfl

/-! ### endCycle -/

@[simp] theorem endCycle_V (s : State) : (s.endCycle).V = s.V := rfl
@[simp] theorem endCycle_I (s : State) : (s.endCycle).I = s.I := rfl
@[simp] theorem endCycle_pc (s : State) : (s.endCycle).pc = s.pc := rfl
@[simp] theorem endCycle_stack (s : State) : (s.endCycle).stack = s.stack := rfl
@[simp] theorem endCycle_mem (s : State) : (s.endCycle).mem = s.mem := rfl
@[simp] theorem endCycle_delay (s : State) : (s.endCycle).delay = s.delay := rfl
@[simp] theorem endCycle_sound (s : State) : (s.endCycle).sound = s.sound := rfl
@[simp] theorem endCycle_keyCur (s : State) : (s.endCycle).keyCur = s.keyCur := rfl
@[simp] theorem endCycle_fb (s : State) : (s.endCycle).fb = s.fb := rfl
@[simp] theorem endCycle_waiting (s : State) : (s.endCycle).waiting = s.waiting := rfl
@[simp] theorem endCycle_waitReg (s : State) : (s.endCycle).waitReg = s.waitReg := rfl
@[simp] theorem endCycle_run (s : State) : (s.endCycle).run = s.run := rfl
@[simp] theorem endCycle_cfg (s : State) : (s.endCycle).cfg = s.cfg := rfl
@[simp] theorem endCycle_pending (s : State) : (s.endCycle).pending = s.pending := rfl
@[simp] theorem endCycle_hostStopped (s : State) : (s.endCycle).hostStopped = s.hostStopped := rfl
@[simp] theorem endCycle_inputCount (s : State) : (s.endCycle).inputCount = s.inputCount := rfl
@[simp] theorem endCycle_rand (s : State) : (s.endCycle).rand = s.rand := rfl
@[simp] theorem endCycle_drawCount (s : State) : (s.endCycle).drawCount = s.drawCount := rfl
@[simp] theorem endCycle_started (s : State) : (s.endCycle).started = s.started := rfl
@[simp] theorem endCycle_loadResult (s : State) : (s.endCycle).loadResult = s.loadResult := rfl
@[simp] theorem endCycle_outcome (s : State) : (s.endCycle).outcome = s.outcome := rfl
@[simp] theorem endCycle_redraw (s : State) : (s.endCycle).redraw = s.redraw := rfl
@[simp] theorem endCycle_keyPrev (s : State) : s.endCycle.keyPrev = s.keyCur := rfl

/-! ### tickDelay -/

@[simp] theorem tickDelay_V (s : State) : (s.tickDelay).V = s.V := rfl
@[simp] theorem tickDelay_I (s : State) : (s.tickDelay).I = s.I := rfl
@[simp] theorem tickDelay_pc (s : State) : (s.tickDelay).pc = s.pc := rfl
@[simp] theorem tickDelay_stack (s : State) : (s.tickDelay).stack = s.stack := rfl
@[simp] theorem tickDelay_mem (s : State) : (s.tickDelay).mem = s.mem := rfl
@[simp] theorem tickDelay_sound (s : State) : (s.tickDelay).sound = s.sound := rfl
@[simp] theorem tickDelay_keyCur (s : State) : (s.tickDelay).keyCur = s.keyCur := rfl
@[simp] theorem tickDelay_keyPrev (s : State) : (s.tickDelay).keyPrev = s.keyPrev := rfl
@[simp] theorem tickDelay_fb (s : State) : (s.tickDelay).fb = s.fb := rfl
@[simp] theorem tickDelay_waiting (s : State) : (s.tickDelay).waiting = s.waiting := rfl
@[simp] theorem tickDelay_waitReg (s : State) : (s.tickDelay).waitReg = s.waitReg := rfl
@[simp] theorem tickDelay_run (s : State) : (s.tickDelay).run = s.run := rfl
@[simp] theorem tickDelay_cfg (s : State) : (s.tickDelay).cfg = s.cfg := rfl
@[simp] theorem tickDelay_pending (s : State) : (s.tickDelay).pending = s.pending := rfl
@[simp] theorem tickDelay_hostStopped (s : State) : (s.tickDelay).hostStopped = s.hostStopped := rfl
@[simp] theorem tickDelay_inputCount (s : State) : (s.tickDelay).inputCount = s.inputCount := rfl
@[simp] theorem tickDelay_rand (s : State) : (s.tickDelay).rand = s.rand := rfl
@[simp] theorem tickDelay_drawCount (s : State) : (s.tickDelay).drawCount = s.drawCount := rfl
@[simp] theorem tickDelay_started (s : State) : (s.tickDelay).started = s.started := rfl
@[simp] theorem tickDelay_loadResult (s : State) : (s.tickDelay).loadResult = s.loadResult := rfl
@[simp] theorem tickDelay_outcome (s : State) : (s.tickDelay).outcome = s.outcome := rfl
@[simp] theorem tickDelay_redraw (s : State) : (s.tickDelay).redraw = s.redraw := rfl
@[simp] theorem tickDelay_delay (s : State) : s.tickDelay.delay = countDown s.delay := rfl

/-! ### tickSound -/

@[simp] theorem tickSound_V (s : State) : (s.tickSound).V = s.V := rfl
@[simp] theorem tickSound_I (s : State) : (s.tickSound).I = s.I := rfl
@[simp] theorem tickSound_pc (s : State) : (s.tickSound).pc = s.pc := rfl
@[simp] theorem tickSound_stack (s : State) : (s.tickSound).stack = s.stack := rfl
@[simp] theorem tickSound_mem (s : State) : (s.tickSound).mem = s.mem := rfl
@[simp] theorem tickSound_delay (s : State) : (s.tickSound).delay = s.delay := rfl
@[simp] theorem tickSound_keyCur (s : State) : (s.tickSound).keyCur = s.keyCur := rfl
@[simp] theorem tickSound_keyPrev (s : State) : (s.tickSound).keyPrev = s.keyPrev := rfl
@[simp] theorem tickSound_fb (s : State) : (s.tickSound).fb = s.fb := rfl
@[simp] theorem tickSound_waiting (s : State) : (s.tickSound).waiting = s.waiting := rfl
@[simp] theorem tickSound_waitReg (s : State) : (s.tickSound).waitReg = s.waitReg := rfl
@[simp] theorem tickSound_run (s : State) : (s.tickSound).run = s.run := rfl
@[simp] theorem tickSound_cfg (s : State) : (s.tickSound).cfg = s.cfg := rfl
@[simp] theorem tickSound_pending (s : State) : (s.tickSound).pending = s.pending := rfl
@[simp] theorem tickSound_hostStopped (s : State) : (s.tickSound).hostStopped = s.hostStopped := rfl
@[simp] theorem tickSound_inputCount (s : State) : (s.tickSound).inputCount = s.inputCount := rfl
@[simp] theorem tickSound_rand (s : State) : (s.tickSound).rand = s.rand := rfl
@[simp] theorem tickSound_drawCount (s : State) : (s.tickSound).drawCount = s.drawCount := rfl
@[simp] theorem tickSound_started (s : State) : (s.tickSound).started = s.started := rfl
@[simp] theorem tickSound_loadResult (s : State) : (s.tickSound).loadResult = s.loadResult := rfl
@[simp] theorem tickSound_outcome (s : State) : (s.tickSound).outcome = s.outcome := rfl
@[simp] theorem tickSound_redraw (s : State) : (s.tickSound).redraw = s.redraw := rfl
@[simp] theorem tickSound_sound (s : State) : s.tickSound.sound = countDown s.sound := rfl

/-! ### freeTicks -/

@[simp] theorem freeTicks_V (s : State) : (s.freeTicks).V = s.V := rfl
@[simp] theorem freeTicks_I (s : State) : (s.freeTicks).I = s.I := rfl
@[simp] theorem freeTicks_pc (s : State) : (s.freeTicks).pc = s.pc := rfl
@[simp] theorem freeTicks_stack (s : State) : (s.freeTicks).stack = s.stack := rfl
@[simp] theorem freeTicks_mem (s : State) : (s.freeTicks).mem = s.mem := rfl
@[simp] theorem freeTicks_keyCur (s : State) : (s.freeTicks).keyCur = s.keyCur := rfl
@[simp] theorem freeTicks_keyPrev (s : State) : (s.freeTicks).keyPrev = s.keyPrev := rfl
@[simp] theorem freeTicks_fb (s : State) : (s.freeTicks).fb = s.fb := rfl
@[simp] theorem freeTicks_waiting (s : State) : (s.freeTicks).waiting = s.waiting := rfl
@[simp] theorem freeTicks_waitReg (s : State) : (s.freeTicks).waitReg = s.waitReg := rfl
@[simp] theorem freeTicks_run (s : State) : (s.freeTicks).run = s.run := rfl
@[simp] theorem freeTicks_cfg (s : State) : (s.freeTicks).cfg = s.cfg := rfl
@[simp] theorem freeTicks_pending (s : State) : (s.freeTicks).pending = s.pending := rfl
@[simp] theorem freeTicks_hostStopped (s : State) : (s.freeTicks).hostStopped = s.hostStopped := rfl
@[simp] theorem freeTicks_rand (s : State) : (s.freeTicks).rand = s.rand := rfl
@[simp] theorem freeTicks_drawCount (s : State) : (s.freeTicks).drawCount = s.drawCount := rfl
@[simp] theorem freeTicks_started (s : State) : (s.freeTicks).started = s.started := rfl
@[simp] theorem freeTicks_loadResult (s : State) : (s.freeTicks).loadResult = s.loadResult := rfl
@[simp] theorem freeTicks_outcome (s : State) : (s.freeTicks).outcome = s.outcome := rfl
@[simp] theorem freeTicks_redraw (s : State) : (s.freeTicks).redraw = s.redraw := rfl

end Sys2Proof.Laws
end

