-- ==== Sys2Proof/Laws/Memory.lean ====
section
/-! SUPPORT. Memory: read after write, and the canonical form that every memory operation keeps. -/

namespace Sys2Proof.Laws

open Sys2Proof.Machine Sys2Proof.Config

/-! ## Read after write -/

theorem cellsGet_erase_same (font : Font) (a : Nat) (l : List Host.Cell) : cellsGet font (cellsErase a l) a = resetByte font a := by
  induction l with
  | nil => rfl
  | cons c rest ih =>
    obtain ⟨a', b'⟩ := c
    by_cases h : a' = a
    · simpa [cellsErase, h] using ih
    · simpa [cellsErase, h, cellsGet, Ne.symm h] using ih

theorem cellsGet_erase_ne (font : Font) {a c : Nat} (h : c ≠ a) (l : List Host.Cell) :
    cellsGet font (cellsErase a l) c = cellsGet font l c := by
  induction l with
  | nil => rfl
  | cons d rest ih =>
    obtain ⟨a', b'⟩ := d
    by_cases h' : a' = a
    · subst h'
      simpa [cellsErase, cellsGet, h] using ih
    · by_cases hc : c = a' <;> simp [cellsErase, h', cellsGet, hc]
      simpa using ih

theorem cellsGet_insert_ne (font : Font) {a c : Nat} (h : c ≠ a) (b : Byte) (l : List Host.Cell) :
    cellsGet font (cellsInsert a b l) c = cellsGet font l c := by
  induction l with
  | nil => simp [cellsInsert, cellsGet, h]
  | cons d rest ih =>
    obtain ⟨a', b'⟩ := d
    by_cases h' : a < a'
    · simp [cellsInsert, h', cellsGet, h]
    · simp [cellsInsert, h', cellsGet, ih]

theorem cellsGet_insert_erase_same (font : Font) (a : Nat) (b : Byte) (l : List Host.Cell) :
    cellsGet font (cellsInsert a b (cellsErase a l)) a = b := by
  induction l with
  | nil => simp [cellsErase, cellsInsert, cellsGet]
  | cons d rest ih =>
    obtain ⟨a', b'⟩ := d
    by_cases h' : a' = a
    · simpa [cellsErase, h'] using ih
    · by_cases hlt : a < a'
      · simp [cellsErase, h', cellsInsert, hlt, cellsGet]
      · simpa [cellsErase, h', cellsInsert, hlt, cellsGet, Ne.symm h'] using ih

/-- A read after a write to the same address gives the value written. -/
@[simp] theorem get_set_same (m : Memory) (a : Nat) (b : Byte) : (m.set a b).get a = b := by
  by_cases h : b = resetByte m.font a
  · simpa [Memory.get, Memory.set, cellsSet, h] using cellsGet_erase_same m.font a m.cells
  · simpa [Memory.get, Memory.set, cellsSet, h] using cellsGet_insert_erase_same m.font a b m.cells

/-- A write leaves every other address alone. -/
theorem get_set_ne {a c : Nat} (h : c ≠ a) (m : Memory) (b : Byte) : (m.set a b).get c = m.get c := by
  by_cases hb : b = resetByte m.font a
  · simpa [Memory.get, Memory.set, cellsSet, hb] using cellsGet_erase_ne m.font h m.cells
  · simpa [Memory.get, Memory.set, cellsSet, hb, cellsGet_insert_ne m.font h] using cellsGet_erase_ne m.font h m.cells

/-- Bytes below the stored ones are left alone. -/
theorem get_writeBytes_below {a c : Nat} (h : c < a) (m : Memory) (bs : List Byte) :
    (m.writeBytes a bs).get c = m.get c := by
  induction bs generalizing m a with
  | nil => rfl
  | cons b rest ih =>
    rw [Memory.writeBytes, ih (by omega), get_set_ne (by omega)]

/-- Bytes outside the stored ones are left alone. -/
theorem get_writeBytes_outside {a c : Nat} (m : Memory) (bs : List Byte) (h : ¬ (a ≤ c ∧ c < a + bs.length)) :
    (m.writeBytes a bs).get c = m.get c := by
  induction bs generalizing m a with
  | nil => rfl
  | cons b rest ih =>
    simp only [List.length_cons] at h
    rw [Memory.writeBytes, ih _ (by omega), get_set_ne (by omega)]

/-- The k-th stored byte is read back. -/
theorem get_writeBytes_stored (m : Memory) (a : Nat) (bs : List Byte) {k : Nat} (h : k < bs.length) :
    (m.writeBytes a bs).get (a + k) = bs[k] := by
  induction bs generalizing m a k with
  | nil => simp at h
  | cons b rest ih =>
    cases k with
    | zero => rw [Memory.writeBytes, Nat.add_zero, get_writeBytes_below (by omega)]; simp
    | succ k =>
      simp only [List.length_cons, Nat.add_lt_add_iff_right] at h
      have := ih (m.set a b) (a + 1) h
      simpa [Memory.writeBytes, Nat.add_assoc, Nat.add_comm 1] using this

@[simp] theorem readBytes_length (m : Memory) (a n : Nat) : (m.readBytes a n).length = n := by
  induction n generalizing a with
  | zero => rfl
  | succ n ih => simp [Memory.readBytes, ih]

theorem readBytes_getElem (m : Memory) (a n : Nat) {k : Nat} (h : k < (m.readBytes a n).length) :
    (m.readBytes a n)[k] = m.get (a + k) := by
  induction n generalizing a k with
  | zero => simp [Memory.readBytes] at h
  | succ n ih =>
    cases k with
    | zero => simp [Memory.readBytes]
    | succ k =>
      have h' : k < (m.readBytes (a + 1) n).length := by simpa [Memory.readBytes] using h
      simpa [Memory.readBytes, Nat.add_assoc, Nat.add_comm 1] using ih (a + 1) h'

/-! ## The canonical form -/

/-- A list canonical from `hi` on is canonical from any lower bound. -/
theorem cellsWf_mono (font : Font) {lo hi : Nat} (h : lo ≤ hi) {l : List Host.Cell} (hl : cellsWf font hi l = true) :
    cellsWf font lo l = true := by
  cases l with
  | nil => rfl
  | cons c rest =>
    simp only [cellsWf, Bool.and_eq_true, decide_eq_true_eq] at hl ⊢
    exact ⟨⟨⟨by omega, hl.1.1.2⟩, hl.1.2⟩, hl.2⟩

theorem cellsWf_erase (font : Font) (a : Nat) {lo : Nat} {l : List Host.Cell} (hl : cellsWf font lo l = true) :
    cellsWf font lo (cellsErase a l) = true := by
  induction l generalizing lo with
  | nil => rfl
  | cons c rest ih =>
    obtain ⟨a', b'⟩ := c
    simp only [cellsWf, Bool.and_eq_true, decide_eq_true_eq] at hl
    by_cases h : a' = a
    · simpa [cellsErase, h] using cellsWf_mono font (by omega) (ih hl.2)
    · simp only [cellsErase, h, if_false, cellsWf, Bool.and_eq_true, decide_eq_true_eq]
      exact ⟨hl.1, ih hl.2⟩

/-- Inserting at an address that is not listed keeps the form. -/
theorem cellsWf_insert (font : Font) {a : Nat} {b : Byte} (ha : a < memSize) (hb : b ≠ resetByte font a) {lo : Nat} (hlo : lo ≤ a)
    {l : List Host.Cell} (hl : cellsWf font lo (cellsErase a l) = true) :
    cellsWf font lo (cellsInsert a b (cellsErase a l)) = true := by
  induction l generalizing lo with
  | nil => simp [cellsErase, cellsInsert, cellsWf, hlo, ha, hb]
  | cons c rest ih =>
    obtain ⟨a', b'⟩ := c
    by_cases h : a' = a
    · simp only [cellsErase, h, if_true] at hl ⊢
      exact ih hlo hl
    · simp only [cellsErase, h, if_false, cellsWf, Bool.and_eq_true, decide_eq_true_eq] at hl ⊢
      by_cases hlt : a < a'
      · simp only [cellsInsert, hlt, if_true, cellsWf, Bool.and_eq_true, decide_eq_true_eq, bne_iff_ne]
        exact ⟨⟨⟨hlo, ha⟩, hb⟩, ⟨⟨by omega, hl.1.1.2⟩, by simpa using hl.1.2⟩, hl.2⟩
      · simp only [cellsInsert, hlt, if_false, cellsWf, Bool.and_eq_true, decide_eq_true_eq]
        exact ⟨hl.1, ih (by omega) hl.2⟩

/-- A write inside memory keeps the canonical form. -/
theorem wf_set {m : Memory} (hm : m.wf = true) {a : Nat} (ha : a < memSize) (b : Byte) : (m.set a b).wf = true := by
  have he := cellsWf_erase m.font a hm
  by_cases hb : b = resetByte m.font a
  · simpa [Memory.wf, Memory.set, cellsSet, hb] using he
  · simpa [Memory.wf, Memory.set, cellsSet, hb] using cellsWf_insert m.font ha hb (Nat.zero_le a) he

/-- Stores inside memory keep the canonical form. -/
theorem wf_writeBytes {m : Memory} (hm : m.wf = true) {a : Nat} {bs : List Byte} (h : a + bs.length ≤ memSize) :
    (m.writeBytes a bs).wf = true := by
  induction bs generalizing m a with
  | nil => exact hm
  | cons b rest ih =>
    simp only [List.length_cons] at h
    exact ih (wf_set hm (by omega) b) (by omega)

/-- The memory after construction is canonical. -/
theorem wf_construct (params : Params) (font : Font) : (State.construct params font).mem.wf = true := rfl

theorem wf_reset : State.reset.mem.wf = true := rfl

/-! ## The font that memory was constructed with -/

@[simp] theorem font_set (m : Memory) (a : Nat) (b : Byte) : (m.set a b).font = m.font := rfl

@[simp] theorem font_writeBytes (m : Memory) (a : Nat) (bs : List Byte) : (m.writeBytes a bs).font = m.font := by
  induction bs generalizing m a with
  | nil => rfl
  | cons b rest ih => rw [Memory.writeBytes, ih, font_set]

end Sys2Proof.Laws
end

