-- ==== Sys2Proof/Laws/Ops.lean ====
section
/-! SUPPORT. One lemma per shared operation: registers, bulk loads, what a finished handler answers, the edge detector,
the counters. -/

namespace Sys2Proof.Laws

open Sys2Proof.Machine Sys2Proof.Config

/-! ## Registers -/

@[simp] theorem reg_setReg_same (s : State) (r : Reg) (v : Byte) : (s.setReg r v).reg r = v := by
  simp [State.reg, State.setReg]

theorem reg_setReg_ne (s : State) {r q : Reg} (h : q ≠ r) (v : Byte) : (s.setReg r v).reg q = s.reg q := by
  have hv : (r : Nat) ≠ q := fun e => h (Fin.ext e.symm)
  simp [State.reg, State.setReg, hv]

/-- `WriteRF` away from X and VF. -/
theorem reg_writeRF_ne (s : State) {x q : Reg} (r : Byte) (f : Bool) (hx : q ≠ x) (hf : q ≠ VF) :
    (s.writeRF x r f).reg q = s.reg q := by
  unfold State.writeRF
  split <;> simp [reg_setReg_ne, hx, hf]

/-- `WriteRF` with X other than VF: the order cannot be seen. -/
theorem reg_writeRF_result (s : State) {x : Reg} (r : Byte) (f : Bool) (h : x ≠ VF) :
    (s.writeRF x r f).reg x = r := by
  unfold State.writeRF
  split <;> simp [reg_setReg_ne, h]

theorem reg_writeRF_flag (s : State) {x : Reg} (r : Byte) (f : Bool) (h : x ≠ VF) :
    (s.writeRF x r f).reg VF = flagByte f := by
  unfold State.writeRF
  split <;> simp [reg_setReg_ne _ (Ne.symm h)]

/-- `WriteRF` with X = VF: the last write survives. -/
theorem reg_writeRF_vf (s : State) (r : Byte) (f : Bool) :
    (s.writeRF VF r f).reg VF = match s.cfg.vfOrder with | .flagLast => flagByte f | .resultLast => r := by
  unfold State.writeRF
  split <;> simp_all

@[simp] theorem flagByte_toNat (f : Bool) : (flagByte f).toNat = if f then 1 else 0 := by
  cases f <;> rfl

/-- A bulk load, register by register. -/
theorem loadRegs_getElem (V : Vector Byte 16) (k : Nat) (bs : List Byte) (hk : k + bs.length ≤ 16) (j : Nat)
    (hj : j < 16) :
    (loadRegs V k bs)[j] = if h : k ≤ j ∧ j < k + bs.length then bs[j - k]'(by omega) else V[j] := by
  induction bs generalizing V k with
  | nil =>
    have : ¬ (k ≤ j ∧ j < k + 0) := by omega
    simp [loadRegs]
  | cons b rest ih =>
    simp only [List.length_cons] at hk ⊢
    rw [loadRegs, ih _ _ (by omega)]
    by_cases h1 : k + 1 ≤ j ∧ j < k + 1 + rest.length
    · have h2 : k ≤ j ∧ j < k + (rest.length + 1) := by omega
      have h3 : j - k = (j - (k + 1)) + 1 := by omega
      simp only [h1, and_self, dite_true, h2]
      simp [h3]
    · by_cases hjk : j = k
      · subst hjk
        simp
      · have h2 : ¬ (k ≤ j ∧ j < k + (rest.length + 1)) := by omega
        simp only [h1, h2, dite_false]
        rw [Vector.getElem_setIfInBounds_ne]
        omega

/-! ## pc -/

/-- `advance` is exactly the pc movement of 40_cycle.md R146. -/
theorem advance_movesTo (s : State) (t : Nat) : MovesTo s (s.advance t) t := by
  unfold State.advance maxPc MovesTo
  have hm : memSize = 4096 := rfl
  refine ⟨fun h => ?_, fun h => ?_⟩
  · simp only [h, if_true, and_true]
    simp only [BitVec.toNat_ofNat]
    omega
  · have : ¬ t ≤ memSize - 2 := by omega
    simp [this]

theorem conclude_continueNext (s : State) : Continues s (s.conclude .continueNext) :=
  ⟨by simp, by simp, advance_movesTo (s.report .continueNext) _⟩

theorem conclude_skipNext (s : State) : Skips s (s.conclude .skipNext) :=
  ⟨by simp, by simp, advance_movesTo (s.report .skipNext) _⟩

theorem conclude_jump (s : State) (target : Nat) : JumpsTo s (s.conclude (.jump target)) target :=
  ⟨by simp, by simp, advance_movesTo (s.report (.jump target)) _⟩

theorem conclude_requestRedraw (s : State) : Redraws s (s.conclude .requestRedraw) :=
  ⟨by simp, by simp, advance_movesTo (s.report .requestRedraw) _⟩

theorem conclude_fault (s : State) (k : FaultKind) : FaultsWith s (s.conclude (.fault k)) k := rfl

/-- An outcome that moves pc changes nothing but pc, run and the ports. -/
theorem conclude_onlyControl (s : State) (o : CycleOutcome) (h : ∀ x, o ≠ .waitingForKey x) :
    OnlyControl s (s.conclude o) := by
  unfold OnlyControl State.withControlOf
  cases o <;> first | exact absurd rfl (h _) | (simp only [State.conclude, State.effect, State.advance]; try split) <;> rfl

/-- The answer of a handler that continues: `u` is the state after its writes, which never include pc and run. -/
theorem finish_continueNext {s u : State} (hpc : u.pc = s.pc) (hrun : u.run = s.run) :
    ∃ t, finish .continueNext u = .next t ∧ Continues s t ∧ OnlyControl u t := by
  refine ⟨_, rfl, ?_, conclude_onlyControl _ _ (by simp)⟩
  simpa [Continues, MovesTo, hpc, hrun] using conclude_continueNext u

theorem finish_skipNext {s u : State} (hpc : u.pc = s.pc) (hrun : u.run = s.run) :
    ∃ t, finish .skipNext u = .next t ∧ Skips s t ∧ OnlyControl u t := by
  refine ⟨_, rfl, ?_, conclude_onlyControl _ _ (by simp)⟩
  simpa [Skips, MovesTo, hpc, hrun] using conclude_skipNext u

theorem finish_jump {s u : State} (target : Nat) (hpc : u.pc = s.pc) (hrun : u.run = s.run) :
    ∃ t, finish (.jump target) u = .next t ∧ JumpsTo s t target ∧ OnlyControl u t := by
  refine ⟨_, rfl, ?_, conclude_onlyControl _ _ (by simp)⟩
  simpa [JumpsTo, MovesTo, hpc, hrun] using conclude_jump u target

theorem finish_requestRedraw {s u : State} (hpc : u.pc = s.pc) (hrun : u.run = s.run) :
    ∃ t, finish .requestRedraw u = .next t ∧ Redraws s t ∧ OnlyControl u t := by
  refine ⟨_, rfl, ?_, conclude_onlyControl _ _ (by simp)⟩
  simpa [Redraws, MovesTo, hpc, hrun] using conclude_requestRedraw u

theorem finish_fault (s : State) (k : FaultKind) : ∃ t, finish (.fault k) s = .next t ∧ FaultsWith s t k :=
  ⟨_, rfl, rfl⟩

/-- An answer's registers are those of the state after the writes. -/
theorem onlyControl_reg {u t : State} (h : OnlyControl u t) (q : Reg) : t.reg q = u.reg q := by
  have hV : t.V = u.V := by rw [h]; rfl
  unfold State.reg
  rw [hV]

/-- A handler that writes one register and continues. -/
theorem finish_setReg (s : State) (x : Reg) (v : Byte) :
    ∃ t, finish .continueNext (s.setReg x v) = .next t ∧ Continues s t ∧ OnlyRegs [x] s t ∧ t.reg x = v := by
  obtain ⟨t, ht, hc, ho⟩ := finish_continueNext (s := s) (u := s.setReg x v) rfl rfl
  refine ⟨t, ht, hc, ⟨?_, fun r hr => ?_⟩, by simp [onlyControl_reg ho]⟩
  · rw [ho]; simp [State.withControlOf, State.setReg]
  · rw [onlyControl_reg ho, reg_setReg_ne _ (by simpa using hr)]

/-- A handler that writes result and flag and continues. -/
theorem finish_writeRF (s : State) (x : Reg) (r : Byte) (f : Bool) :
    ∃ t, finish .continueNext (s.writeRF x r f) = .next t ∧ Continues s t ∧
      WritesResultAndFlag x r.toNat (if f then 1 else 0) s t := by
  obtain ⟨t, ht, hc, ho⟩ := finish_continueNext (s := s) (u := s.writeRF x r f) (by simp) (by simp)
  refine ⟨t, ht, hc, ⟨?_, fun q hq => ?_⟩, fun hx => ?_, fun hx => ?_⟩
  · rw [ho]; simp [State.withControlOf]
  · simp only [List.mem_cons, List.not_mem_nil, not_or, or_false] at hq
    rw [onlyControl_reg ho, reg_writeRF_ne _ _ _ hq.1 hq.2]
  · simp [onlyControl_reg ho, reg_writeRF_result _ _ _ hx, reg_writeRF_flag _ _ _ hx]
  · subst hx
    rw [onlyControl_reg ho, reg_writeRF_vf]
    cases s.cfg.vfOrder <;> simp

/-- A skip (41_control_flow.md R187 to R190). -/
theorem skipWhen_spec (c : Bool) (s : State) :
    ∃ t, skipWhen c s = .next t ∧ OnlyControl s t ∧ (c = true → Skips s t) ∧ (c = false → Continues s t) := by
  cases c
  · obtain ⟨t, ht, hc, ho⟩ := finish_continueNext (s := s) (u := s) rfl rfl
    exact ⟨t, ht, ho, by simp, fun _ => hc⟩
  · obtain ⟨t, ht, hc, ho⟩ := finish_skipNext (s := s) (u := s) rfl rfl
    exact ⟨t, ht, ho, fun _ => hc, by simp⟩

/-- Every handler's answer is a next state. -/
theorem exec_next (i : Instr) (s : State) : ∃ t, exec i s = .next t := by
  cases i <;> simp only [exec, execHalt, execCls, execRet, execSys, execJp, execCall, execSeVxNn, execSneVxNn,
    execSeVxVy, execLdVxNn, execAddVxNn, execLdVxVy, execOrVxVy, execAndVxVy, execXorVxVy, execAddVxVy, execSubVxVy,
    execShrVx, execSubnVxVy, execShlVx, execSneVxVy, execLdINnn, execJpV0, execRnd, execDrw, execSkp, execSknp,
    execLdVxDt, execLdVxK, execLdDtVx, execLdStVx, execAddIVx, execLdFVx, execLdBVx, execLdMemIVx, execLdVxMemI,
    skipWhen, finish] <;> (repeat' split) <;> exact ⟨_, rfl⟩

/-! ## Data accesses -/

/-- The range check of a data access of at least one byte (20_memory.md R80). -/
theorem dataInBounds_iff {s : State} {n : Nat} (h : 0 < n) :
    dataInBounds s n = true ↔ s.I.toNat + n - 1 < memSize := by
  unfold dataInBounds dataAddress
  simp
  omega

/-- I after a bulk transfer (43_index_memory.md R249). -/
theorem stepI_I (x : Reg) (s : State) :
    (s.cfg.loadStoreIncrementsI = false → (stepI x s).I = s.I) ∧
    (s.cfg.loadStoreIncrementsI = true → (stepI x s).I.toNat = (s.I.toNat + x.val + 1) % 65536) := by
  unfold stepI transferCount
  constructor <;> intro h <;> simp [h, Nat.add_assoc]

/-! ## The edge detector -/

/-- A found edge is the least scanned one (40_cycle.md R151). -/
theorem firstEdge_some {s : State} {k : Nat} :
    firstEdge s.cfg.keyScan s.keyCur s.keyPrev = some k ↔ IsFirstEdge s k := by
  unfold firstEdge IsFirstEdge
  rw [List.find?_range_eq_some]
  simp only [Bool.and_eq_true, Bool.not_eq_true', List.mem_range, Bool.not_and, Bool.or_eq_true, Bool.not_not]
  constructor
  · rintro ⟨⟨h1, h2⟩, h3, h4⟩
    refine ⟨h3, h1, h2, fun j hj ⟨hc, hp⟩ => ?_⟩
    simpa [hc, hp] using h4 j hj
  · rintro ⟨h3, h1, h2, h4⟩
    refine ⟨⟨h1, h2⟩, h3, fun j hj => ?_⟩
    by_contra hcon
    simp only [not_or, Bool.not_eq_false, Bool.not_eq_true] at hcon
    exact h4 j hj hcon

theorem firstEdge_none {s : State} : firstEdge s.cfg.keyScan s.keyCur s.keyPrev = none ↔ NoEdge s := by
  unfold firstEdge NoEdge
  simp [List.find?_eq_none]

theorem scanCount_le (k : KeyScan) : scanCount k ≤ 16 := by
  cases k <;> decide

/-! ## The counters -/

theorem countDown_toNat (v : Byte) : (countDown v).toNat = v.toNat - 1 := by
  unfold countDown
  split
  · next h => subst h; rfl
  · next h =>
    have hv : v.toNat ≠ 0 := fun e => h (BitVec.eq_of_toNat_eq (by simpa using e))
    have := v.isLt
    simp only [BitVec.toNat_sub, BitVec.toNat_ofNat]
    omega

theorem countDownBy_toNat (v : Byte) (n : Nat) : (countDownBy v n).toNat = v.toNat - n := by
  have := v.isLt
  simp only [countDownBy, BitVec.toNat_ofNat]
  omega

end Sys2Proof.Laws
end

