-- ==== Sys2Proof/Laws/PerInstr.lean ====
section
/-! SUPPORT. Every instruction's word has the fixed bits of its row of the opcode table (30_encoding.md R103, R114). -/

namespace Sys2Proof.Laws

/-! ## The fixed bits, format by format -/

theorem encodeNnn_and_F000 (op : BitVec 4) (nnn : BitVec 12) : encodeNnn op nnn &&& 0xF000#16 = encodeNnn op 0x000#12 := by
  have h : (0xF000#16 : Word) = encodeNnn 0xF#4 0x000#12 := by decide
  rw [h, encodeNnn, encodeNnn, encodeNnn, BitVec.and_append, BitVec.and_zero, show (0xF#4) = BitVec.allOnes 4 from rfl,
    BitVec.and_allOnes]

theorem encodeXnn_and_F0FF (op : BitVec 4) (x : Reg) (nn : Byte) : encodeXnn op x nn &&& 0xF0FF#16 = encodeXnn op 0 nn := by
  have h : (0xF0FF#16 : Word) = 0xF#4 ++ (0x0#4 ++ 0xFF#8 : BitVec 12) := by decide
  have z : nibbleOf 0 = 0x0#4 := rfl
  rw [h, encodeXnn, encodeXnn, z, BitVec.and_append, BitVec.and_append, BitVec.and_zero,
    show (0xF#4) = BitVec.allOnes 4 from rfl, show (0xFF#8) = BitVec.allOnes 8 from rfl, BitVec.and_allOnes,
    BitVec.and_allOnes]

theorem encodeXyn_and_F00F (op : BitVec 4) (x y : Reg) (n : BitVec 4) :
    encodeXyn op x y n &&& 0xF00F#16 = encodeXyn op 0 0 n := by
  have h : (0xF00F#16 : Word) = 0xF#4 ++ (0x0#4 ++ (0x0#4 ++ 0xF#4 : BitVec 8) : BitVec 12) := by decide
  have z : nibbleOf 0 = 0x0#4 := rfl
  rw [h, encodeXyn, encodeXyn, z, BitVec.and_append, BitVec.and_append, BitVec.and_append, BitVec.and_zero,
    BitVec.and_zero, show (0xF#4) = BitVec.allOnes 4 from rfl, BitVec.and_allOnes, BitVec.and_allOnes]

/-! ## The rows -/

/-- The fixed bits of an instruction's row: its `mask`. -/
def rowMask : Instr → Word
  | .halt | .cls | .ret => 0xFFFF#16
  | .sys _ | .jp _ | .call _ | .seVxNn _ _ | .sneVxNn _ _ | .ldVxNn _ _ | .addVxNn _ _ | .ldINnn _ | .jpV0 _
  | .rnd _ _ | .drw _ _ _ => 0xF000#16
  | .seVxVy _ _ | .ldVxVy _ _ | .orVxVy _ _ | .andVxVy _ _ | .xorVxVy _ _ | .addVxVy _ _ | .subVxVy _ _
  | .shrVx _ _ | .subnVxVy _ _ | .shlVx _ _ | .sneVxVy _ _ => 0xF00F#16
  | .skp _ | .sknp _ | .ldVxDt _ | .ldVxK _ | .ldDtVx _ | .ldStVx _ | .addIVx _ | .ldFVx _ | .ldBVx _
  | .ldMemIVx _ | .ldVxMemI _ => 0xF0FF#16

/-- What an instruction's row says the fixed bits are: its `match`. -/
def rowMatch : Instr → Word
  | .halt => 0x0000#16
  | .cls => 0x00E0#16
  | .ret => 0x00EE#16
  | .sys _ => 0x0000#16
  | .jp _ => 0x1000#16
  | .call _ => 0x2000#16
  | .seVxNn _ _ => 0x3000#16
  | .sneVxNn _ _ => 0x4000#16
  | .seVxVy _ _ => 0x5000#16
  | .ldVxNn _ _ => 0x6000#16
  | .addVxNn _ _ => 0x7000#16
  | .ldVxVy _ _ => 0x8000#16
  | .orVxVy _ _ => 0x8001#16
  | .andVxVy _ _ => 0x8002#16
  | .xorVxVy _ _ => 0x8003#16
  | .addVxVy _ _ => 0x8004#16
  | .subVxVy _ _ => 0x8005#16
  | .shrVx _ _ => 0x8006#16
  | .subnVxVy _ _ => 0x8007#16
  | .shlVx _ _ => 0x800E#16
  | .sneVxVy _ _ => 0x9000#16
  | .ldINnn _ => 0xA000#16
  | .jpV0 _ => 0xB000#16
  | .rnd _ _ => 0xC000#16
  | .drw _ _ _ => 0xD000#16
  | .skp _ => 0xE09E#16
  | .sknp _ => 0xE0A1#16
  | .ldVxDt _ => 0xF007#16
  | .ldVxK _ => 0xF00A#16
  | .ldDtVx _ => 0xF015#16
  | .ldStVx _ => 0xF018#16
  | .addIVx _ => 0xF01E#16
  | .ldFVx _ => 0xF029#16
  | .ldBVx _ => 0xF033#16
  | .ldMemIVx _ => 0xF055#16
  | .ldVxMemI _ => 0xF065#16

namespace MatchesTableRow

/-- The word of an instruction has the fixed bits of its row. -/
def Statement (i : Instr) : Prop :=
  encode i &&& rowMask i = rowMatch i

theorem halt : Statement .halt := rfl

theorem cls : Statement .cls := rfl

theorem ret : Statement .ret := rfl

theorem sys (nnn : BitVec 12) : Statement (.sys nnn) :=
  encodeNnn_and_F000 _ _

theorem jp (nnn : BitVec 12) : Statement (.jp nnn) :=
  encodeNnn_and_F000 _ _

theorem call (nnn : BitVec 12) : Statement (.call nnn) :=
  encodeNnn_and_F000 _ _

theorem seVxNn (x : Reg) (nn : Byte) : Statement (.seVxNn x nn) :=
  encodeNnn_and_F000 _ _

theorem sneVxNn (x : Reg) (nn : Byte) : Statement (.sneVxNn x nn) :=
  encodeNnn_and_F000 _ _

theorem seVxVy (x : Reg) (y : Reg) : Statement (.seVxVy x y) :=
  encodeXyn_and_F00F _ _ _ _

theorem ldVxNn (x : Reg) (nn : Byte) : Statement (.ldVxNn x nn) :=
  encodeNnn_and_F000 _ _

theorem addVxNn (x : Reg) (nn : Byte) : Statement (.addVxNn x nn) :=
  encodeNnn_and_F000 _ _

theorem ldVxVy (x : Reg) (y : Reg) : Statement (.ldVxVy x y) :=
  encodeXyn_and_F00F _ _ _ _

theorem orVxVy (x : Reg) (y : Reg) : Statement (.orVxVy x y) :=
  encodeXyn_and_F00F _ _ _ _

theorem andVxVy (x : Reg) (y : Reg) : Statement (.andVxVy x y) :=
  encodeXyn_and_F00F _ _ _ _

theorem xorVxVy (x : Reg) (y : Reg) : Statement (.xorVxVy x y) :=
  encodeXyn_and_F00F _ _ _ _

theorem addVxVy (x : Reg) (y : Reg) : Statement (.addVxVy x y) :=
  encodeXyn_and_F00F _ _ _ _

theorem subVxVy (x : Reg) (y : Reg) : Statement (.subVxVy x y) :=
  encodeXyn_and_F00F _ _ _ _

theorem shrVx (x : Reg) (y : Reg) : Statement (.shrVx x y) :=
  encodeXyn_and_F00F _ _ _ _

theorem subnVxVy (x : Reg) (y : Reg) : Statement (.subnVxVy x y) :=
  encodeXyn_and_F00F _ _ _ _

theorem shlVx (x : Reg) (y : Reg) : Statement (.shlVx x y) :=
  encodeXyn_and_F00F _ _ _ _

theorem sneVxVy (x : Reg) (y : Reg) : Statement (.sneVxVy x y) :=
  encodeXyn_and_F00F _ _ _ _

theorem ldINnn (nnn : BitVec 12) : Statement (.ldINnn nnn) :=
  encodeNnn_and_F000 _ _

theorem jpV0 (nnn : BitVec 12) : Statement (.jpV0 nnn) :=
  encodeNnn_and_F000 _ _

theorem rnd (x : Reg) (nn : Byte) : Statement (.rnd x nn) :=
  encodeNnn_and_F000 _ _

theorem drw (x : Reg) (y : Reg) (n : Fin 16) : Statement (.drw x y n) :=
  encodeNnn_and_F000 _ _

theorem skp (x : Reg) : Statement (.skp x) :=
  encodeXnn_and_F0FF _ _ _

theorem sknp (x : Reg) : Statement (.sknp x) :=
  encodeXnn_and_F0FF _ _ _

theorem ldVxDt (x : Reg) : Statement (.ldVxDt x) :=
  encodeXnn_and_F0FF _ _ _

theorem ldVxK (x : Reg) : Statement (.ldVxK x) :=
  encodeXnn_and_F0FF _ _ _

theorem ldDtVx (x : Reg) : Statement (.ldDtVx x) :=
  encodeXnn_and_F0FF _ _ _

theorem ldStVx (x : Reg) : Statement (.ldStVx x) :=
  encodeXnn_and_F0FF _ _ _

theorem addIVx (x : Reg) : Statement (.addIVx x) :=
  encodeXnn_and_F0FF _ _ _

theorem ldFVx (x : Reg) : Statement (.ldFVx x) :=
  encodeXnn_and_F0FF _ _ _

theorem ldBVx (x : Reg) : Statement (.ldBVx x) :=
  encodeXnn_and_F0FF _ _ _

theorem ldMemIVx (x : Reg) : Statement (.ldMemIVx x) :=
  encodeXnn_and_F0FF _ _ _

theorem ldVxMemI (x : Reg) : Statement (.ldVxMemI x) :=
  encodeXnn_and_F0FF _ _ _

end MatchesTableRow

end Sys2Proof.Laws
end

