-- ==== Sys2Proof/Laws/Screen.lean ====
section
/-! SUPPORT. The screen: cells after a toggle, pixel placement, and what the blitter does to one cell. -/

namespace Sys2Proof.Laws

open Sys2Proof.Machine Sys2Proof.Config

@[simp] theorem cell_clearScreen (x : Fin 64) (y : Fin 32) : clearScreen.cell x y = false := by
  simp [clearScreen, Framebuffer.cell]

/-- A toggle flips its own cell and no other. -/
theorem cell_toggle (fb : Framebuffer) (x cx : Fin 64) (y cy : Fin 32) :
    (fb.toggle x y).cell cx cy = if cx = x ∧ cy = y then !fb.cell cx cy else fb.cell cx cy := by
  unfold Framebuffer.toggle Framebuffer.cell
  by_cases hx : cx = x
  · subst hx
    by_cases hy : cy = y
    · subst hy; simp
    · have : (y : Nat) ≠ cy := fun e => hy (Fin.ext e.symm)
      simp [this, hy]
  · have : (x : Nat) ≠ cx := fun e => hx (Fin.ext e.symm)
    simp [this, hx]

/-- `place` computes the formulas of 44_display.md R274. -/
theorem place_eq_some {wrap : SpriteWrap} {px py : Nat} {cx : Fin 64} {cy : Fin 32} :
    place wrap px py = some (cx, cy) ↔ LandsOn wrap px py cx.val cy.val := by
  cases wrap
  · simp [place, LandsOn, Fin.ext_iff, eq_comm]
  · have h1 : (px + 64 * py) % 2048 / 64 < 32 := by omega
    simp only [place, LandsOn, Option.some.injEq, Prod.mk.injEq, Fin.ext_iff, Fin.val_ofNat, Nat.mod_eq_of_lt h1]
    constructor <;> rintro ⟨a, b⟩ <;> exact ⟨a.symm, b.symm⟩
  · by_cases h : px < 64 ∧ py < 32
    · simp only [place, LandsOn, h, and_self, if_true, Option.some.injEq, Prod.mk.injEq, Fin.ext_iff, Fin.val_ofNat,
        Nat.mod_eq_of_lt h.1, Nat.mod_eq_of_lt h.2, true_and]
      constructor <;> rintro ⟨a, b⟩ <;> exact ⟨a.symm, b.symm⟩
    · simp only [place, h, if_false, LandsOn]
      simp only [reduceCtorEq, false_iff]
      tauto

/-- A pixel that lands on no cell changes nothing; one that lands on a cell toggles it and collides with a set one. -/
theorem drawPixel_cell (wrap : SpriteWrap) (px py : Nat) (c : Canvas) (cx : Fin 64) (cy : Fin 32) :
    ((LandsOn wrap px py cx.val cy.val → (drawPixel wrap px py c).fb.cell cx cy = !c.fb.cell cx cy) ∧
    (¬ LandsOn wrap px py cx.val cy.val → (drawPixel wrap px py c).fb.cell cx cy = c.fb.cell cx cy)) := by
  rw [← place_eq_some]
  unfold drawPixel
  cases h : place wrap px py with
  | none => simp
  | some p =>
    obtain ⟨x, y⟩ := p
    simp only [Option.some.injEq, Prod.mk.injEq, cell_toggle]
    constructor
    · rintro ⟨rfl, rfl⟩; simp
    · intro hne
      have : ¬ (cx = x ∧ cy = y) := fun ⟨a, b⟩ => hne ⟨a.symm, b.symm⟩
      simp [this]

/-- The collision after a pixel: the one before, or a set cell under it. -/
theorem drawPixel_collision (wrap : SpriteWrap) (px py : Nat) (c : Canvas) :
    (drawPixel wrap px py c).collision = true ↔
      c.collision = true ∨ ∃ (cx : Fin 64) (cy : Fin 32), LandsOn wrap px py cx.val cy.val ∧ c.fb.cell cx cy = true := by
  simp only [← place_eq_some]
  unfold drawPixel
  cases h : place wrap px py with
  | none => simp
  | some p =>
    obtain ⟨x, y⟩ := p
    simp only [Bool.or_eq_true, Option.some.injEq, Prod.mk.injEq]
    constructor
    · rintro (h | h)
      · exact .inl h
      · exact .inr ⟨x, y, ⟨rfl, rfl⟩, h⟩
    · rintro (h | ⟨_, _, ⟨rfl, rfl⟩, h⟩)
      · exact .inl h
      · exact .inr h

/-! ## Drawing as a set of toggled cells -/

/-- The canvas `c` is `c0` with the cells of `P` toggled, and a collision where one of them was set. -/
structure Drawn (P : Fin 64 → Fin 32 → Prop) (c0 c : Canvas) : Prop where
  on : ∀ x y, P x y → c.fb.cell x y = !c0.fb.cell x y
  off : ∀ x y, ¬ P x y → c.fb.cell x y = c0.fb.cell x y
  hit : c.collision = true ↔ c0.collision = true ∨ ∃ x y, P x y ∧ c0.fb.cell x y = true

theorem drawn_nothing (c : Canvas) : Drawn (fun _ _ => False) c c :=
  ⟨by simp, by simp, by simp⟩

theorem drawn_congr {P Q : Fin 64 → Fin 32 → Prop} {a b : Canvas} (h : Drawn P a b) (e : ∀ x y, P x y ↔ Q x y) :
    Drawn Q a b := by
  have : P = Q := by funext x y; exact propext (e x y)
  rwa [← this]

/-- Drawing two disjoint sets of cells one after the other draws their union. -/
theorem drawn_trans {P Q : Fin 64 → Fin 32 → Prop} {a b c : Canvas} (h : Drawn P a b) (k : Drawn Q b c)
    (disj : ∀ x y, P x y → ¬ Q x y) : Drawn (fun x y => P x y ∨ Q x y) a c := by
  refine ⟨?_, fun x y hn => ?_, ?_⟩
  · rintro x y (p | q)
    · rw [k.off _ _ (disj _ _ p), h.on _ _ p]
    · rw [k.on _ _ q, h.off _ _ (fun p => disj _ _ p q)]
  · rw [k.off _ _ (fun q => hn (.inr q)), h.off _ _ (fun p => hn (.inl p))]
  · rw [k.hit, h.hit]
    constructor
    · rintro ((h1 | ⟨x, y, p, e⟩) | ⟨x, y, q, e⟩)
      · exact .inl h1
      · exact .inr ⟨x, y, .inl p, e⟩
      · exact .inr ⟨x, y, .inr q, by rwa [h.off _ _ (fun p => disj _ _ p q)] at e⟩
    · rintro (h1 | ⟨x, y, p | q, e⟩)
      · exact .inl (.inl h1)
      · exact .inl (.inr ⟨x, y, p, e⟩)
      · exact .inr ⟨x, y, q, by rwa [h.off _ _ (fun p => disj _ _ p q)]⟩

theorem drawn_pixel (wrap : SpriteWrap) (px py : Nat) (c : Canvas) :
    Drawn (fun x y => LandsOn wrap px py x.val y.val) c (drawPixel wrap px py c) :=
  ⟨fun x y => (drawPixel_cell wrap px py c x y).1, fun x y => (drawPixel_cell wrap px py c x y).2,
    drawPixel_collision wrap px py c⟩

/-- Two pixels of one sprite that land on one cell are one pixel: columns lie within 8, rows within 15. -/
theorem landsOn_injective {wrap : SpriteWrap} {x0 y0 r r' c c' x y : Nat} (hr : r < 15) (hr' : r' < 15) (hc : c < 8)
    (hc' : c' < 8) (h : LandsOn wrap (x0 + c) (y0 + r) x y) (h' : LandsOn wrap (x0 + c') (y0 + r') x y) :
    r = r' ∧ c = c' := by
  cases wrap <;> simp only [LandsOn] at h h' <;> omega

theorem drawn_columns (wrap : SpriteWrap) (x0 py : Nat) (b : Byte) (n : Nat) (hn : n ≤ 8) (c : Canvas) :
    Drawn (fun x y => ∃ k, 8 - n ≤ k ∧ k < 8 ∧ b.getLsbD (7 - k) = true ∧ LandsOn wrap (x0 + k) py x.val y.val) c
      (drawColumns wrap x0 py b n c) := by
  induction n generalizing c with
  | zero => exact drawn_congr (drawn_nothing c) (fun x y => by simp; intro k hk hk'; omega)
  | succ n ih =>
    have hstep : Drawn (fun x y => b.getLsbD n = true ∧ LandsOn wrap (x0 + (7 - n)) py x.val y.val) c
        (if b.getLsbD n then drawPixel wrap (x0 + (7 - n)) py c else c) := by
      by_cases hb : b.getLsbD n = true
      · simpa [hb] using drawn_pixel wrap (x0 + (7 - n)) py c
      · simpa [hb] using drawn_nothing c
    rw [drawColumns]
    refine drawn_congr (drawn_trans hstep (ih (by omega) _) ?_) fun x y => ⟨?_, ?_⟩
    · rintro x y ⟨_, h⟩ ⟨k, h1, h2, _, h3⟩
      have := landsOn_injective (y0 := py) (r := 0) (r' := 0) (by omega) (by omega) (by omega) h2 h h3
      omega
    · rintro (⟨h1, h2⟩ | ⟨k, h1, h2, h3⟩)
      · exact ⟨7 - n, by omega, by omega, by rwa [show 7 - (7 - n) = n by omega], h2⟩
      · exact ⟨k, by omega, h2, h3⟩
    · rintro ⟨k, h1, h2, h3, h4⟩
      by_cases hk : k = 7 - n
      · subst hk
        rw [show 7 - (7 - n) = n by omega] at h3
        exact .inl ⟨h3, h4⟩
      · exact .inr ⟨k, by omega, h2, h3, h4⟩

theorem drawn_rows (wrap : SpriteWrap) (x0 y0 : Nat) (m : Memory) (a n r0 : Nat) (hn : r0 + n ≤ 15) (c : Canvas) :
    Drawn (fun x y => ∃ r k, r0 ≤ r ∧ r < r0 + n ∧ k < 8 ∧ (m.get (a + r)).getLsbD (7 - k) = true ∧
        LandsOn wrap (x0 + k) (y0 + r) x.val y.val) c
      (drawRows wrap x0 (y0 + r0) (m.readBytes (a + r0) n) c) := by
  induction n generalizing r0 c with
  | zero => exact drawn_congr (drawn_nothing c) (fun x y => by simp; intro r hr hr'; omega)
  | succ n ih =>
    have h1 := drawn_columns wrap x0 (y0 + r0) (m.get (a + r0)) 8 (by omega) c
    have h2 := ih (r0 + 1) (by omega) (drawColumns wrap x0 (y0 + r0) (m.get (a + r0)) 8 c)
    rw [show y0 + (r0 + 1) = y0 + r0 + 1 by omega, show a + (r0 + 1) = a + r0 + 1 by omega] at h2
    rw [Memory.readBytes, drawRows]
    refine drawn_congr (drawn_trans h1 h2 ?_) fun x y => ⟨?_, ?_⟩
    · rintro x y ⟨k, _, hk, _, hl⟩ ⟨r, k', hr, hr', hk', _, hl'⟩
      have := landsOn_injective (by omega) (by omega) hk hk' hl hl'
      omega
    · rintro (⟨k, _, h1, h2, h3⟩ | ⟨r, k, h1, h2, h3, h4, h5⟩)
      · exact ⟨r0, k, by omega, by omega, h1, h2, h3⟩
      · exact ⟨r, k, by omega, by omega, h3, h4, h5⟩
    · rintro ⟨r, k, h1, h2, h3, h4, h5⟩
      by_cases hr : r = r0
      · subst hr
        exact .inl ⟨k, by omega, h3, h4, h5⟩
      · exact .inr ⟨r, k, by omega, by omega, h3, h4, h5⟩

/-- The blitter toggles exactly the cells that the sprite covers. -/
theorem drawn_sprite (x y : Reg) (n : Fin 16) (s : State) :
    Drawn (fun cx cy => SpriteCovers x y n.val s cx.val cy.val) ⟨s.fb, false⟩ (drawSprite x y n s) := by
  refine drawn_congr (drawn_rows s.cfg.spriteWrap (s.reg x).toNat (s.reg y).toNat s.mem (dataAddress s 0) n.val 0
    (by omega) ⟨s.fb, false⟩) fun cx cy => ⟨?_, ?_⟩
  · rintro ⟨r, k, _, h2, h⟩
    exact ⟨r, k, by omega, h⟩
  · rintro ⟨r, k, h2, h⟩
    exact ⟨r, k, by omega, by omega, h⟩

end Sys2Proof.Laws
end

