-- ==== Sys2Proof/Laws/Step.lean ====
section
/-! SUPPORT. What one step is, move by move, and what an instruction can change. -/

namespace Sys2Proof.Laws

open Sys2Proof.Machine Sys2Proof.Config

theorem step_of_pending {s : State} {m : Move} {rest : List Move} (h : s.pending = m :: rest) :
    step s = perform m { s with pending := rest } := by
  simp [step, h]

theorem step_of_no_pending {s : State} (h : s.pending = []) :
    step s = unscripted s := by
  simp [step, h]

/-- An unscripted step whose host requests a cycle. -/
theorem unscripted_cycle {s : State} (h : s.hostStopped = false) :
    unscripted s = cycle (freeKeys s.inputCount) s.freeTicks := by
  simp [unscripted, h]

/-- An unscripted step whose host has stopped. -/
theorem unscripted_idle {s : State} (h : s.hostStopped = true) : unscripted s = .next s.freeTicks := by
  simp [unscripted, h]

/-- The step of a state whose next move is a cycle request, scripted or not. -/
theorem step_of_cycleBegins {s u : State} {keys : Keys} (h : CycleBegins s keys u) : step s = cycle keys u := by
  obtain ⟨rest, h, rfl⟩ | ⟨h, hh, rfl, rfl⟩ := h
  · rw [step_of_pending h]; rfl
  · rw [step_of_no_pending h, unscripted_cycle hh]; rfl

/-- Nothing a cycle reads, but the timers, differs between the state before the step and the one its cycle begins
in. -/
theorem cycleBegins_frame {s u : State} {keys : Keys} (h : CycleBegins s keys u) :
    u = { s with delay := u.delay, sound := u.sound, pending := u.pending, inputCount := u.inputCount } := by
  obtain ⟨rest, h, rfl⟩ | ⟨h, hh, rfl, rfl⟩ := h <;> rfl

/-- A cycle request, by the kind of the cycle (40_cycle.md R142). -/
theorem cycle_instruction {s : State} (keys : Keys) (hl : s.loadResult ≠ some .romLoadFailure) (hr : s.run = .active)
    (hw : s.waiting = false) : cycle keys s = mapNext State.endCycle (instructionCycle (s.beginCycle keys)) := by
  simp [cycle, hl, hr, hw]

theorem cycle_poll {s : State} (keys : Keys) (hl : s.loadResult ≠ some .romLoadFailure) (hr : s.run = .active)
    (hw : s.waiting = true) : cycle keys s = .next (s.beginCycle keys).poll.endCycle := by
  simp [cycle, hl, hr, hw]

theorem cycle_stopped {s : State} (keys : Keys) (hl : s.loadResult ≠ some .romLoadFailure) (hr : s.run ≠ .active) :
    cycle keys s = .next { s with redraw := false } := by
  simp [cycle, hl, hr]

/-- What a cycle request that answers a next state did. -/
theorem cycle_cases {keys : Keys} {s t : State} (h : cycle keys s = .next t) :
    s.loadResult ≠ some .romLoadFailure ∧
    ((s.run = .active ∧ s.waiting = false ∧
        ∃ u, instructionCycle (s.beginCycle keys) = .next u ∧ t = u.endCycle) ∨
      (s.run = .active ∧ s.waiting = true ∧ t = (s.beginCycle keys).poll.endCycle) ∨
      (s.run ≠ .active ∧ t = { s with redraw := false })) := by
  have hl : s.loadResult ≠ some .romLoadFailure := fun e => by simp [cycle, e] at h
  refine ⟨hl, ?_⟩
  by_cases hr : s.run = .active
  · cases hw : s.waiting with
    | false =>
      rw [cycle_instruction keys hl hr hw] at h
      cases hu : instructionCycle (s.beginCycle keys) with
      | next u =>
        rw [hu] at h
        simp only [mapNext, Host.Outcome.next.injEq] at h
        exact .inl ⟨hr, rfl, u, rfl, h.symm⟩
      | fault r => rw [hu] at h; simp [mapNext] at h
      | refused r => rw [hu] at h; simp [mapNext] at h
    | true =>
      rw [cycle_poll keys hl hr hw] at h
      simp only [Host.Outcome.next.injEq] at h
      exact .inr (.inl ⟨hr, rfl, h.symm⟩)
  · rw [cycle_stopped keys hl hr] at h
    simp only [Host.Outcome.next.injEq] at h
    exact .inr (.inr ⟨hr, h.symm⟩)

/-- The fetch, where both bytes exist. -/
theorem fetchWord_eq {s : State} (h : s.pc.toNat ≤ 0xFFE) :
    s.fetchWord = some (wordOfBytes (s.mem.get s.pc.toNat) (s.mem.get (s.pc.toNat + 1))) := by
  have hm : memSize = 4096 := rfl
  unfold State.fetchWord
  rw [if_pos (by omega)]

/-- What an instruction cycle that answers a next state did. -/
theorem instructionCycle_cases {s t : State} (h : instructionCycle s = .next t) :
    ∃ w, s.fetchWord = some w ∧
      ((∃ i, decode w = .ok i ∧ exec i s = .next t) ∨
        (∃ e, decode w = .error e ∧ t = s.conclude (.malformed .noPattern))) := by
  unfold instructionCycle at h
  cases hw : s.fetchWord with
  | none => simp [hw] at h
  | some w =>
    simp only [hw] at h
    refine ⟨w, rfl, ?_⟩
    cases hd : decode w with
    | ok i => rw [hd] at h; exact .inl ⟨i, rfl, h⟩
    | error e =>
      rw [hd] at h
      simp only [finish, Host.Outcome.next.injEq] at h
      exact .inr ⟨e, rfl, h.symm⟩

/-- What a ROM load that answers a next state did (70_reset_and_hazards.md R384, R385). -/
theorem load_cases {rom : Rom} {s t : State} (h : load rom s = .next t) :
    s.started = false ∧ s.loadResult = none ∧
    (t = { s with loadResult := some .romLoadFailure } ∨
      ∃ b, rom = .bytes b ∧ b.length ≤ romCapacity ∧
        t = { s with mem := s.mem.writeBytes loadAddr b, loadResult := some (.byteCount b.length) }) := by
  unfold load at h
  split at h
  · cases h
  · next hn =>
    simp only [not_or, Bool.not_eq_true, not_not] at hn
    refine ⟨hn.1, hn.2, ?_⟩
    cases rom with
    | ioFailure => simp only [Host.Outcome.next.injEq] at h; exact .inl h.symm
    | bytes b =>
      by_cases hb : romCapacity < b.length
      · simp only [hb, if_true, Host.Outcome.next.injEq] at h
        exact .inl h.symm
      · simp only [hb, if_false, Host.Outcome.next.injEq] at h
        exact .inr ⟨b, rfl, by omega, h.symm⟩

/-- What a step that answers a next state did: a scripted move, or free timer steps and a cycle or nothing. -/
theorem step_cases {s t : State} (h : step s = .next t) :
    (∃ keys rest, s.pending = .cycle keys :: rest ∧ cycle keys { s with pending := rest } = .next t) ∨
    (∃ rest, s.pending = .tickDelay :: rest ∧ t = State.tickDelay { s with pending := rest }) ∨
    (∃ rest, s.pending = .tickSound :: rest ∧ t = State.tickSound { s with pending := rest }) ∨
    (∃ rom rest, s.pending = .load rom :: rest ∧ load rom { s with pending := rest } = .next t) ∨
    (s.pending = [] ∧ s.hostStopped = false ∧ cycle (freeKeys s.inputCount) s.freeTicks = .next t) ∨
    (s.pending = [] ∧ s.hostStopped = true ∧ t = s.freeTicks) := by
  cases hp : s.pending with
  | nil =>
    rw [step_of_no_pending hp] at h
    cases hf : s.hostStopped with
    | false =>
      rw [unscripted_cycle hf] at h
      exact .inr (.inr (.inr (.inr (.inl ⟨rfl, rfl, h⟩))))
    | true =>
      rw [unscripted_idle hf, Host.Outcome.next.injEq] at h
      exact .inr (.inr (.inr (.inr (.inr ⟨rfl, rfl, h.symm⟩))))
  | cons m rest =>
    rw [step_of_pending hp] at h
    cases m with
    | cycle keys => exact .inl ⟨keys, rest, rfl, h⟩
    | tickDelay =>
      simp only [perform, Host.Outcome.next.injEq] at h
      exact .inr (.inl ⟨rest, rfl, h.symm⟩)
    | tickSound =>
      simp only [perform, Host.Outcome.next.injEq] at h
      exact .inr (.inr (.inl ⟨rest, rfl, h.symm⟩))
    | load rom => exact .inr (.inr (.inr (.inl ⟨rom, rest, rfl, h⟩)))

/-! ## What every instruction answers -/

/-- Every instruction's answer is `conclude` of a state after its writes: it leaves pc, run, the wait-state, the keys,
the parameters and the environment's fields to the cycle. -/
theorem exec_is_conclude (i : Instr) (s : State) :
    ∃ u o, exec i s = .next (u.conclude o) ∧ u.pc = s.pc ∧ u.run = s.run ∧ u.waiting = s.waiting ∧
      u.waitReg = s.waitReg ∧ u.keyCur = s.keyCur ∧ u.keyPrev = s.keyPrev ∧ u.cfg = s.cfg ∧ u.pending = s.pending ∧
      u.hostStopped = s.hostStopped ∧ u.inputCount = s.inputCount ∧ u.started = s.started ∧ u.loadResult = s.loadResult ∧
      (∀ k, o = .fault k → u = s) ∧ (∀ c, o = .malformed c → c = .emptyStack) ∧ (o = .terminate → i = .halt) := by
  cases i <;> simp only [exec, execHalt, execCls, execRet, execSys, execJp, execCall, execSeVxNn, execSneVxNn,
    execSeVxVy, execLdVxNn, execAddVxNn, execLdVxVy, execOrVxVy, execAndVxVy, execXorVxVy, execAddVxVy, execSubVxVy,
    execShrVx, execSubnVxVy, execShlVx, execSneVxVy, execLdINnn, execJpV0, execRnd, execDrw, execSkp, execSknp,
    execLdVxDt, execLdVxK, execLdDtVx, execLdStVx, execAddIVx, execLdFVx, execLdBVx, execLdMemIVx, execLdVxMemI,
    skipWhen, finish] <;> (repeat' split) <;>
    refine ⟨_, _, rfl, ?_⟩ <;> simp_all

end Sys2Proof.Laws
end

