-- ==== Sys2Proof/Tests/Slice0.lean ====
section
/-! SUPPORT. Tests. Expected values are those of spec/95_test_vectors.md (the vector is named at each test) or follow
from the bit pictures of 30_encoding.md R103; the last part shows, for every obligation with hypotheses, a state that
meets them. -/

namespace Sys2Proof.Tests

open Sys2Proof.Machine Sys2Proof.Config

/-! ## Helpers -/

/-- The reset state with some registers written. -/
def withRegs (rs : List (Reg × Byte)) : State :=
  rs.foldl (fun s r => s.setReg r.1 r.2) State.reset

/-- The state after an answer, and `reset` with a mark that no test expects where the answer is no next state. -/
def ofNext : Host.Outcome State Fault Refusal → State
  | .next t => t
  | _ => { State.reset with pc := 0xFFFF#16 }

/-- One step that runs the word `w`, placed at pc. -/
def ranWord (w : Nat) (s : State) : State :=
  ofNext (step (s.withFetchWord 16 w))

/-- One step that performs the move `m`. -/
def moved (m : Move) (s : State) : State :=
  ofNext (step { s with pending := [m] })

/-- Exactly the listed keys down. -/
def keysDown (ks : List Nat) : Keys :=
  Vector.ofFn fun k => ks.contains k.val

/-- The pixels `xs` of row `y` that are set. -/
def rowOf (s : State) (y : Fin 32) : List Nat :=
  ((List.finRange 64).filter fun x => s.fb.cell x y).map Fin.val

/-! ## WellFormed: the ill-formed terms are refused -/

theorem test_sys_000_ill_formed : (Instr.sys 0x000#12).wellFormed = false := by decide
theorem test_sys_0E0_ill_formed : (Instr.sys 0x0E0#12).wellFormed = false := by decide
theorem test_sys_0EE_ill_formed : (Instr.sys 0x0EE#12).wellFormed = false := by decide
theorem test_sys_0E1_well_formed : (Instr.sys 0x0E1#12).wellFormed = true := by decide

/-! ## Decode: one word for every constructor, bit by bit from 30_encoding.md R103 -/

theorem test_decode_halt : decode 0b0000000000000000#16 = .ok .halt := by decide
theorem test_decode_cls : decode 0b0000000011100000#16 = .ok .cls := by decide
theorem test_decode_ret : decode 0b0000000011101110#16 = .ok .ret := by decide
theorem test_decode_sys : decode 0b0000000100100011#16 = .ok (.sys 0x123#12) := by decide
theorem test_decode_jp : decode 0b0001010100000000#16 = .ok (.jp 0x500#12) := by decide
theorem test_decode_call : decode 0b0010010100000001#16 = .ok (.call 0x501#12) := by decide
theorem test_decode_seVxNn : decode 0b0011001101000010#16 = .ok (.seVxNn 3 0x42#8) := by decide
theorem test_decode_sneVxNn : decode 0b0100001101000011#16 = .ok (.sneVxNn 3 0x43#8) := by decide
theorem test_decode_seVxVy : decode 0b0101000100100000#16 = .ok (.seVxVy 1 2) := by decide
theorem test_decode_ldVxNn : decode 0b0110111100010010#16 = .ok (.ldVxNn 15 0x12#8) := by decide
theorem test_decode_addVxNn : decode 0b0111000000000001#16 = .ok (.addVxNn 0 0x01#8) := by decide
theorem test_decode_ldVxVy : decode 0b1000000100100000#16 = .ok (.ldVxVy 1 2) := by decide
theorem test_decode_orVxVy : decode 0b1000000100100001#16 = .ok (.orVxVy 1 2) := by decide
theorem test_decode_andVxVy : decode 0b1000000100100010#16 = .ok (.andVxVy 1 2) := by decide
theorem test_decode_xorVxVy : decode 0b1000000100100011#16 = .ok (.xorVxVy 1 2) := by decide
theorem test_decode_addVxVy : decode 0b1000000100100100#16 = .ok (.addVxVy 1 2) := by decide
theorem test_decode_subVxVy : decode 0b1000000100100101#16 = .ok (.subVxVy 1 2) := by decide
theorem test_decode_shrVx : decode 0b1000000100100110#16 = .ok (.shrVx 1 2) := by decide
theorem test_decode_subnVxVy : decode 0b1000000100100111#16 = .ok (.subnVxVy 1 2) := by decide
theorem test_decode_shlVx : decode 0b1000000100101110#16 = .ok (.shlVx 1 2) := by decide
theorem test_decode_sneVxVy : decode 0b1001000100100000#16 = .ok (.sneVxVy 1 2) := by decide
theorem test_decode_ldINnn : decode 0b1010001100000000#16 = .ok (.ldINnn 0x300#12) := by decide
theorem test_decode_jpV0 : decode 0b1011001100000100#16 = .ok (.jpV0 0x304#12) := by decide
theorem test_decode_rnd : decode 0b1100010010101010#16 = .ok (.rnd 4 0xAA#8) := by decide
theorem test_decode_drw : decode 0b1101000100101111#16 = .ok (.drw 1 2 15) := by decide
theorem test_decode_skp : decode 0b1110010110011110#16 = .ok (.skp 5) := by decide
theorem test_decode_sknp : decode 0b1110010110100001#16 = .ok (.sknp 5) := by decide
theorem test_decode_ldVxDt : decode 0b1111000100000111#16 = .ok (.ldVxDt 1) := by decide
theorem test_decode_ldVxK : decode 0b1111001100001010#16 = .ok (.ldVxK 3) := by decide
theorem test_decode_ldDtVx : decode 0b1111001000010101#16 = .ok (.ldDtVx 2) := by decide
theorem test_decode_ldStVx : decode 0b1111001100011000#16 = .ok (.ldStVx 3) := by decide
theorem test_decode_addIVx : decode 0b1111010000011110#16 = .ok (.addIVx 4) := by decide
theorem test_decode_ldFVx : decode 0b1111010100101001#16 = .ok (.ldFVx 5) := by decide
theorem test_decode_ldBVx : decode 0b1111011000110011#16 = .ok (.ldBVx 6) := by decide
theorem test_decode_ldMemIVx : decode 0b1111011101010101#16 = .ok (.ldMemIVx 7) := by decide
theorem test_decode_ldVxMemI : decode 0b1111100001100101#16 = .ok (.ldVxMemI 8) := by decide

/-- E4: the malformed words. -/
theorem test_decode_rejects :
    [0x5121#16, 0x9121#16, 0x8128#16, 0x812F#16, 0xE1A2#16, 0xF1FF#16].all
      (fun w => decode w == .error .noPattern) = true := by decide

/-- E2: the byte at the lower address is the high byte. -/
theorem test_decode_bytes : decodeBytes [0xA3#8, 0x00#8, 0x77#8] = .ok (.ldINnn 0x300#12, [0x77#8]) := by rfl
theorem test_decode_one_byte : decodeBytes [0xA3#8] = .error .tooFewBytes := by rfl

/-- E6. -/
theorem test_encode_drw : encode (.drw 1 2 15) = 0xD12F#16 := by decide

/-! ## Assembly -/

/-- E6, E7. -/
theorem test_assemble : assemble ⟨.drw, [.reg 1, .reg 2, .imm 0xF]⟩ = some 0xD12F#16 := by decide
theorem test_assemble_sys_000 : assemble ⟨.sys, [.imm 0x000]⟩ = none := by decide
/-- The text of lines, by the table of 30_encoding.md R116. -/
theorem test_line_text : (lineOf (.drw 1 2 15)).text = "DRW V1, V2, 0xF" ∧ (lineOf (.ldMemIVx 10)).text = "LD [I], VA" ∧
    (lineOf (.jpV0 0x304#12)).text = "JP V0, 0x304" := by decide

/-! ## Control flow -/

/-- C1. -/
theorem test_halt : (fun t => (t.run, t.pc, t.V)) (ranWord 0x0000 { State.reset with pc := 0x300#16 }) =
    (.terminated, 0x300#16, State.reset.V) := by decide
/-- C2. -/
theorem test_sys : (fun t => (t.run, t.pc, t.stack)) (ranWord 0x0123 State.reset) = (.active, 0x202#16, []) := by decide
/-- C3. -/
theorem test_ret : (fun t => (t.pc, t.stack))
    (ranWord 0x00EE { State.reset with pc := 0x500#16, stack := [0x204#16, 0x202#16] }) = (0x202#16, [0x204#16]) := by
  decide
/-- C4. -/
theorem test_ret_empty : (fun t => (t.pc, t.run)) (ranWord 0x00EE State.reset) =
    (0x200#16, .faulted .emptyCallStackUnderflow) := by decide
/-- C9. -/
theorem test_jp : (fun t => (t.pc, t.run)) (ranWord 0x1FFE State.reset) = (0xFFE#16, .active) := by decide
theorem test_jp_outside : (fun t => (t.pc, t.run)) (ranWord 0x1FFF State.reset) =
    (0x200#16, .faulted .addressBoundsViolation) := by decide
/-- C7. -/
theorem test_call_outside : (fun t => (t.pc, t.run, t.stack)) (ranWord 0x2FFF State.reset) =
    (0x200#16, .faulted .addressBoundsViolation, [0x202#16]) := by decide
/-- C20. -/
theorem test_call_full : (fun t => (t.pc, t.run, t.stack))
    (ranWord 0x2500 { State.reset with
      stack := [0x300#16, 0x400#16], cfg := { thisHardware with stackLimit := some 2 } }) =
    (0x200#16, .faulted .stackOverflow, [0x300#16, 0x400#16]) := by decide
/-- C11, C12: the target is not wrapped. -/
theorem test_jpV0 : (ranWord 0xBFF0 (withRegs [(0, 0x0E#8)])).pc = 0xFFE#16 := by decide
theorem test_jpV0_outside : (fun t => (t.pc, t.run)) (ranWord 0xBFFF (withRegs [(0, 0xFF#8)])) =
    (0x200#16, .faulted .addressBoundsViolation) := by decide
/-- C14, C15, C16. -/
theorem test_seVxNn : [0x3342, 0x3343].map (fun w => (ranWord w (withRegs [(3, 0x42#8)])).pc) = [0x204#16, 0x202#16] := by
  decide
theorem test_sneVxNn : [0x4342, 0x4343].map (fun w => (ranWord w (withRegs [(3, 0x42#8)])).pc) = [0x202#16, 0x204#16] := by
  decide
theorem test_seVxVy : [0x5120, 0x5130].map (fun w => (ranWord w (withRegs [(1, 7#8), (2, 7#8)])).pc) =
    [0x204#16, 0x202#16] := by decide
theorem test_sneVxVy : [0x9120, 0x9130].map (fun w => (ranWord w (withRegs [(1, 7#8), (2, 7#8)])).pc) =
    [0x202#16, 0x204#16] := by decide
/-- C18: the bound of a skip. -/
theorem test_skip_bound : [0xFFA#16, 0xFFC#16].map
    (fun a => (fun t : State => (t.pc, t.run)) (ranWord 0x3000 { State.reset with pc := a })) =
    [(0xFFE#16, .active), (0xFFC#16, .faulted .addressBoundsViolation)] := by decide
/-- C19: the write stays when pc then leaves memory. -/
theorem test_continue_bound : (fun t : State => (t.pc, t.run, t.reg 0))
    (ranWord 0x6042 { State.reset with pc := 0xFFE#16 }) =
    (0xFFE#16, .faulted .addressBoundsViolation, 0x42#8) := by decide

/-! ## Arithmetic: VF = 0x55 before, unless stated -/

/-- V0, VF and pc after a word of group 8, from V0 = a, V1 = b. -/
def alu (w : Nat) (a b : Byte) : Byte × Byte × Word :=
  (fun t => (t.reg 0, t.reg VF, t.pc)) (ranWord w (withRegs [(0, a), (1, b), (VF, 0x55#8)]))

/-- A1, A2. -/
theorem test_ldVxVy : alu 0x8010 0x00#8 0x3C#8 = (0x3C#8, 0x55#8, 0x202#16) := by decide
theorem test_orVxVy : alu 0x8011 0xF0#8 0x3C#8 = (0xFC#8, 0x55#8, 0x202#16) := by decide
theorem test_andVxVy : alu 0x8012 0xF0#8 0x3C#8 = (0x30#8, 0x55#8, 0x202#16) := by decide
theorem test_xorVxVy : alu 0x8013 0xF0#8 0x3C#8 = (0xCC#8, 0x55#8, 0x202#16) := by decide
/-- S1, S9, A6. -/
theorem test_addVxVy : alu 0x8014 0xFF#8 0x01#8 = (0x00#8, 0x01#8, 0x202#16) := by decide
theorem test_addVxVy_same : alu 0x8004 0x80#8 0x01#8 = (0x00#8, 0x01#8, 0x202#16) := by decide
/-- S2. -/
theorem test_subVxVy : alu 0x8015 0x03#8 0x05#8 = (0xFE#8, 0x00#8, 0x202#16) := by decide
theorem test_subVxVy_equal : alu 0x8015 0x07#8 0x07#8 = (0x00#8, 0x01#8, 0x202#16) := by decide
/-- A10, A11. -/
theorem test_subnVxVy : alu 0x8017 0x03#8 0x05#8 = (0x02#8, 0x01#8, 0x202#16) := by decide
theorem test_subnVxVy_borrow : alu 0x8017 0x05#8 0x03#8 = (0xFE#8, 0x00#8, 0x202#16) := by decide
/-- A13, A14. -/
theorem test_shrVx : alu 0x8016 0x02#8 0xFF#8 = (0x01#8, 0x00#8, 0x202#16) := by decide
theorem test_shrVx_bit : alu 0x8006 0x01#8 0x00#8 = (0x00#8, 0x01#8, 0x202#16) := by decide
/-- A16, S3. -/
theorem test_shlVx : alu 0x800E 0x80#8 0x00#8 = (0x00#8, 0x01#8, 0x202#16) := by decide
theorem test_shlVx_no_bit : alu 0x801E 0x40#8 0xFF#8 = (0x80#8, 0x00#8, 0x202#16) := by decide
/-- A7, A15: X = 15 under both orders. -/
theorem test_vf_flag_last :
    ((ranWord 0x8F14 (withRegs [(VF, 0x10#8), (1, 0x20#8)])).reg VF, (ranWord 0x8F06 (withRegs [(VF, 0x02#8)])).reg VF) =
    (0x00#8, 0x00#8) := by decide
theorem test_vf_result_last :
    ((ranWord 0x8F14 { withRegs [(VF, 0x10#8), (1, 0x20#8)] with
        cfg := { thisHardware with vfOrder := .resultLast } }).reg VF,
      (ranWord 0x8F06 { withRegs [(VF, 0x02#8)] with cfg := { thisHardware with vfOrder := .resultLast } }).reg VF) =
    (0x30#8, 0x01#8) := by decide
/-- A18, A19. -/
theorem test_ldVxNn : (ranWord 0x6F12 State.reset).reg VF = 0x12#8 := by decide
theorem test_addVxNn : alu 0x7001 0xFF#8 0x00#8 = (0x00#8, 0x55#8, 0x202#16) := by decide
/-- A21. -/
theorem test_rnd : (fun t : State => (t.reg 0, t.rand)) (ranWord 0xC00F { State.reset with rand := [0xAB#8, 0x01#8] }) =
    (0x0B#8, [0x01#8]) := by decide

/-! ## I and memory -/

/-- `n` bytes of memory from address `a`. -/
def bytesAt (a n : Nat) (s : State) : List Byte :=
  (List.range n).map fun k => s.mem.get (a + k)

/-- M1. -/
theorem test_ldINnn : (ranWord 0xAFFF State.reset).I = 0x0FFF#16 := by decide
/-- M2, M3. -/
theorem test_addIVx_past_memory : (fun t : State => (t.I, t.run))
    (ranWord 0xF01E { withRegs [(0, 1#8)] with I := 0x0FFF#16 }) = (0x1000#16, .active) := by decide
theorem test_addIVx_wraps : (fun t : State => (t.I, t.reg VF))
    (ranWord 0xF01E { withRegs [(0, 2#8)] with I := 0xFFFF#16 }) = (0x0001#16, 0x00#8) := by decide
/-- M4. -/
theorem test_ldFVx : [0x0F#8, 0x10#8, 0xFF#8].map (fun v => (ranWord 0xF029 (withRegs [(0, v)])).I) =
    [0x04B#16, 0x050#16, 0x4FB#16] := by decide
/-- S4, M6. -/
theorem test_ldBVx : (fun t : State => (bytesAt 0xFFD 3 t, t.I))
    (ranWord 0xF033 { withRegs [(0, 123#8)] with I := 0xFFD#16 }) = ([1#8, 2#8, 3#8], 0xFFD#16) := by decide
/-- M7. -/
theorem test_ldBVx_outside : (fun t : State => (t.run, t.pc, bytesAt 0xFFE 2 t))
    (ranWord 0xF033 { withRegs [(0, 123#8)] with I := 0xFFE#16 }) =
    (.faulted .memoryBoundsViolation, 0x200#16, [0#8, 0#8]) := by decide
/-- S7 (the store), M13. -/
theorem test_ldMemIVx : (fun t : State => (bytesAt 0x300 4 t, t.I))
    (ranWord 0xF255 { withRegs [(0, 0x11#8), (1, 0x22#8), (2, 0x33#8), (3, 0x44#8)] with I := 0x300#16 }) =
    ([0x11#8, 0x22#8, 0x33#8, 0x00#8], 0x300#16) := by decide
theorem test_ldMemIVx_increments : (ranWord 0xF255 { State.reset with
    I := 0x300#16, cfg := { thisHardware with loadStoreIncrementsI := true } }).I = 0x303#16 := by decide
/-- S7 (the load; the bytes are glyph 1 of the font, 10_state.md R44), M12. -/
theorem test_ldVxMemI : (fun t : State => (t.reg 0, t.reg 1, t.reg 2, t.I))
    (ranWord 0xF165 { State.reset with I := 0x005#16 }) = (0x20#8, 0x60#8, 0x00#8, 0x005#16) := by decide
theorem test_ldVxMemI_outside : (ranWord 0xF065 { State.reset with I := 0xFFFF#16 }).run =
    .faulted .memoryBoundsViolation := by decide

/-! ## Display -/

/-- Glyph A at (5, 3) after D2, drawn over `s`. -/
def glyphA (s : State) : State :=
  ranWord 0xD015 { (s.setReg 0 5#8).setReg 1 3#8 with I := 0x032#16, pc := 0x200#16 }

/-- The pixel rows of D8: one byte 0xFF at 0x300, drawn at (62, 31). -/
def edgeByte (wrap : SpriteWrap) : State :=
  ranWord 0xD011 { withRegs [(0, 62#8), (1, 31#8)] with
    I := 0x300#16, mem := State.reset.mem.set 0x300 0xFF#8, cfg := { thisHardware with spriteWrap := wrap } }

/-- D1. -/
theorem test_cls : (fun t : State => (t.fb, t.redraw, t.reg VF, t.pc))
    (ranWord 0x00E0 { withRegs [(VF, 0x55#8)] with fb := State.reset.fb.toggle 3 4 }) =
    (clearScreen, true, 0x55#8, 0x202#16) := by decide
/-- D2: row 3 is x 5 to 8, row 4 is x 5 and 8; then D3. -/
theorem test_drw_glyph : (fun t : State => (rowOf t 3, rowOf t 4, t.reg VF, t.redraw)) (glyphA State.reset) =
    ([5, 6, 7, 8], [5, 8], 0x00#8, true) := by decide
theorem test_drw_erases : (fun t : State => (t.fb, t.reg VF)) (glyphA (glyphA State.reset)) = (clearScreen, 0x01#8) := by
  decide
/-- D8, D9, D10. -/
theorem test_wrap_per_axis : (rowOf (edgeByte .perAxis) 31, rowOf (edgeByte .perAxis) 0) =
    ([0, 1, 2, 3, 4, 5, 62, 63], []) := by decide
theorem test_wrap_flat_modulo : (rowOf (edgeByte .flatModulo) 31, rowOf (edgeByte .flatModulo) 0) =
    ([62, 63], [0, 1, 2, 3, 4, 5]) := by decide
theorem test_wrap_clip : (rowOf (edgeByte .clip) 31, rowOf (edgeByte .clip) 0) = ([62, 63], []) := by decide
/-- R271, step by step (log 21): the one covered cell (0, 0) is set before; the first draw clears it and collides, the
second sets it and does not. -/
theorem test_drw_twice_on_set_cell :
    (fun s : State => (fun t : State => (t.reg VF, (ofNext (execDrw 0 1 1 t)).reg VF)) (ofNext (execDrw 0 1 1 s)))
      { State.reset with I := 0x300#16, mem := State.reset.mem.set 0x300 0x80#8, fb := clearScreen.toggle 0 0 } =
    (0x01#8, 0x00#8) := by decide
/-- D5, D7. -/
theorem test_drw_no_rows : (fun t : State => (t.fb, t.reg VF, t.redraw, t.pc))
    (ranWord 0xD010 { withRegs [(VF, 0x55#8)] with I := 0xFFFF#16 }) = (clearScreen, 0x00#8, true, 0x202#16) := by decide
theorem test_drw_outside : (fun t : State => (t.run, t.reg VF, t.redraw))
    (ranWord 0xD012 { withRegs [(VF, 0x55#8)] with I := 0xFFF#16 }) =
    (.faulted .memoryBoundsViolation, 0x55#8, false) := by decide

/-! ## Timers and keys -/

/-- T1, T2, T3. -/
theorem test_ldVxDt : (ranWord 0xF107 { State.reset with delay := 0x3C#8 }).reg 1 = 0x3C#8 := by decide
theorem test_ldDtVx : (fun t : State => (t.delay, t.sound)) (ranWord 0xF015 (withRegs [(0, 60#8)])) = (60#8, 0#8) := by
  decide
theorem test_ldStVx : (fun t : State => (t.delay, t.sound, t.toneOn)) (ranWord 0xF318 (withRegs [(3, 10#8)])) =
    (0#8, 10#8, true) := by decide
/-- T4. -/
theorem test_tickDelay : [1#8, 0#8].map (fun d => (moved .tickDelay { State.reset with delay := d, sound := 9#8 }).delay) =
    [0#8, 0#8] := by decide
/-- T5, T6. -/
theorem test_casDecrement : (casDecrement 5#8 9#8, casDecrement 5#8 5#8) = (9#8, 4#8) := by decide
/-- T8, T9: the level in the cycle's own key vector. -/
theorem test_skp : [[7], []].map (fun ks => ofNext (execSkp 5 { withRegs [(5, 7#8)] with keyCur := keysDown ks }) |>.pc) =
    [0x204#16, 0x202#16] := by decide
theorem test_sknp : [[7], []].map (fun ks => ofNext (execSknp 5 { withRegs [(5, 7#8)] with keyCur := keysDown ks }) |>.pc) =
    [0x202#16, 0x204#16] := by decide
/-- T10, P8. -/
theorem test_skp_no_key : (fun t : State => (t.run, t.pc)) (ranWord 0xE59E (withRegs [(5, 0x10#8)])) =
    (.faulted .keyIndexOutOfRange, 0x200#16) := by decide
/-- T12, T13. -/
theorem test_ldVxK_edge : (fun t : State => (t.reg 3, t.pc, t.waiting))
    (ofNext (execLdVxK 3 { State.reset with keyCur := keysDown [4] })) = (4#8, 0x202#16, false) := by decide
theorem test_ldVxK_waits : (fun t : State => (t.outcome, t.waiting, t.waitReg, t.pc))
    (ofNext (execLdVxK 3 { State.reset with keyCur := keysDown [4], keyPrev := keysDown [4] })) =
    (some (.waitingForKey 3), true, 3, 0x200#16) := by decide

/-! ## The cycle -/

/-- A state that waits on V3 after an FX0A at pc. -/
def waitingOnV3 : State :=
  { State.reset with waiting := true, waitReg := 3, started := true }

/-- T14: the lowest index. -/
theorem test_poll_lowest_key : (fun t : State => (t.reg 3, t.waiting, t.pc, t.keyPrev))
    (moved (.cycle (keysDown [9, 3])) waitingOnV3) = (3#8, false, 0x202#16, keysDown [3, 9]) := by decide
/-- T15. -/
theorem test_poll_release_is_no_edge : (fun t : State => (t.waiting, t.pc, t.keyPrev))
    (moved (.cycle noKeys) { waitingOnV3 with keyPrev := keysDown [4] }) = (true, 0x200#16, noKeys) := by decide
/-- T16. -/
theorem test_poll_scan_count : [KeyScan.sixteen, KeyScan.fifteen].map (fun n =>
    (fun t : State => (t.waiting, t.reg 3))
      (moved (.cycle (keysDown [15])) { waitingOnV3 with cfg := { thisHardware with keyScan := n } })) =
    [(false, 15#8), (true, 0#8)] := by decide
/-- T17. -/
theorem test_poll_bound : (fun t : State => (t.reg 3, t.waiting, t.run, t.pc))
    (moved (.cycle (keysDown [2])) { waitingOnV3 with pc := 0xFFE#16 }) =
    (2#8, false, .faulted .addressBoundsViolation, 0xFFE#16) := by decide
/-- Y1. -/
theorem test_stopped_keeps_keys : (fun t : State => (t.keyCur, t.keyPrev, t.pc))
    (moved (.cycle (keysDown [1])) { State.reset with run := .terminated }) = (noKeys, noKeys, 0x200#16) := by decide
/-- Y4, Y5: outcome code, run code and fault kind. -/
theorem test_malformed_status : [0x5121, 0x00EE].map (fun w =>
    (fun t : State => (t.outcome.map outcomeCode, t.status.run, t.status.faultKind)) (ranWord w State.reset)) =
    [(some 4#3, 2#2, 1#3), (some 4#3, 2#2, 3#3)] := by decide
/-- Y6, Y9. -/
theorem test_key_wait_from_reset : [[], [5]].map (fun ks =>
    (fun t : State => (t.waiting, t.reg 0))
      (moved (.cycle (keysDown ks)) { State.reset with mem := State.reset.mem.writeBytes 0x200 [0xF0#8, 0x0A#8] })) =
    [(true, 0#8), (false, 5#8)] := by decide
/-- A load places its bytes at 0x200 (70_reset_and_hazards.md R384), and the next cycle runs them. -/
theorem test_load_then_cycle : (fun t : State => (t.reg 0, t.loadResult))
    (ofNext (step (ofNext (step { State.reset with
      pending := [.load (.bytes [0x60#8, 0x42#8]), .cycle noKeys] })))) = (0x42#8, some (.byteCount 2)) := by decide
/-- Y7, with an I/O failure: no cycle is offered afterwards. -/
theorem test_failed_load : step { State.reset with
    loadResult := some .romLoadFailure, pending := [.cycle noKeys] } = .refused .cycleAfterRomLoadFailure := by rfl

/-! ## Witnesses: every hypothesis of every obligation is met somewhere -/

/-- A state at pc 0x200 with the word 0x6012 there and one scripted cycle. -/
def readyToLoad : State :=
  { State.reset with
    mem := State.reset.mem.writeBytes 0x200 [0x60#8, 0x12#8], pending := [.cycle (keysDown [1])], started := true }

theorem witness_DecodeOfEncode : (Instr.sys 0xFFF#12).wellFormed = true := by decide

theorem witness_EncodeOfDecode : decode 0x6012#16 = .ok (.ldVxNn 0 0x12#8) := by decide

theorem witness_AssemblyLines : (Instr.sys 0x0E1#12).wellFormed = true ∧
    assemble ⟨.ld, [.reg 15, .imm 0xFF]⟩ = some 0x6FFF#16 := by decide

theorem witness_StepRuns_scripted :
    CycleBegins readyToLoad (keysDown [1]) { readyToLoad with pending := [] } ∧
    readyToLoad.loadResult ≠ some .romLoadFailure ∧ readyToLoad.run = .active ∧ readyToLoad.waiting = false ∧
    readyToLoad.pc.toNat ≤ 0xFFE ∧
    decode (wordOfBytes (readyToLoad.mem.get readyToLoad.pc.toNat) (readyToLoad.mem.get (readyToLoad.pc.toNat + 1))) =
      .ok (.ldVxNn 0 0x12#8) :=
  ⟨.inl ⟨[], rfl, rfl⟩, by decide, by decide, by decide, by decide, by decide⟩

/-- Every state with nothing scripted, whose host has not stopped, begins an unscripted cycle: the second clause of
`CycleBegins`, which the witnesses below share. -/
theorem unscripted_begins (s : State) (hp : s.pending = []) (hh : s.hostStopped = false) :
    CycleBegins s (freeKeys s.inputCount) s.freeTicks :=
  .inr ⟨hp, hh, rfl, rfl⟩

/-- At the last fetchable address, with nothing scripted. -/
theorem witness_StepRuns_unscripted :
    (fun s : State => CycleBegins s (freeKeys s.inputCount) s.freeTicks ∧ s.loadResult ≠ some .romLoadFailure ∧
      s.run = .active ∧ s.waiting = false ∧ s.pc.toNat ≤ 0xFFE ∧
      decode (wordOfBytes (s.mem.get s.pc.toNat) (s.mem.get (s.pc.toNat + 1))) = .ok .halt)
      { State.reset with pc := 0xFFE#16 } :=
  ⟨unscripted_begins _ rfl rfl, by decide, by decide, by decide, by decide, by decide⟩

theorem witness_MalformedCauses :
    (fun s : State => CycleBegins s noKeys { s with pending := [] } ∧ s.loadResult ≠ some .romLoadFailure ∧
      s.run = .active ∧ s.waiting = false ∧ s.pc.toNat ≤ 0xFFE ∧
      decode (wordOfBytes (s.mem.get s.pc.toNat) (s.mem.get (s.pc.toNat + 1))) = .error .noPattern)
      { State.reset with
        mem := State.reset.mem.writeBytes 0xFFE [0x51#8, 0x21#8], pc := 0xFFE#16, pending := [.cycle noKeys] } ∧
    State.reset.stack.getLast? = none ∧
    ({ State.reset with stack := [0x0000#16] } : State).stack.getLast? = some 0x0000#16 := by
  exact ⟨⟨.inl ⟨[], rfl, rfl⟩, by decide, by decide, by decide, by decide, by decide⟩, by decide, by decide⟩

/-- An edge on the last scanned key, and none at all, in a scripted poll; an unscripted poll. -/
theorem witness_PollCycle :
    CycleBegins { waitingOnV3 with pending := [.cycle (keysDown [15])] } (keysDown [15]) waitingOnV3 ∧
    CycleBegins waitingOnV3 (freeKeys 0) waitingOnV3.freeTicks ∧
    waitingOnV3.loadResult ≠ some .romLoadFailure ∧ waitingOnV3.run = .active ∧ waitingOnV3.waiting = true ∧
    IsFirstEdge { waitingOnV3 with pending := [.cycle (keysDown [15])], keyCur := keysDown [15] } 15 ∧
    NoEdge { waitingOnV3 with pending := [.cycle noKeys], keyCur := noKeys } := by
  refine ⟨.inl ⟨[], rfl, rfl⟩, unscripted_begins waitingOnV3 rfl rfl, by decide, by decide, by decide,
    ⟨by decide, by decide, by decide, by decide⟩, ?_⟩
  unfold NoEdge
  decide

theorem witness_KeySnapshot : CycleBegins readyToLoad (keysDown [1]) { readyToLoad with pending := [] } ∧
    readyToLoad.run = .active ∧ ∃ t, step readyToLoad = .next t :=
  ⟨.inl ⟨[], rfl, rfl⟩, rfl, _, rfl⟩

/-- A stopped state that satisfies the invariant. -/
def halted : State :=
  { State.reset with run := .terminated, started := true, pending := [.cycle noKeys] }

theorem halted_inv : Inv halted where
  memWf := rfl
  pcInMemory := by decide
  stackEntries := by intro e h; cases h
  stackWithinLimit := by intro n h; cases h
  waitingIsActive := by intro h; cases h
  activeBeforeStart := by intro h; cases h
  noCycleAfterFailure := by intro h; cases h

/-- Scripted and unscripted. -/
theorem witness_StoppedRun : CycleBegins halted noKeys { halted with pending := [] } ∧
    CycleBegins { halted with pending := [] } (freeKeys 0) ({ halted with pending := [] } : State).freeTicks ∧
    halted.loadResult ≠ some .romLoadFailure ∧ halted.run ≠ .active :=
  ⟨.inl ⟨[], rfl, rfl⟩, unscripted_begins { halted with pending := [] } rfl rfl, by decide, by decide⟩

theorem witness_StoppedIsPermanent : Inv halted ∧ halted.run ≠ .active ∧ ∃ t, step halted = .next t :=
  ⟨halted_inv, by decide, _, rfl⟩

/-- Reset memory holds 0x0000 at pc. -/
theorem witness_OnlyTheHaltWord : ∃ t, step { State.reset with pending := [.cycle noKeys] } = .next t ∧
    ({ State.reset with pending := [.cycle noKeys] } : State).run ≠ .terminated ∧ t.run = .terminated :=
  ⟨_, rfl, by decide, rfl⟩

/-- A state with something in every clause of the invariant: a listed byte, the last fetchable pc, a full stack, a
wait. -/
def busy : State :=
  { State.reset with
    mem := State.reset.mem.set 0xFFF 0x01#8, pc := 0xFFE#16, stack := [0x002#16, 0x1000#16], waiting := true
    cfg := { thisHardware with stackLimit := some 2 }, started := true, pending := [.cycle (keysDown [0])] }

theorem busy_inv : Inv busy where
  memWf := by decide
  pcInMemory := by decide
  stackEntries := by simp [busy, memSize]
  stackWithinLimit := by intro n h; simp only [busy, Option.some.injEq] at h; cases h; decide
  waitingIsActive := fun _ => rfl
  activeBeforeStart := by intro h; cases h
  noCycleAfterFailure := by intro h; cases h

theorem witness_Invariant : Inv busy ∧ ∃ t, step busy = .next t :=
  ⟨busy_inv, _, rfl⟩

theorem witness_ExecIgnores : namesI .cls = false ∧ namesStack .cls = false ∧ namesMemory .cls = false ∧
    namesDelay .cls = false ∧ namesSound .cls = false ∧ namesKeys .cls = false ∧ namesKeySnapshot (.skp 0) = false ∧
    namesScreen .ret = false := by decide

theorem witness_HandlerFaults : ∃ t, exec (.ldBVx 0) { State.reset with I := 0xFFE#16 } = .next t ∧
    t.outcome = some (.fault .memoryBoundsViolation) :=
  ⟨_, rfl, by decide⟩

theorem witness_OnlyClsAndDrw : ∃ t, exec (.drw 0 0 1) { State.reset with I := 0xFFF#16 } = .next t ∧ t.redraw = true :=
  ⟨_, rfl, by decide⟩

theorem witness_EarlierCheck :
    (fun s : State => s.cfg.stackLimit = some 0 ∧ s.stack.length = 0)
      { State.reset with cfg := { thisHardware with stackLimit := some 0 } } ∧
    (fun s : State => s.pc.toNat = 0xFFE ∧ memSize ≤ s.I.toNat + (1 : Fin 16).val - 1)
      { State.reset with pc := 0xFFE#16, I := 0x1000#16 } := by
  exact ⟨⟨by decide, by decide⟩, by decide, by decide⟩

theorem witness_Sys : 0x0E1#12 ≠ 0x000#12 ∧ 0x0E1#12 ≠ 0x0E0#12 ∧ 0x0E1#12 ≠ 0x0EE#12 := by decide

/-- The three clauses of RET. -/
theorem witness_Ret :
    ({ State.reset with stack := [0x202#16] } : State).stack = [] ++ [0x202#16] ∧ 0x202#16 ≠ 0x0000#16 ∧
    ({ State.reset with stack := [0x000#16] } : State).stack = [] ++ [0x0000#16] ∧ State.reset.stack = [] := by decide

theorem witness_Call :
    (fun s : State => s.pc.toNat ≤ 0xFFE ∧ s.cfg.stackLimit ≠ some s.stack.length)
      { State.reset with pc := 0xFFE#16 } ∧
    (fun s : State => s.pc.toNat ≤ 0xFFE ∧ s.cfg.stackLimit = some s.stack.length)
      { State.reset with stack := [0x202#16], cfg := { thisHardware with stackLimit := some 1 } } := by
  exact ⟨⟨by decide, by decide⟩, by decide, by decide⟩

/-- S5 with N = 2: the first target and pc where two more bytes still fit, the last target at the last fetchable
address. -/
theorem witness_MatchedCalls : [0xFFC#12, 0xFFE#12] ≠ [] ∧ State.reset.cfg.stackLimit = none ∧
    State.reset.run = .active ∧ State.reset.pc.toNat + 2 ≤ 0xFFE ∧
    (∀ a ∈ [0xFFC#12, 0xFFE#12], a.toNat ≤ 0xFFE) ∧ ∀ a ∈ [0xFFC#12, 0xFFE#12].dropLast, a.toNat + 2 ≤ 0xFFE := by decide

theorem witness_Skips : (State.reset.reg 3 = 0x00#8 ∧ State.reset.reg 3 ≠ 0x42#8) ∧
    (State.reset.reg 1 = State.reset.reg 2 ∧ (withRegs [(1, 7#8)]).reg 1 ≠ (withRegs [(1, 7#8)]).reg 2) := by decide

theorem witness_RandomByte : (readyToLoad.rand = [] ∧ (0x0F#8).getLsbD 7 = false) ∧
    ({ State.reset with rand := [0xAB#8] } : State).rand = 0xAB#8 :: [] := by decide

/-- FX33 at the last address where it fits and the first where it does not. -/
theorem witness_Bcd : (0xFFD#16).toNat + 2 < memSize ∧ memSize ≤ (0xFFE#16).toNat + 2 := by decide

/-- FX55 and FX65 with X = 15 at the last address where they fit and the first where they do not, and both values of
the parameter. -/
theorem witness_Bulk : (0xFF0#16).toNat + (15 : Reg).val < memSize ∧ memSize ≤ (0xFF1#16).toNat + (15 : Reg).val ∧
    State.reset.cfg.loadStoreIncrementsI = false ∧
    ({ thisHardware with loadStoreIncrementsI := true } : Params).loadStoreIncrementsI = true := by decide

/-- The load may follow at once: the state after the store meets its hypotheses. -/
theorem witness_StoreThenLoad : State.reset.cfg.loadStoreIncrementsI = false ∧
    State.reset.I.toNat + (15 : Reg).val < memSize ∧
    ∃ t, exec (.ldMemIVx 15) State.reset = .next t ∧ t.cfg = State.reset.cfg ∧ t.I = State.reset.I :=
  ⟨rfl, by decide, _, rfl, rfl, rfl⟩

/-- Up to the last fetchable address, with a store that overlaps the next word in one byte and one that ends at the top
of memory. -/
theorem witness_StoredWord :
    (fun s : State => s.pc.toNat + 2 ≤ 0xFFE ∧ s.I.toNat + (0 : Reg).val < memSize ∧
      storedOver s s.I.toNat (s.V.toList.take 1) (s.pc.toNat + 3) = 0x42#8)
      { withRegs [(0, 0x42#8)] with pc := 0xFFC#16, I := 0xFFF#16 } ∧
    (0xFFD#16).toNat + 2 < memSize := by
  exact ⟨⟨by decide, by decide, by decide⟩, by decide⟩

/-- An FX33 that overlaps the next word: pc 0x200, I 0x203, so the low byte of the next word is the hundreds digit. -/
theorem test_bcd_over_next_word : (fun t : State => (t.pc, t.fetchWord))
    (ranWord 0xF033 { withRegs [(0, 223#8)] with I := 0x203#16 }) = (0x202#16, some 0x0002#16) := by decide

/-- A ROM of exactly 3584 bytes, one of 3585, a second load and a cycle after a failure. -/
theorem witness_RomLoad :
    (State.reset.started = false ∧ State.reset.loadResult = none ∧ (List.replicate 3584 0x00#8).length ≤ 3584 ∧
      3584 < (List.replicate 3585 0x00#8).length) ∧
    ({ State.reset with loadResult := some (.byteCount 0) } : State).loadResult ≠ none ∧
    ({ State.reset with loadResult := some .romLoadFailure, pending := [.cycle noKeys] } : State).loadResult =
      some .romLoadFailure := by
  refine ⟨⟨rfl, rfl, ?_, ?_⟩, by decide, rfl⟩ <;> simp only [List.length_replicate] <;> decide

/-- DRW: no rows with I anywhere, the last address where 15 rows fit, and the first where they do not. -/
theorem witness_Drw : (0 : Fin 16).val = 0 ∧ (0xFF1#16).toNat + (15 : Fin 16).val - 1 < memSize ∧
    (0 < (15 : Fin 16).val ∧ memSize ≤ (0xFF2#16).toNat + (15 : Fin 16).val - 1) := by decide

/-- Two positions of one sprite past the corner of the screen. -/
theorem witness_SpritePixels : place .perAxis (62 + 7) (31 + 14) = some (5, 13) ∧
    place .flatModulo (62 + 7) (31 + 14) = some (5, 14) ∧ place .clip (62 + 1) (31 + 0) = some (63, 31) := by decide

/-- The reset state with I at glyph 0: bit 7 of its first row covers cell (0, 0), which is unset. -/
theorem witness_SecondDraw : (0 : Reg) ≠ VF ∧ (1 : Reg) ≠ VF ∧ State.reset.I.toNat + (5 : Fin 16).val - 1 < memSize ∧
    SpriteCovers 0 1 (5 : Fin 16).val State.reset 0 0 ∧ State.reset.fb.cell 0 0 = false ∧
    ∃ t u, exec (.drw 0 1 5) State.reset = .next t ∧ exec (.drw 0 1 5) t = .next u ∧ t.reg VF = 0x00#8 :=
  ⟨by decide, by decide, by decide, ⟨0, 0, by decide, by decide, by decide, by decide, by decide⟩, by decide, _, _, rfl, rfl,
    by decide⟩

theorem witness_TimerSteps :
    ({ State.reset with pending := [.tickDelay], run := .terminated } : State).pending = .tickDelay :: [] ∧
    ({ State.reset with pending := [.tickSound], waiting := true } : State).pending = .tickSound :: [] := by
  exact ⟨rfl, rfl⟩

/-- Key indexes 15 and 16, and both levels. -/
theorem witness_KeySkips : ((withRegs [(5, 15#8)]).reg 5).toNat ≤ 15 ∧ 15 < ((withRegs [(5, 16#8)]).reg 5).toNat ∧
    keyDown (keysDown [15]) 15 = true ∧ keyDown noKeys 15 = false := by decide

theorem witness_KeyWait : IsFirstEdge { State.reset with keyCur := keysDown [15, 2], keyPrev := keysDown [2] } 15 ∧
    NoEdge { State.reset with keyCur := keysDown [4], keyPrev := keysDown [4] } := by
  refine ⟨⟨by decide, by decide, by decide, by decide⟩, ?_⟩
  unfold NoEdge
  decide

/-- A stopped run whose counters are 0: every step is an unscripted cycle that changes nothing but the count. -/
def idleRun (n : Nat) : State :=
  { State.reset with run := .terminated, started := true, inputCount := n }

theorem countDownBy_zero (k : Nat) : countDownBy 0x00#8 k = 0x00#8 := by
  simp only [countDownBy, BitVec.toNat_ofNat, Nat.zero_mod, Nat.zero_sub]

theorem idleRun_step (n : Nat) : step (idleRun n) = .next (idleRun (n + 1)) := by
  simp [step, idleRun, State.reset, State.construct, unscripted, cycle, State.freeTicks, countDownBy_zero]

/-- A stopped run in which both counters are 1, each with a scripted tick, before it is the idle run. -/
def tickingRun : Nat → State
  | 0 => { idleRun 0 with delay := 1#8, sound := 1#8, pending := [.tickDelay, .tickSound] }
  | 1 => { idleRun 0 with sound := 1#8, pending := [.tickSound] }
  | n + 2 => idleRun n

theorem witness_FairTimers :
    IsRun tickingRun ∧ FairTimers tickingRun ∧ (∀ m, 0 ≤ m → (tickingRun m).run ≠ .active) ∧
    (tickingRun 0).delay ≠ 0x00#8 ∧ (tickingRun 1).sound ≠ 0x00#8 := by
  refine ⟨fun n => ?_, ⟨fun n h => absurd rfl (h (n + 2) (by omega)), fun n h => absurd rfl (h (n + 2) (by omega))⟩,
    fun m _ => ?_, by decide, by decide⟩
  · match n with
    | 0 => rfl
    | 1 => rfl
    | n + 2 => exact idleRun_step n
  · match m with
    | 0 => simp [tickingRun, idleRun]
    | 1 => simp [tickingRun, idleRun]
    | m + 2 => simp [tickingRun, idleRun]

/-- A run whose host has stopped: it stands at its first instruction for good. -/
def abandonedRun (n : Nat) : State :=
  { State.reset with started := true, hostStopped := true, inputCount := n }

theorem witness_WithoutCycleRequests :
    ((abandonedRun 0).pending = [] ∧ (abandonedRun 0).hostStopped = true) ∧
    IsRun abandonedRun ∧ (abandonedRun 0).started = true ∧ ∀ m, 0 ≤ m → ¬ RequestsCycle (abandonedRun m) := by
  refine ⟨⟨rfl, rfl⟩, fun n => ?_, rfl, fun m _ ⟨keys, u, h⟩ => ?_⟩
  · simp [step, abandonedRun, State.reset, State.construct, unscripted, State.freeTicks, countDownBy_zero]
  · obtain ⟨rest, h, -⟩ | ⟨-, h, -⟩ := h
    · simp [abandonedRun, State.reset, State.construct] at h
    · simp [abandonedRun] at h

/-- A run that stands at the word 0x0000 with nothing scripted: its first step halts, and the host goes on. -/
def haltingRun : Nat → State
  | 0 => { State.reset with started := true }
  | n + 1 => { idleRun (n + 1) with keyCur := freeKeys 0, keyPrev := freeKeys 0, outcome := some .terminate }

theorem witness_HaltIsReached :
    IsRun haltingRun ∧ HostKeepsRequesting haltingRun ∧ (haltingRun 0).started = true ∧
    (haltingRun 0).run = .active ∧ (haltingRun 0).waiting = false ∧ (haltingRun 0).fetchWord = some 0x0000#16 := by
  refine ⟨fun n => ?_, fun n => ⟨n + 1, by omega, _, _, unscripted_begins (haltingRun (n + 1)) rfl rfl⟩,
    rfl, rfl, rfl, by decide⟩
  match n with
  | 0 =>
    have h : (haltingRun 0).freeTicks = { haltingRun 0 with inputCount := 1 } := by
      simp [haltingRun, State.reset, State.construct, State.freeTicks, countDownBy_zero]
    change cycle (freeKeys 0) (haltingRun 0).freeTicks = _
    rw [h]
    rfl
  | n + 1 =>
    simp [step, haltingRun, idleRun, State.reset, State.construct, unscripted, cycle, State.freeTicks, countDownBy_zero]

end Sys2Proof.Tests
end

section
/-! PROOFS. The state after construction: what each field reads as (10_state.md R51) and that it satisfies the
invariant. -/

namespace Sys2Proof.Proofs

open Sys2Proof.Machine Sys2Proof.Config Sys2Proof.Laws

/-! ## The reset content of memory -/

theorem resetByte_of_lt (font : Font) (a : Fin 80) : resetByte font a = font[a] := by
  simp [resetByte]

theorem resetByte_of_ge (font : Font) {a : Nat} (h : 80 ≤ a) : resetByte font a = 0x00#8 := by
  simp [resetByte, Vector.getElem?_eq_none h]

/-- No address is listed after construction, so every read gives the reset content. -/
@[simp] theorem get_construct (params : Params) (font : Font) (a : Nat) :
    (State.construct params font).mem.get a = resetByte font a := rfl

/-- The font stands at address 0, whole and in order (10_state.md R44). -/
theorem readBytes_font_construct (params : Params) (font : Font) :
    (State.construct params font).mem.readBytes 0 80 = font.toList := by
  refine List.ext_getElem (by simp) fun k hk _ => ?_
  have hk80 : k < 80 := by simpa using hk
  rw [readBytes_getElem, Nat.zero_add, get_construct, resetByte_of_lt font ⟨k, hk80⟩]
  simp

/-! ## Registers, keys, pc -/

@[simp] theorem reg_construct (params : Params) (font : Font) (r : Reg) :
    (State.construct params font).reg r = 0x00#8 := by
  simp [State.reg, State.construct]

/-- No key is down, whether its number names a key or not. -/
@[simp] theorem keyDown_noKeys (k : Nat) : keyDown noKeys k = false := by
  by_cases h : k < 16
  · simp [keyDown, noKeys, h]
  · simp [keyDown, Vector.getElem?_eq_none (Nat.le_of_not_lt h)]

theorem pc_toNat_construct (params : Params) (font : Font) : (State.construct params font).pc.toNat = 0x200 := rfl

/-- The first fetch lies above the font, where every byte is 0 (41_control_flow.md R180: an unloaded machine halts). -/
theorem fetchWord_construct (params : Params) (font : Font) :
    (State.construct params font).fetchWord = some 0x0000#16 := by
  have hpc := pc_toNat_construct params font
  rw [fetchWord_eq (by omega), get_construct, get_construct, resetByte_of_ge font (by omega),
    resetByte_of_ge font (by omega)]
  rfl

/-! ## The invariant -/

theorem inv_construct (params : Params) (font : Font) : Inv (State.construct params font) where
  memWf := wf_construct params font
  pcInMemory := by rw [pc_toNat_construct]; decide
  stackEntries := fun _ he => absurd he List.not_mem_nil
  stackWithinLimit := fun _ _ => Nat.zero_le _
  waitingIsActive := fun _ => rfl
  activeBeforeStart := fun _ => ⟨rfl, rfl⟩
  noCycleAfterFailure := fun _ => rfl

/-! ## The obligations -/

/-- Settles O1: each part is the construction lemma of its field; the font bytes are `standardFont` read back. -/
theorem resetStateIsAsSpecified : Obligations.ResetStateIsAsSpecified := by
  unfold Obligations.ResetStateIsAsSpecified
  have hfont : State.reset.mem.readBytes 0 80 = standardFont.toList := readBytes_font_construct _ _
  have hzero : ∀ (params : Params) (font : Font) (a : Nat), 80 ≤ a → a < memSize →
      (State.construct params font).mem.get a = 0x00#8 := fun _ font _ h _ => resetByte_of_ge font h
  exact ⟨reg_construct _ _, rfl, pc_toNat_construct _ _, rfl, rfl, rfl,
    fun k => ⟨keyDown_noKeys k, keyDown_noKeys k⟩, cell_clearScreen, rfl, rfl, rfl, hfont,
    fun params font => ⟨resetByte_of_lt font, hzero params font⟩, hzero _ _, fetchWord_construct _ _⟩

/-- Settles O15: the invariant holds after every construction, and the reset state is one. -/
theorem resetSatisfiesTheInvariant : Obligations.ResetSatisfiesTheInvariant :=
  ⟨inv_construct thisHardware standardFont, inv_construct⟩

end Sys2Proof.Proofs
end

section
/-! PROOFS. What the host reads: the fields of the status port (10_state.md R49), the codes of the tables
(60_exceptions.md R331, R332, R362) and the tone (R366). -/

namespace Sys2Proof.Proofs

open Sys2Proof.Machine

/-! ## The status port -/

theorem status_waiting (s : State) : s.status.waiting = if s.waiting = true then 1#1 else 0#1 := by
  cases h : s.waiting <;> simp [State.status, h]

theorem status_waitReg_toNat (s : State) : s.status.waitReg.toNat = s.waitReg.val := rfl

theorem status_of_active {s : State} (h : s.run = .active) : s.status.run = 0#2 ∧ s.status.faultKind = 0#3 := by
  simp [State.status, h, runCode, faultKindCode]

theorem status_of_terminated {s : State} (h : s.run = .terminated) :
    s.status.run = 1#2 ∧ s.status.faultKind = 0#3 := by
  simp [State.status, h, runCode, faultKindCode]

theorem status_of_faulted {s : State} {k : FaultKind} (h : s.run = .faulted k) :
    s.status.run = 2#2 ∧ s.status.faultKind = faultCode k := by
  simp [State.status, h, runCode, faultKindCode]

theorem toneOn_iff (s : State) : s.toneOn = true ↔ s.sound ≠ 0x00#8 :=
  bne_iff_ne

/-! ## The obligation -/

/-- Settles O60: the status fields and the tone by their lemmas, the three tables row by row as they are defined. -/
theorem hostCodesAreThoseOfTheTables : Obligations.HostCodesAreThoseOfTheTables := by
  unfold Obligations.HostCodesAreThoseOfTheTables
  refine ⟨fun s => ?status, ?faultKinds, ?outcomes, ?classes⟩
  case status =>
    exact ⟨status_waiting s, status_waitReg_toNat s, status_of_active, status_of_terminated,
      fun _ => status_of_faulted, toneOn_iff s⟩
  case faultKinds => exact ⟨rfl, rfl, rfl, rfl, rfl, rfl⟩
  case outcomes => exact ⟨rfl, rfl, fun _ => rfl, rfl, fun _ => rfl, rfl, fun _ => rfl, fun _ => rfl⟩
  case classes => exact ⟨rfl, rfl, rfl, rfl, rfl, rfl⟩

end Sys2Proof.Proofs
end

section
/-! PROOFS. Control flow (41_control_flow.md): HALT, SYS, the jumps, CALL and the skips. First how their words decode
(30_encoding.md R107, R108, R112), then what their handlers answer, then the obligations. -/

namespace Sys2Proof.Proofs

open Sys2Proof.Machine Sys2Proof.Laws

/-! ## The words of groups 0 to 5, 9 and B -/

theorem encodeNnn_right_inj {op : BitVec 4} {a b : BitVec 12} : encodeNnn op a = encodeNnn op b ↔ a = b := by
  refine ⟨fun h => ?_, fun h => h ▸ rfl⟩
  simpa using congrArg (fun w => (fieldsOf w).NNN) h

/-- The 0NNN words that are no SYS differ from it in NNN alone. -/
theorem decode_group0_sys {nnn : BitVec 12} (hHalt : nnn ≠ 0x000#12) (hCls : nnn ≠ 0x0E0#12) (hRet : nnn ≠ 0x0EE#12) :
    decode (encodeNnn 0x0#4 nnn) = .ok (.sys nnn) := by
  have differs {k : BitVec 12} (h : nnn ≠ k) : encodeNnn 0x0#4 nnn ≠ encodeNnn 0x0#4 k := mt encodeNnn_right_inj.mp h
  have h0 : encodeNnn 0x0#4 nnn ≠ 0x0000#16 := differs hHalt
  have h1 : encodeNnn 0x0#4 nnn ≠ 0x00E0#16 := differs hCls
  have h2 : encodeNnn 0x0#4 nnn ≠ 0x00EE#16 := differs hRet
  simp [decode, selectHandler, selectGroup0, h0, h1, h2]

@[simp] theorem decode_group1 (nnn : BitVec 12) : decode (encodeNnn 0x1#4 nnn) = .ok (.jp nnn) := by
  simp [decode, selectHandler]

@[simp] theorem decode_group2 (nnn : BitVec 12) : decode (encodeNnn 0x2#4 nnn) = .ok (.call nnn) := by
  simp [decode, selectHandler]

@[simp] theorem decode_group3 (x : Reg) (nn : Byte) : decode (encodeXnn 0x3#4 x nn) = .ok (.seVxNn x nn) := by
  simp [decode, selectHandler]

@[simp] theorem decode_group4 (x : Reg) (nn : Byte) : decode (encodeXnn 0x4#4 x nn) = .ok (.sneVxNn x nn) := by
  simp [decode, selectHandler]

@[simp] theorem decode_group5 (x y : Reg) (n : BitVec 4) :
    decode (encodeXyn 0x5#4 x y n) = if n = 0x0#4 then .ok (.seVxVy x y) else .error .noPattern := by
  simp [decode, selectHandler]

@[simp] theorem decode_group9 (x y : Reg) (n : BitVec 4) :
    decode (encodeXyn 0x9#4 x y n) = if n = 0x0#4 then .ok (.sneVxVy x y) else .error .noPattern := by
  simp [decode, selectHandler]

@[simp] theorem decode_groupB (nnn : BitVec 12) : decode (encodeNnn 0xB#4 nnn) = .ok (.jpV0 nnn) := by
  simp [decode, selectHandler]

/-! ## The handlers -/

/-- A skip on equality: the SE instructions. -/
theorem skipWhen_beq (a b : Byte) (s : State) :
    ∃ t, skipWhen (a == b) s = .next t ∧ OnlyControl s t ∧ (a = b → Skips s t) ∧ (a ≠ b → Continues s t) := by
  simpa using skipWhen_spec (a == b) s

/-- A skip on inequality: the SNE instructions. -/
theorem skipWhen_bne (a b : Byte) (s : State) :
    ∃ t, skipWhen (a != b) s = .next t ∧ OnlyControl s t ∧ (a ≠ b → Skips s t) ∧ (a = b → Continues s t) := by
  simpa using skipWhen_spec (a != b) s

theorem stackFull_iff (s : State) : s.stackFull = true ↔ s.cfg.stackLimit = some s.stack.length := by
  unfold State.stackFull
  cases s.cfg.stackLimit with
  | none => simp
  | some n => simpa using eq_comm

/-- The return address of a fetchable CALL fits 16 bits (log 10). -/
theorem returnAddress_toNat {s : State} (h : s.pc.toNat ≤ 0xFFE) : (returnAddress s).toNat = s.pc.toNat + 2 := by
  simp only [returnAddress, BitVec.toNat_ofNat]
  omega

theorem execCall_of_full (nnn : BitVec 12) {s : State} (h : s.cfg.stackLimit = some s.stack.length) :
    execCall nnn s = finish (.fault .stackOverflow) s :=
  if_pos ((stackFull_iff s).mpr h)

theorem execCall_of_not_full (nnn : BitVec 12) {s : State} (h : s.cfg.stackLimit ≠ some s.stack.length) :
    execCall nnn s = finish (.jump nnn.toNat) (s.push (returnAddress s)) :=
  if_neg (mt (stackFull_iff s).mp h)

/-! ## The obligations -/

/-- Settles O23: 0x0000 is the first row of group 0, and Terminate writes run alone. -/
theorem haltTerminatesInPlace : Obligations.HaltTerminatesInPlace :=
  ⟨rfl, fun _ => rfl⟩

/-- Settles O24: SYS is Continue with no writes. -/
theorem sysIsANoOp : Obligations.SysIsANoOp := by
  intro nnn hHalt hCls hRet
  exact ⟨decode_group0_sys hHalt hCls hRet, fun _ => finish_continueNext rfl rfl⟩

/-- Settles O26: both are Jump with no writes, to a natural target. -/
theorem jumpsGoToTheirTarget : Obligations.JumpsGoToTheirTarget := by
  intro nnn s
  exact ⟨⟨decode_group1 nnn, finish_jump nnn.toNat rfl rfl⟩,
    decode_groupB nnn, finish_jump (nnn.toNat + (s.reg 0).toNat) rfl rfl⟩

/-- Settles O27: below the limit CALL is Jump after the push, at the limit a fault with no writes. -/
theorem callPushesTheReturnAddress : Obligations.CallPushesTheReturnAddress := by
  intro nnn s hpc
  refine ⟨decode_group2 nnn, fun hroom => ?room, fun hfull => ?full⟩
  case room =>
    obtain ⟨t, ht, hjump, honly⟩ :=
      finish_jump (s := s) (u := s.push (returnAddress s)) nnn.toNat rfl rfl
    exact ⟨t, returnAddress s, (execCall_of_not_full nnn hroom).trans ht, hjump, returnAddress_toNat hpc, honly⟩
  case full =>
    obtain ⟨t, ht, hfault⟩ := finish_fault s .stackOverflow
    exact ⟨t, (execCall_of_full nnn hfull).trans ht, hfault⟩

/-- Settles O28: SE is the skip on equality, SNE the skip on inequality, of V[X] and NN. -/
theorem immediateSkipsCompareTheRegister : Obligations.ImmediateSkipsCompareTheRegister := by
  intro x nn s
  exact ⟨⟨decode_group3 x nn, skipWhen_beq (s.reg x) nn s⟩, decode_group4 x nn, skipWhen_bne (s.reg x) nn s⟩

/-- Settles O29: the same skips of V[X] and V[Y], and a low nibble other than 0 has no handler. -/
theorem registerSkipsCompareTheRegisters : Obligations.RegisterSkipsCompareTheRegisters := by
  intro x y s
  refine ⟨⟨decode_group5 x y 0x0#4, fun n hn => ?_, skipWhen_beq (s.reg x) (s.reg y) s⟩,
    decode_group9 x y 0x0#4, fun n hn => ?_, skipWhen_bne (s.reg x) (s.reg y) s⟩
  · rw [decode_group5, if_neg hn]
  · rw [decode_group9, if_neg hn]

end Sys2Proof.Proofs
end

section
/-! PROOFS. Registers and the ALU (42_alu.md): group 8, 6XNN and 7XNN. First how their words decode (30_encoding.md
R107, R109), then results and flags as numbers, then what the handlers answer, then the obligations. -/

namespace Sys2Proof.Proofs

open Sys2Proof.Machine Sys2Proof.Laws

/-! ## The words of groups 6, 7 and 8 -/

@[simp] theorem decode_group6 (x : Reg) (nn : Byte) : decode (encodeXnn 0x6#4 x nn) = .ok (.ldVxNn x nn) := by
  simp [decode, selectHandler]

@[simp] theorem decode_group7 (x : Reg) (nn : Byte) : decode (encodeXnn 0x7#4 x nn) = .ok (.addVxNn x nn) := by
  simp [decode, selectHandler]

/-- Group 8 is decided by the low nibble alone (30_encoding.md R109). -/
theorem decode_group8 (x y : Reg) (n : BitVec 4) :
    decode (encodeXyn 0x8#4 x y n) = selectGroup8 (fieldsOf (encodeXyn 0x8#4 x y n)) := by
  simp [decode, selectHandler]

@[simp] theorem decode_ldVxVy (x y : Reg) : decode (encodeXyn 0x8#4 x y 0x0#4) = .ok (.ldVxVy x y) := by
  simp [decode_group8, selectGroup8]

@[simp] theorem decode_orVxVy (x y : Reg) : decode (encodeXyn 0x8#4 x y 0x1#4) = .ok (.orVxVy x y) := by
  simp [decode_group8, selectGroup8]

@[simp] theorem decode_andVxVy (x y : Reg) : decode (encodeXyn 0x8#4 x y 0x2#4) = .ok (.andVxVy x y) := by
  simp [decode_group8, selectGroup8]

@[simp] theorem decode_xorVxVy (x y : Reg) : decode (encodeXyn 0x8#4 x y 0x3#4) = .ok (.xorVxVy x y) := by
  simp [decode_group8, selectGroup8]

@[simp] theorem decode_addVxVy (x y : Reg) : decode (encodeXyn 0x8#4 x y 0x4#4) = .ok (.addVxVy x y) := by
  simp [decode_group8, selectGroup8]

@[simp] theorem decode_subVxVy (x y : Reg) : decode (encodeXyn 0x8#4 x y 0x5#4) = .ok (.subVxVy x y) := by
  simp [decode_group8, selectGroup8]

@[simp] theorem decode_shrVx (x y : Reg) : decode (encodeXyn 0x8#4 x y 0x6#4) = .ok (.shrVx x y) := by
  simp [decode_group8, selectGroup8]

@[simp] theorem decode_subnVxVy (x y : Reg) : decode (encodeXyn 0x8#4 x y 0x7#4) = .ok (.subnVxVy x y) := by
  simp [decode_group8, selectGroup8]

@[simp] theorem decode_shlVx (x y : Reg) : decode (encodeXyn 0x8#4 x y 0xE#4) = .ok (.shlVx x y) := by
  simp [decode_group8, selectGroup8]

/-! ## Results and flags as numbers -/

theorem carry_eq_ite (a b : Byte) :
    (if carry a b then 1 else 0) = if 256 ≤ a.toNat + b.toNat then 1 else 0 := by
  simp [carry]

/-- The difference mod 256, borrow or not (42_alu.md R220). -/
theorem sub_toNat (a b : Byte) : (a - b).toNat = (a.toNat + 256 - b.toNat) % 256 := by
  rw [BitVec.toNat_sub]
  omega

theorem notBorrow_eq_ite (minuend subtrahend : Byte) :
    (if notBorrow minuend subtrahend then 1 else 0) = if minuend.toNat < subtrahend.toNat then 0 else 1 := by
  simp only [notBorrow, decide_eq_true_eq, ← Nat.not_lt, ite_not]

theorem shiftRight_one_toNat (a : Byte) : (a >>> 1).toNat = a.toNat / 2 := by
  simp [Nat.shiftRight_eq_div_pow]

theorem lowBit_eq_mod (a : Byte) : (if lowBit a then 1 else 0) = a.toNat % 2 := by
  have hbit : lowBit a = decide (a.toNat % 2 = 1) := by
    simp [lowBit, BitVec.getLsbD, Nat.testBit_zero]
  simp only [hbit, decide_eq_true_eq]
  split <;> omega

theorem shiftLeft_one_toNat (a : Byte) : (a <<< 1).toNat = a.toNat * 2 % 256 := by
  simp [Nat.shiftLeft_eq]

/-- Bit 7 is the quotient by 128, as a byte is below 256. -/
theorem highBit_eq_div (a : Byte) : (if highBit a then 1 else 0) = a.toNat / 128 := by
  have hlt : a.toNat < 256 := a.isLt
  have hbit : highBit a = decide (128 ≤ a.toNat) := BitVec.msb_eq_decide a
  simp only [hbit, decide_eq_true_eq]
  split <;> omega

/-! ## The handlers -/

/-- A handler that writes result and flag, with both named as numbers. -/
theorem finish_writeRF_of_eq (s : State) (x : Reg) {v : Byte} {b : Bool} {r f : Nat} (hr : v.toNat = r)
    (hf : (if b then 1 else 0) = f) :
    ∃ t, finish .continueNext (s.writeRF x v b) = .next t ∧ Continues s t ∧ WritesResultAndFlag x r f s t := by
  subst hr hf
  exact finish_writeRF s x v b

/-- Both subtractions, each with its own minuend and subtrahend (42_alu.md R219, R220, R222). -/
theorem finish_subtraction (s : State) (x : Reg) (m b : Byte) :
    ∃ t, finish .continueNext (s.writeRF x (m - b) (notBorrow m b)) = .next t ∧ Continues s t ∧
      WritesResultAndFlag x ((m.toNat + 256 - b.toNat) % 256) (if m.toNat < b.toNat then 0 else 1) s t :=
  finish_writeRF_of_eq s x (sub_toNat m b) (notBorrow_eq_ite m b)

/-! ## The obligations -/

/-- Settles O31: each handler writes one register, and none of the four writes a flag. -/
theorem copyAndLogicWriteOnlyTheDestination : Obligations.CopyAndLogicWriteOnlyTheDestination := by
  intro x y s
  exact ⟨⟨decode_ldVxVy x y, finish_setReg s x (s.reg y)⟩,
    ⟨decode_orVxVy x y, finish_setReg s x (s.reg x ||| s.reg y)⟩,
    ⟨decode_andVxVy x y, finish_setReg s x (s.reg x &&& s.reg y)⟩,
    decode_xorVxVy x y, finish_setReg s x (s.reg x ^^^ s.reg y)⟩

/-- Settles O32: the byte sum is the sum mod 256, and its flag is the carry. -/
theorem addWritesSumAndCarry : Obligations.AddWritesSumAndCarry := by
  intro x y s
  exact ⟨decode_addVxVy x y,
    finish_writeRF_of_eq s x (BitVec.toNat_add (s.reg x) (s.reg y)) (carry_eq_ite (s.reg x) (s.reg y))⟩

/-- Settles O33: SUB subtracts V[Y] from V[X], SUBN V[X] from V[Y]. -/
theorem subtractionsWriteDifferenceAndNotBorrow : Obligations.SubtractionsWriteDifferenceAndNotBorrow := by
  intro x y s
  exact ⟨⟨decode_subVxVy x y, finish_subtraction s x (s.reg x) (s.reg y)⟩,
    decode_subnVxVy x y, finish_subtraction s x (s.reg y) (s.reg x)⟩

/-- Settles O34: the shifted byte and the bit shifted out are quotient and remainder of V[X]. -/
theorem shiftsWriteTheBitShiftedOut : Obligations.ShiftsWriteTheBitShiftedOut := by
  intro x y s
  exact ⟨⟨decode_shrVx x y, finish_writeRF_of_eq s x (shiftRight_one_toNat (s.reg x)) (lowBit_eq_mod (s.reg x))⟩,
    decode_shlVx x y, finish_writeRF_of_eq s x (shiftLeft_one_toNat (s.reg x)) (highBit_eq_div (s.reg x))⟩

/-- Settles O35: both write V[X] alone, 7XNN with the byte sum. -/
theorem immediatesWriteNoFlag : Obligations.ImmediatesWriteNoFlag := by
  intro x nn s
  obtain ⟨t, ht, hcont, honly, hreg⟩ := finish_setReg s x (s.reg x + nn)
  have hsum : (t.reg x).toNat = ((s.reg x).toNat + nn.toNat) % 256 := by rw [hreg, BitVec.toNat_add]
  exact ⟨⟨decode_group6 x nn, finish_setReg s x nn⟩, decode_group7 x nn, t, ht, hcont, honly, hsum⟩

end Sys2Proof.Proofs
end

section
/-! PROOFS. I and memory (43_index_memory.md): ANNN, FX1E, FX29, FX33, FX55 and FX65. First how their words decode
(30_encoding.md R107, R111), then the range check and the bytes transferred, then what the handlers answer, then the
obligations. -/

namespace Sys2Proof.Proofs

open Sys2Proof.Machine Sys2Proof.Config Sys2Proof.Laws

/-! ## The words of groups A and F -/

@[simp] theorem decode_groupA (nnn : BitVec 12) : decode (encodeNnn 0xA#4 nnn) = .ok (.ldINnn nnn) := by
  simp [decode, selectHandler]

/-- Group F is decided by the right byte alone (30_encoding.md R111). -/
theorem decode_groupF (x : Reg) (nn : Byte) :
    decode (encodeXnn 0xF#4 x nn) = selectGroupF (fieldsOf (encodeXnn 0xF#4 x nn)) := by
  simp [decode, selectHandler]

@[simp] theorem decode_addIVx (x : Reg) : decode (encodeXnn 0xF#4 x 0x1E#8) = .ok (.addIVx x) := by
  simp [decode_groupF, selectGroupF]

@[simp] theorem decode_ldFVx (x : Reg) : decode (encodeXnn 0xF#4 x 0x29#8) = .ok (.ldFVx x) := by
  simp [decode_groupF, selectGroupF]

@[simp] theorem decode_ldBVx (x : Reg) : decode (encodeXnn 0xF#4 x 0x33#8) = .ok (.ldBVx x) := by
  simp [decode_groupF, selectGroupF]

@[simp] theorem decode_ldMemIVx (x : Reg) : decode (encodeXnn 0xF#4 x 0x55#8) = .ok (.ldMemIVx x) := by
  simp [decode_groupF, selectGroupF]

@[simp] theorem decode_ldVxMemI (x : Reg) : decode (encodeXnn 0xF#4 x 0x65#8) = .ok (.ldVxMemI x) := by
  simp [decode_groupF, selectGroupF]

/-! ## Bytes stored at I -/

/-- The k-th byte of a store at I stands at `I + k`. -/
theorem get_stored_dataAddress (s : State) (m : Memory) (bs : List Byte) {k : Nat} (h : k < bs.length) :
    (m.writeBytes (dataAddress s 0) bs).get (dataAddress s k) = bs[k] :=
  get_writeBytes_stored m s.I.toNat bs h

/-- A store reaches its own bytes only. -/
theorem memoryKeptOutside_of_writeBytes {s t : State} {a : Nat} {bs : List Byte}
    (h : t.mem = s.mem.writeBytes a bs) : MemoryKeptOutside a bs.length s t := by
  intro b hb
  rw [h, get_writeBytes_outside _ _ hb]

/-- The digits as numbers: each is below 256, so none is lost in a byte (43_index_memory.md R247). -/
theorem toNat_get_of_bcdDigits {s t : State} {v : Byte}
    (h : t.mem = s.mem.writeBytes (dataAddress s 0) (bcdDigits v)) :
    (t.mem.get (dataAddress s 0)).toNat = v.toNat / 100 ∧ (t.mem.get (dataAddress s 1)).toNat = v.toNat / 10 % 10 ∧
      (t.mem.get (dataAddress s 2)).toNat = v.toNat % 10 := by
  have hlt : v.toNat < 256 := v.isLt
  have hdigit (k : Nat) (hk : k < 3) : t.mem.get (dataAddress s k) = (bcdDigits v)[k]'hk := by
    rw [h, get_stored_dataAddress s s.mem _ hk]
  rw [hdigit 0 (by decide), hdigit 1 (by decide), hdigit 2 (by decide)]
  refine ⟨Nat.mod_eq_of_lt ?_, Nat.mod_eq_of_lt ?_, Nat.mod_eq_of_lt ?_⟩ <;> omega

/-! ## Bulk transfers -/

/-- The range check of FX55 and FX65 is one of the last byte, `I + X` (20_memory.md R80). -/
theorem dataInBounds_transferCount_iff {s : State} {x : Reg} :
    dataInBounds s (transferCount x) = true ↔ s.I.toNat + x.val < memSize :=
  dataInBounds_iff (Nat.succ_pos x.val)

@[simp] theorem length_take_transferCount (s : State) (x : Reg) :
    (s.V.toList.take (transferCount x)).length = x.val + 1 := by
  simp [transferCount]

theorem getElem_take_transferCount (s : State) (x k : Reg) (h : k.val < (s.V.toList.take (transferCount x)).length) :
    (s.V.toList.take (transferCount x))[k.val] = s.reg k := by
  simp [State.reg]

/-- The registers after FX65's load: V0 to V[X] from memory, those above X as before. -/
theorem reg_of_loadRegs {s t : State} {x : Reg}
    (h : t.V = loadRegs s.V 0 (s.mem.readBytes (dataAddress s 0) (transferCount x))) (k : Reg) :
    t.reg k = if k ≤ x then s.mem.get (dataAddress s k.val) else s.reg k := by
  have hlen : 0 + (s.mem.readBytes (dataAddress s 0) (transferCount x)).length ≤ 16 := by
    rw [readBytes_length, transferCount]
    omega
  have hget : t.reg k = _ := (congrArg (·[k.val]) h).trans (loadRegs_getElem _ _ _ hlen k.val k.isLt)
  rw [hget]
  by_cases hk : k ≤ x
  · have hk' : k.val < transferCount x := Nat.lt_succ_of_le hk
    simp [hk, hk', readBytes_getElem, dataAddress]
  · have hk' : ¬ k.val < transferCount x := fun hlt => hk (Nat.le_of_lt_succ hlt)
    simp [hk, hk', State.reg]

theorem stepI_eq (x : Reg) (s : State) : stepI x s = { s with I := (stepI x s).I } := by
  unfold stepI
  split <;> rfl

/-! ## The handlers -/

/-- An answer's I is that of the state after the writes. -/
theorem onlyControl_I {u t : State} (h : OnlyControl u t) : t.I = u.I := by
  rw [h]
  rfl

/-- A handler that writes I and continues, with the value in I named as a number. -/
theorem finish_setI (s : State) {v n : Nat} (hn : v % 65536 = n) :
    ∃ t, finish .continueNext (s.setI v) = .next t ∧ Continues s t ∧ t.I.toNat = n ∧
      t = { s.withControlOf t with I := t.I } := by
  obtain ⟨t, ht, hcont, honly⟩ := finish_continueNext (s := s) (u := s.setI v) rfl rfl
  have hI : t.I = BitVec.ofNat 16 v := onlyControl_I honly
  refine ⟨t, ht, hcont, ?_, ?_⟩
  · rw [hI, BitVec.toNat_ofNat, hn]
  · rw [hI]
    exact honly

/-- A handler that writes memory and continues. -/
theorem finish_setMem (s : State) (m : Memory) :
    ∃ t, finish .continueNext { s with mem := m } = .next t ∧ Continues s t ∧ t.mem = m ∧
      t = { s.withControlOf t with mem := t.mem } := by
  obtain ⟨t, ht, hcont, honly⟩ := finish_continueNext (s := s) (u := { s with mem := m }) rfl rfl
  have hmem : t.mem = m := congrArg State.mem honly
  refine ⟨t, ht, hcont, hmem, ?_⟩
  rw [hmem]
  exact honly

/-- A bulk transfer: `u` is the state after its transfer, which leaves pc, run, I and the parameters alone; then I
moves as `LOADSTORE_INCREMENTS_I` says (43_index_memory.md R249). -/
theorem finish_stepI {s u : State} (x : Reg) (hpc : u.pc = s.pc) (hrun : u.run = s.run) (hI : u.I = s.I)
    (hcfg : u.cfg = s.cfg) :
    ∃ t, finish .continueNext (stepI x u) = .next t ∧ Continues s t ∧ t = { u.withControlOf t with I := t.I } ∧
      (s.cfg.loadStoreIncrementsI = false → t.I = s.I) ∧
      (s.cfg.loadStoreIncrementsI = true → t.I.toNat = (s.I.toNat + x.val + 1) % 65536) := by
  obtain ⟨t, ht, hcont, honly⟩ :=
    finish_continueNext (s := s) (u := stepI x u) ((stepI_pc u x).trans hpc) ((stepI_run u x).trans hrun)
  have htI : t.I = (stepI x u).I := onlyControl_I honly
  obtain ⟨hkeeps, hmoves⟩ := stepI_I x u
  rw [hcfg, hI] at hkeeps hmoves
  refine ⟨t, ht, hcont, ?_, htI ▸ hkeeps, htI ▸ hmoves⟩
  rw [stepI_eq] at honly
  rw [htI]
  exact honly

theorem execLdBVx_of_inside (x : Reg) {s : State} (h : s.I.toNat + 2 < memSize) :
    execLdBVx x s =
      finish .continueNext { s with mem := s.mem.writeBytes (dataAddress s 0) (bcdDigits (s.reg x)) } :=
  if_pos ((dataInBounds_iff (by decide)).mpr h)

theorem execLdBVx_of_outside (x : Reg) {s : State} (h : memSize ≤ s.I.toNat + 2) :
    execLdBVx x s = finish (.fault .memoryBoundsViolation) s :=
  if_neg (mt (dataInBounds_iff (by decide)).mp (Nat.not_lt.mpr h))

theorem execLdMemIVx_of_inside {x : Reg} {s : State} (h : s.I.toNat + x.val < memSize) :
    execLdMemIVx x s = finish .continueNext
      (stepI x { s with mem := s.mem.writeBytes (dataAddress s 0) (s.V.toList.take (transferCount x)) }) :=
  if_pos (dataInBounds_transferCount_iff.mpr h)

theorem execLdMemIVx_of_outside {x : Reg} {s : State} (h : memSize ≤ s.I.toNat + x.val) :
    execLdMemIVx x s = finish (.fault .memoryBoundsViolation) s :=
  if_neg (mt dataInBounds_transferCount_iff.mp (Nat.not_lt.mpr h))

theorem execLdVxMemI_of_inside {x : Reg} {s : State} (h : s.I.toNat + x.val < memSize) :
    execLdVxMemI x s = finish .continueNext
      (stepI x { s with V := loadRegs s.V 0 (s.mem.readBytes (dataAddress s 0) (transferCount x)) }) :=
  if_pos (dataInBounds_transferCount_iff.mpr h)

theorem execLdVxMemI_of_outside {x : Reg} {s : State} (h : memSize ≤ s.I.toNat + x.val) :
    execLdVxMemI x s = finish (.fault .memoryBoundsViolation) s :=
  if_neg (mt dataInBounds_transferCount_iff.mp (Nat.not_lt.mpr h))

/-! ## The obligations -/

/-- Settles O37: each handler is one write of I, and neither NNN nor V[X] * 5 reaches 65536. -/
theorem addressRegisterIsLoadedAndAdjusted : Obligations.AddressRegisterIsLoadedAndAdjusted := by
  unfold Obligations.AddressRegisterIsLoadedAndAdjusted
  have haddress (nnn : BitVec 12) : nnn.toNat % 65536 = nnn.toNat := Nat.mod_eq_of_lt (nnn.isLt.trans (by decide))
  have hglyph (v : Byte) : v.toNat * 5 % 65536 = v.toNat * 5 :=
    Nat.mod_eq_of_lt ((Nat.mul_lt_mul_of_pos_right v.isLt (by decide)).trans (by decide))
  exact ⟨fun nnn s => ⟨decode_groupA nnn, finish_setI s (haddress nnn)⟩,
    fun x s => ⟨decode_addIVx x, finish_setI s rfl⟩,
    fun x s => ⟨decode_ldFVx x, finish_setI s (hglyph (s.reg x))⟩⟩

/-- Settles O38: inside memory FX33 is one store of the three digits, outside it a fault with no writes. -/
theorem bcdStoresThreeDigits : Obligations.BcdStoresThreeDigits := by
  intro x s
  refine ⟨decode_ldBVx x, fun hin => ?inside, fun hout => ?outside⟩
  case inside =>
    obtain ⟨t, ht, hcont, hmem, hframe⟩ :=
      finish_setMem s (s.mem.writeBytes (dataAddress s 0) (bcdDigits (s.reg x)))
    obtain ⟨hhundreds, htens, hones⟩ := toNat_get_of_bcdDigits hmem
    exact ⟨t, (execLdBVx_of_inside x hin).trans ht, hcont, hframe, hhundreds, htens, hones,
      memoryKeptOutside_of_writeBytes hmem⟩
  case outside => exact ⟨_, execLdBVx_of_outside x hout, conclude_fault s .memoryBoundsViolation⟩

/-- Settles O40: inside memory FX55 is one store of V0 to V[X] and the move of I, outside it a fault with no
writes. -/
theorem bulkStoreWritesV0ToVx : Obligations.BulkStoreWritesV0ToVx := by
  intro x s
  refine ⟨decode_ldMemIVx x, fun hin => ?inside, fun hout => ?outside⟩
  case inside =>
    obtain ⟨t, ht, hcont, hframe, hkeeps, hmoves⟩ := finish_stepI (s := s)
      (u := { s with mem := s.mem.writeBytes (dataAddress s 0) (s.V.toList.take (transferCount x)) }) x rfl rfl rfl rfl
    have hmem : t.mem = s.mem.writeBytes (dataAddress s 0) (s.V.toList.take (transferCount x)) :=
      congrArg State.mem hframe
    refine ⟨t, (execLdMemIVx_of_inside hin).trans ht, hcont, ?frame, hkeeps, hmoves, fun k hk => ?stored, ?kept⟩
    case frame =>
      rw [hmem]
      exact hframe
    case stored =>
      have hlen : k.val < (s.V.toList.take (transferCount x)).length := by
        rw [length_take_transferCount]
        exact Nat.lt_succ_of_le hk
      rw [hmem, get_stored_dataAddress s s.mem _ hlen, getElem_take_transferCount]
    case kept =>
      rw [← length_take_transferCount s x]
      exact memoryKeptOutside_of_writeBytes hmem
  case outside => exact ⟨_, execLdMemIVx_of_outside hout, conclude_fault s .memoryBoundsViolation⟩

/-- Settles O41: inside memory FX65 is one load of V0 to V[X] and the move of I, outside it a fault with no
writes. -/
theorem bulkLoadReadsV0ToVx : Obligations.BulkLoadReadsV0ToVx := by
  intro x s
  refine ⟨decode_ldVxMemI x, fun hin => ?inside, fun hout => ?outside⟩
  case inside =>
    obtain ⟨t, ht, hcont, hframe, hkeeps, hmoves⟩ := finish_stepI (s := s)
      (u := { s with V := loadRegs s.V 0 (s.mem.readBytes (dataAddress s 0) (transferCount x)) }) x rfl rfl rfl rfl
    have hV : t.V = loadRegs s.V 0 (s.mem.readBytes (dataAddress s 0) (transferCount x)) := congrArg State.V hframe
    refine ⟨t, (execLdVxMemI_of_inside hin).trans ht, hcont, ?frame, hkeeps, hmoves, fun k hk => ?loaded,
      fun k hk => ?above⟩
    case frame =>
      rw [hV]
      exact hframe
    case loaded => rw [reg_of_loadRegs hV, if_pos hk]
    case above => rw [reg_of_loadRegs hV, if_neg (not_le.mpr hk)]
  case outside => exact ⟨_, execLdVxMemI_of_outside hout, conclude_fault s .memoryBoundsViolation⟩

end Sys2Proof.Proofs
end

section
/-! PROOFS. The display (44_display.md): CLS and DRW. First how DRW's word decodes (30_encoding.md R107), then the range
check of a sprite, then what the handlers answer, then the obligations. -/

namespace Sys2Proof.Proofs

open Sys2Proof.Machine Sys2Proof.Config Sys2Proof.Laws

/-! ## The words of group D -/

@[simp] theorem decode_groupD (x y : Reg) (n : Fin 16) :
    decode (encodeXyn 0xD#4 x y (nibbleOf n)) = .ok (.drw x y n) := by
  simp [decode, selectHandler]

/-! ## The range check of a sprite -/

/-- A sprite is inside memory when it has no rows or its last row is; no rows are in bounds at any I
(44_display.md R275). -/
theorem dataInBounds_iff_eq_zero_or {s : State} {n : Nat} :
    dataInBounds s n = true ↔ n = 0 ∨ s.I.toNat + n - 1 < memSize := by
  rcases Nat.eq_zero_or_pos n with rfl | hpos
  · simp [dataInBounds]
  · rw [dataInBounds_iff hpos, or_iff_right (Nat.ne_of_gt hpos)]

/-! ## The handlers -/

/-- An answer's screen is that of the state after the writes. -/
theorem onlyControl_fb {u t : State} (h : OnlyControl u t) : t.fb = u.fb := by
  rw [h]
  rfl

/-- A handler that writes the screen and requests a redraw. -/
theorem finish_setFb (s : State) (fb : Framebuffer) :
    ∃ t, finish .requestRedraw { s with fb := fb } = .next t ∧ Redraws s t ∧ t.fb = fb ∧
      t = { s.withControlOf t with fb := t.fb } := by
  obtain ⟨t, ht, hredraw, honly⟩ := finish_requestRedraw (s := s) (u := { s with fb := fb }) rfl rfl
  have hfb : t.fb = fb := onlyControl_fb honly
  refine ⟨t, ht, hredraw, hfb, ?_⟩
  rw [hfb]
  exact honly

/-- A handler that writes the screen and then VF, and requests a redraw (44_display.md R276). -/
theorem finish_setFb_setVF (s : State) (fb : Framebuffer) (v : Byte) :
    ∃ t, finish .requestRedraw (({ s with fb := fb } : State).setReg VF v) = .next t ∧ Redraws s t ∧
      t.fb = fb ∧ t.reg VF = v ∧ (∀ r, r ≠ VF → t.reg r = s.reg r) ∧
      t = { s.withControlOf t with V := t.V, fb := t.fb } := by
  obtain ⟨t, ht, hredraw, honly⟩ :=
    finish_requestRedraw (s := s) (u := ({ s with fb := fb } : State).setReg VF v) rfl rfl
  have hfb : t.fb = fb := onlyControl_fb honly
  have hV : t.V = s.V.set VF v := congrArg State.V honly
  refine ⟨t, ht, hredraw, hfb, ?flag, fun r hr => ?others, ?frame⟩
  case flag => rw [onlyControl_reg honly, reg_setReg_same]
  case others =>
    rw [onlyControl_reg honly, reg_setReg_ne _ hr]
    rfl
  case frame =>
    rw [hfb, hV]
    exact honly

theorem execDrw_of_inside (x y : Reg) {n : Fin 16} {s : State} (h : n.val = 0 ∨ s.I.toNat + n.val - 1 < memSize) :
    execDrw x y n s = finish .requestRedraw
      (({ s with fb := (drawSprite x y n s).fb } : State).setReg VF (flagByte (drawSprite x y n s).collision)) :=
  if_pos (dataInBounds_iff_eq_zero_or.mpr h)

theorem execDrw_of_outside (x y : Reg) {n : Fin 16} {s : State} (hn : 0 < n.val)
    (h : memSize ≤ s.I.toNat + n.val - 1) : execDrw x y n s = finish (.fault .memoryBoundsViolation) s :=
  if_neg (mt (dataInBounds_iff hn).mp (Nat.not_lt.mpr h))

/-- A sprite collides exactly when it covers a set cell (44_display.md R271, R273). -/
theorem collision_drawSprite_iff (x y : Reg) (n : Fin 16) (s : State) :
    (drawSprite x y n s).collision = true ↔
      ∃ cx cy, SpriteCovers x y n.val s cx.val cy.val ∧ s.fb.cell cx cy = true := by
  simpa using (drawn_sprite x y n s).hit

/-! ## The obligations -/

/-- Settles O45: CLS is one write of the screen, which is clear in every cell. -/
theorem clsClearsEveryCell : Obligations.ClsClearsEveryCell := by
  refine ⟨rfl, fun s => ?_⟩
  obtain ⟨t, ht, hredraw, hfb, hframe⟩ := finish_setFb s clearScreen
  exact ⟨t, ht, hredraw, hframe, fun x y => by rw [hfb, cell_clearScreen]⟩

/-- Settles O46: inside memory the blitter draws the set of covered cells (`drawn_sprite`) and VF receives its
collision; outside memory it is a fault with no writes. -/
theorem drwTogglesTheCoveredCells : Obligations.DrwTogglesTheCoveredCells := by
  intro x y n s
  refine ⟨decode_groupD x y n, fun hin => ?inside, fun hn hout => ?outside⟩
  case inside =>
    obtain ⟨t, ht, hredraw, hfb, hVF, hregs, hframe⟩ :=
      finish_setFb_setVF s (drawSprite x y n s).fb (flagByte (drawSprite x y n s).collision)
    refine ⟨t, (execDrw_of_inside x y hin).trans ht, hredraw, hframe, hregs, fun cx cy => ⟨?covered, ?kept⟩,
      fun hset => ?hit, fun hunset => ?miss⟩
    case covered =>
      rw [hfb]
      exact (drawn_sprite x y n s).on cx cy
    case kept =>
      rw [hfb]
      exact (drawn_sprite x y n s).off cx cy
    case hit =>
      rw [hVF, (collision_drawSprite_iff x y n s).mpr hset]
      rfl
    case miss =>
      rw [hVF, Bool.eq_false_iff.mpr (mt (collision_drawSprite_iff x y n s).mp hunset)]
      rfl
  case outside => exact ⟨_, execDrw_of_outside x y hn hout, conclude_fault s .memoryBoundsViolation⟩

end Sys2Proof.Proofs
end

section
/-! PROOFS. The keys (45_timers_keys.md): SKP, SKNP and FX0A. First how their words decode (30_encoding.md R110, R111),
then what the handlers answer, then the obligations. -/

namespace Sys2Proof.Proofs

open Sys2Proof.Machine Sys2Proof.Laws

/-! ## The words of group E, and FX0A -/

@[simp] theorem decode_skp (x : Reg) : decode (encodeXnn 0xE#4 x 0x9E#8) = .ok (.skp x) := by
  simp [decode, selectHandler, selectGroupE]

@[simp] theorem decode_sknp (x : Reg) : decode (encodeXnn 0xE#4 x 0xA1#8) = .ok (.sknp x) := by
  simp [decode, selectHandler, selectGroupE]

@[simp] theorem decode_ldVxK (x : Reg) : decode (encodeXnn 0xF#4 x 0x0A#8) = .ok (.ldVxK x) := by
  simp [decode_groupF, selectGroupF]

/-! ## The handlers of SKP and SKNP -/

theorem keyIndex_of_le {x : Reg} {s : State} (h : (s.reg x).toNat ≤ 15) : keyIndex x s = some (s.reg x).toNat :=
  if_pos h

theorem keyIndex_of_gt {x : Reg} {s : State} (h : 15 < (s.reg x).toNat) : keyIndex x s = none :=
  if_neg (Nat.not_le.mpr h)

theorem execSkp_of_le {x : Reg} {s : State} (h : (s.reg x).toNat ≤ 15) :
    execSkp x s = skipWhen (keyDown s.keyCur (s.reg x).toNat) s := by
  rw [execSkp, keyIndex_of_le h]

theorem execSkp_of_gt {x : Reg} {s : State} (h : 15 < (s.reg x).toNat) :
    execSkp x s = finish (.fault .keyIndexOutOfRange) s := by
  rw [execSkp, keyIndex_of_gt h]

theorem execSknp_of_le {x : Reg} {s : State} (h : (s.reg x).toNat ≤ 15) :
    execSknp x s = skipWhen (!keyDown s.keyCur (s.reg x).toNat) s := by
  rw [execSknp, keyIndex_of_le h]

theorem execSknp_of_gt {x : Reg} {s : State} (h : 15 < (s.reg x).toNat) :
    execSknp x s = finish (.fault .keyIndexOutOfRange) s := by
  rw [execSknp, keyIndex_of_gt h]

/-- A skip on the negation of a condition. -/
theorem skipWhen_not (c : Bool) (s : State) :
    ∃ t, skipWhen (!c) s = .next t ∧ OnlyControl s t ∧ (c = false → Skips s t) ∧ (c = true → Continues s t) := by
  simpa using skipWhen_spec (!c) s

/-! ## The handler of FX0A -/

theorem execLdVxK_of_isFirstEdge (x : Reg) {s : State} {k : Nat} (h : IsFirstEdge s k) :
    execLdVxK x s = finish .continueNext (s.setReg x (BitVec.ofNat 8 k)) := by
  rw [execLdVxK, firstEdge_some.mpr h]

theorem execLdVxK_of_noEdge (x : Reg) {s : State} (h : NoEdge s) : execLdVxK x s = finish (.waitingForKey x) s := by
  rw [execLdVxK, firstEdge_none.mpr h]

/-- A scanned key's number is not truncated by the byte that records it. -/
theorem toNat_ofNat_of_isFirstEdge {s : State} {k : Nat} (h : IsFirstEdge s k) : (BitVec.ofNat 8 k).toNat = k := by
  obtain ⟨hscanned, -⟩ := h
  have hlt : k < 16 := hscanned.trans_le (scanCount_le s.cfg.keyScan)
  exact Nat.mod_eq_of_lt (hlt.trans (by decide))

/-! ## The obligations -/

/-- Settles O56: an edge makes FX0A one register write that continues; without one its answer is WaitingForKey(X) with
no writes before it. -/
theorem keyWaitStoresTheLeastEdge : Obligations.KeyWaitStoresTheLeastEdge := by
  intro x s
  refine ⟨decode_ldVxK x, fun k hedge => ?edge, fun hnone => ?wait⟩
  case edge =>
    obtain ⟨t, ht, hcont, honly, hreg⟩ := finish_setReg s x (BitVec.ofNat 8 k)
    have hkey : (t.reg x).toNat = k := by rw [hreg, toNat_ofNat_of_isFirstEdge hedge]
    exact ⟨t, (execLdVxK_of_isFirstEdge x hedge).trans ht, hcont, honly, hkey⟩
  case wait => exact execLdVxK_of_noEdge x hnone

/-- Settles O55: for a key's index both are skips on its level, for any other index a fault with no writes. -/
theorem keySkipsTestTheLevel : Obligations.KeySkipsTestTheLevel := by
  intro x s
  refine ⟨decode_skp x, decode_sknp x, fun hle => ⟨?skp, ?sknp⟩, fun hgt => ⟨?skpFault, ?sknpFault⟩⟩
  case skp =>
    obtain ⟨t, ht, hanswer⟩ := skipWhen_spec (keyDown s.keyCur (s.reg x).toNat) s
    exact ⟨t, (execSkp_of_le hle).trans ht, hanswer⟩
  case sknp =>
    obtain ⟨t, ht, hanswer⟩ := skipWhen_not (keyDown s.keyCur (s.reg x).toNat) s
    exact ⟨t, (execSknp_of_le hle).trans ht, hanswer⟩
  case skpFault => exact ⟨_, execSkp_of_gt hgt, conclude_fault s .keyIndexOutOfRange⟩
  case sknpFault => exact ⟨_, execSknp_of_gt hgt, conclude_fault s .keyIndexOutOfRange⟩

end Sys2Proof.Proofs
end

section
/-! PROOFS. The good end of a run (70_reset_and_hazards.md R390): Terminate is the one outcome that sets run to
Terminated, HALT the one instruction that answers it, 0x0000 the one word of HALT, and no other part of a step writes
run so. -/

namespace Sys2Proof.Proofs

open Sys2Proof.Machine Sys2Proof.Laws

/-! ## The word of HALT -/

theorem selectGroup0_eq_halt_iff (f : Fields) : selectGroup0 f = .halt ↔ f.full = 0x0000#16 := by
  unfold selectGroup0
  split_ifs <;> simp_all

theorem selectGroup8_ne_halt (f : Fields) : selectGroup8 f ≠ .ok .halt := by
  unfold selectGroup8
  split <;> simp

theorem selectGroupE_ne_halt (f : Fields) : selectGroupE f ≠ .ok .halt := by
  unfold selectGroupE
  split <;> simp

theorem selectGroupF_ne_halt (f : Fields) : selectGroupF f ≠ .ok .halt := by
  unfold selectGroupF
  split <;> simp

/-- Of the groups of the opcode map only group 0 holds HALT. -/
theorem full_eq_zero_of_selectHandler_eq_halt {f : Fields} (h : selectHandler f = .ok .halt) : f.full = 0x0000#16 := by
  unfold selectHandler at h
  split at h
  -- Groups 0, 8, E and F have maps of their own, groups 5 and 9 ask for nibble1, every other group is one instruction.
  case h_1 => exact (selectGroup0_eq_halt_iff f).mp (Except.ok.inj h)
  case h_9 => exact absurd h (selectGroup8_ne_halt f)
  case h_15 => exact absurd h (selectGroupE_ne_halt f)
  case h_16 => exact absurd h (selectGroupF_ne_halt f)
  case h_6 | h_10 => split at h <;> simp at h
  all_goals simp at h

/-- HALT has no other word (30_encoding.md R108). -/
theorem eq_zero_of_decode_eq_halt {w : Word} (h : decode w = .ok .halt) : w = 0x0000#16 :=
  full_eq_zero_of_selectHandler_eq_halt h

/-! ## The outcome of HALT -/

/-- Moving pc never ends a run well. -/
theorem advance_run_eq_terminated_iff (s : State) (target : Nat) :
    (s.advance target).run = .terminated ↔ target ≤ maxPc ∧ s.run = .terminated := by
  unfold State.advance
  split <;> simp [*]

/-- Terminate is the one outcome that ends a run well (40_cycle.md R145). -/
theorem eq_terminate_of_conclude_terminated {u : State} {o : CycleOutcome} (hu : u.run ≠ .terminated)
    (h : (u.conclude o).run = .terminated) : o = .terminate := by
  cases o with
  | terminate => rfl
  | continueNext | skipNext | jump _ | requestRedraw =>
    exact absurd ((advance_run_eq_terminated_iff _ _).mp h).2 hu
  | waitingForKey _ => exact absurd h hu
  | malformed _ | fault _ => cases h

/-! ## The cycles -/

/-- What a good end leaves: pc stands at the word 0x0000, and Terminate is reported. -/
def HaltsInPlace (s t : State) : Prop :=
  s.fetchWord = some 0x0000#16 ∧ t.pc = s.pc ∧ t.outcome = some .terminate

/-- HALT is the one instruction that ends a run well. -/
theorem eq_halt_of_exec_terminated {i : Instr} {s t : State} (h : exec i s = .next t) (hs : s.run ≠ .terminated)
    (ht : t.run = .terminated) : i = .halt := by
  obtain ⟨u, o, hanswer, -, hrun, -, -, -, -, -, -, -, -, -, -, -, -, hhalt⟩ := exec_is_conclude i s
  obtain rfl : u.conclude o = t := Host.Outcome.next.inj (hanswer.symm.trans h)
  exact hhalt (eq_terminate_of_conclude_terminated (hrun ▸ hs) ht)

/-- An instruction cycle that ends the run well executed HALT, and nothing else. -/
theorem instructionCycle_terminated {s t : State} (h : instructionCycle s = .next t) (hs : s.run ≠ .terminated)
    (ht : t.run = .terminated) : s.fetchWord = some 0x0000#16 ∧ t = s.conclude .terminate := by
  obtain ⟨w, hw, ⟨i, hdecode, hexec⟩ | ⟨e, -, rfl⟩⟩ := instructionCycle_cases h
  · obtain rfl : i = .halt := eq_halt_of_exec_terminated hexec hs ht
    exact ⟨eq_zero_of_decode_eq_halt hdecode ▸ hw, (Host.Outcome.next.inj hexec).symm⟩
  · cases eq_terminate_of_conclude_terminated hs ht

/-- A poll cycle never ends a run well: its outcomes are Continue and WaitingForKey (40_cycle.md R150). -/
theorem poll_run_ne_terminated {s : State} (hs : s.run ≠ .terminated) : s.poll.run ≠ .terminated := by
  unfold State.poll
  split
  · exact mt (eq_terminate_of_conclude_terminated (by exact hs)) (by decide)
  · exact hs

/-- A cycle that ends the run well is the instruction cycle of HALT. -/
theorem cycle_haltsInPlace {keys : Keys} {s t : State} (h : cycle keys s = .next t) (hs : s.run ≠ .terminated)
    (ht : t.run = .terminated) : HaltsInPlace s t := by
  obtain ⟨-, ⟨-, -, u, hcycle, rfl⟩ | ⟨-, -, rfl⟩ | ⟨-, rfl⟩⟩ := cycle_cases h
  case inl =>
    obtain ⟨hword, rfl⟩ := instructionCycle_terminated (s := s.beginCycle keys) hcycle hs ht
    exact ⟨hword, rfl, rfl⟩
  case inr.inl => exact absurd ht (poll_run_ne_terminated (s := s.beginCycle keys) hs)
  case inr.inr => exact absurd ht hs

/-! ## The other moves -/

theorem load_run_eq {rom : Rom} {s t : State} (h : load rom s = .next t) : t.run = s.run := by
  obtain ⟨-, -, rfl | ⟨b, -, -, rfl⟩⟩ := load_cases h <;> rfl

/-- Only a cycle writes run: timer steps and ROM loads leave it alone. -/
theorem step_run_eq_or_cycleBegins {s t : State} (h : step s = .next t) :
    t.run = s.run ∨ ∃ keys u, CycleBegins s keys u ∧ cycle keys u = .next t := by
  obtain ⟨keys, rest, hp, hcycle⟩ | ⟨rest, -, rfl⟩ | ⟨rest, -, rfl⟩ | ⟨rom, rest, -, hload⟩ | ⟨hp, hhost, hcycle⟩ |
    ⟨-, -, rfl⟩ := step_cases h
  · exact .inr ⟨keys, _, .inl ⟨rest, hp, rfl⟩, hcycle⟩
  · exact .inl rfl
  · exact .inl rfl
  · exact .inl (load_run_eq (s := { s with pending := rest }) hload)
  · exact .inr ⟨_, _, .inr ⟨hp, hhost, rfl, rfl⟩, hcycle⟩
  · exact .inl rfl

/-! ## The obligation -/

/-- Settles O14: the step took a cycle, whose beginning leaves run, pc and memory alone, and the cycle executed
HALT. -/
theorem onlyTheHaltWordTerminates : Obligations.OnlyTheHaltWordTerminates := by
  intro s t hstep hs ht
  obtain hkept | ⟨keys, u, hbegins, hcycle⟩ := step_run_eq_or_cycleBegins hstep
  case inl => exact absurd (hkept.symm.trans ht) hs
  case inr =>
    have hframe := cycleBegins_frame hbegins
    have hu : u.run ≠ .terminated := by rw [hframe]; exact hs
    obtain ⟨hword, hpc, hreport⟩ := cycle_haltsInPlace hcycle hu ht
    rw [hframe] at hword hpc
    exact ⟨hword, hpc, hreport⟩

end Sys2Proof.Proofs
end

section
/-! PROOFS. The encoding (30_encoding.md): decoding an encoded instruction, encoding a decoded word, the malformed
words, and the assembler, whose lines spell well-formed instructions. -/

namespace Sys2Proof.Proofs

open Sys2Proof.Machine Sys2Proof.Laws

/-! ## The words that no earlier part decodes -/

@[simp] theorem decode_groupC (x : Reg) (nn : Byte) : decode (encodeXnn 0xC#4 x nn) = .ok (.rnd x nn) := by
  simp [decode, selectHandler]

@[simp] theorem decode_ldVxDt (x : Reg) : decode (encodeXnn 0xF#4 x 0x07#8) = .ok (.ldVxDt x) := by
  simp [decode_groupF, selectGroupF]

@[simp] theorem decode_ldDtVx (x : Reg) : decode (encodeXnn 0xF#4 x 0x15#8) = .ok (.ldDtVx x) := by
  simp [decode_groupF, selectGroupF]

@[simp] theorem decode_ldStVx (x : Reg) : decode (encodeXnn 0xF#4 x 0x18#8) = .ok (.ldStVx x) := by
  simp [decode_groupF, selectGroupF]

/-! ## Decoding an encoded instruction -/

theorem wellFormed_sys_iff (nnn : BitVec 12) :
    (Instr.sys nnn).wellFormed = true ↔ nnn ≠ 0x000#12 ∧ nnn ≠ 0x0E0#12 ∧ nnn ≠ 0x0EE#12 := by
  simp [Instr.wellFormed, and_assoc]

theorem decode_encode {i : Instr} (h : i.wellFormed = true) : decode (encode i) = .ok i := by
  cases i with
  | halt | cls | ret => rfl
  | sys nnn =>
    obtain ⟨hHalt, hCls, hRet⟩ := (wellFormed_sys_iff nnn).mp h
    exact decode_group0_sys hHalt hCls hRet
  | jp nnn => exact decode_group1 nnn
  | call nnn => exact decode_group2 nnn
  | seVxNn x nn => exact decode_group3 x nn
  | sneVxNn x nn => exact decode_group4 x nn
  | seVxVy x y => exact decode_group5 x y 0x0#4
  | ldVxNn x nn => exact decode_group6 x nn
  | addVxNn x nn => exact decode_group7 x nn
  | ldVxVy x y => exact decode_ldVxVy x y
  | orVxVy x y => exact decode_orVxVy x y
  | andVxVy x y => exact decode_andVxVy x y
  | xorVxVy x y => exact decode_xorVxVy x y
  | addVxVy x y => exact decode_addVxVy x y
  | subVxVy x y => exact decode_subVxVy x y
  | shrVx x y => exact decode_shrVx x y
  | subnVxVy x y => exact decode_subnVxVy x y
  | shlVx x y => exact decode_shlVx x y
  | sneVxVy x y => exact decode_group9 x y 0x0#4
  | ldINnn nnn => exact decode_groupA nnn
  | jpV0 nnn => exact decode_groupB nnn
  | rnd x nn => exact decode_groupC x nn
  | drw x y n => exact decode_groupD x y n
  | skp x => exact decode_skp x
  | sknp x => exact decode_sknp x
  | ldVxDt x => exact decode_ldVxDt x
  | ldVxK x => exact decode_ldVxK x
  | ldDtVx x => exact decode_ldDtVx x
  | ldStVx x => exact decode_ldStVx x
  | addIVx x => exact decode_addIVx x
  | ldFVx x => exact decode_ldFVx x
  | ldBVx x => exact decode_ldBVx x
  | ldMemIVx x => exact decode_ldMemIVx x
  | ldVxMemI x => exact decode_ldVxMemI x

/-! ## Words put together again from their fields -/

theorem nibbleOf_toFin (b : BitVec 4) : nibbleOf b.toFin = b := rfl

theorem encodeNnn_of_nibble4 {w : Word} {op : BitVec 4} (h : (fieldsOf w).nibble4 = op) :
    encodeNnn op (fieldsOf w).NNN = w :=
  h ▸ encodeNnn_fieldsOf w

/-- NNN is X before the right byte. -/
theorem X_append_rightByte (w : Word) : nibbleOf (fieldsOf w).X ++ (fieldsOf w).rightByte = (fieldsOf w).NNN := by
  simp only [fieldsOf, nibbleOf_toFin]
  exact BitVec.extractLsb'_append_extractLsb'_eq_extractLsb' (by decide)

/-- The right byte is Y before the low nibble. -/
theorem Y_append_nibble1 (w : Word) : nibbleOf (fieldsOf w).Y ++ (fieldsOf w).nibble1 = (fieldsOf w).rightByte := by
  simp only [fieldsOf, nibbleOf_toFin]
  exact BitVec.extractLsb'_append_extractLsb'_eq_extractLsb' (by decide)

theorem encodeXnn_of_fields {w : Word} {op : BitVec 4} {nn : Byte} (h4 : (fieldsOf w).nibble4 = op)
    (hnn : (fieldsOf w).rightByte = nn) : encodeXnn op (fieldsOf w).X nn = w := by
  rw [← hnn, encodeXnn, X_append_rightByte]
  exact encodeNnn_of_nibble4 h4

theorem encodeXyn_of_fields {w : Word} {op n : BitVec 4} (h4 : (fieldsOf w).nibble4 = op)
    (h1 : (fieldsOf w).nibble1 = n) : encodeXyn op (fieldsOf w).X (fieldsOf w).Y n = w := by
  rw [← h1, encodeXyn, Y_append_nibble1]
  exact encodeXnn_of_fields h4 rfl

/-! ## Encoding a decoded word -/

/-- The instruction is one that an encoding exists for, and its encoding is the word. -/
def Spells (i : Instr) (w : Word) : Prop :=
  i.wellFormed = true ∧ encode i = w

theorem selectGroup0_spells {w : Word} (h : (fieldsOf w).nibble4 = 0x0#4) : Spells (selectGroup0 (fieldsOf w)) w := by
  have hw : encodeNnn 0x0#4 (fieldsOf w).NNN = w := encodeNnn_of_nibble4 h
  unfold selectGroup0
  split_ifs with hHalt hCls hRet
  · exact ⟨rfl, hHalt.symm⟩
  · exact ⟨rfl, hCls.symm⟩
  · exact ⟨rfl, hRet.symm⟩
  · have hne {k : BitVec 12} (hk : w ≠ encodeNnn 0x0#4 k) : (fieldsOf w).NNN ≠ k := fun e => hk (e ▸ hw.symm)
    exact ⟨(wellFormed_sys_iff _).mpr ⟨hne hHalt, hne hCls, hne hRet⟩, hw⟩

theorem selectGroup8_spells {w : Word} {i : Instr} (h4 : (fieldsOf w).nibble4 = 0x8#4)
    (h : selectGroup8 (fieldsOf w) = .ok i) : Spells i w := by
  unfold selectGroup8 at h
  split at h
  case h_10 => cases h
  all_goals
    next h1 =>
      cases h
      exact ⟨rfl, encodeXyn_of_fields h4 h1⟩

theorem selectGroupE_spells {w : Word} {i : Instr} (h4 : (fieldsOf w).nibble4 = 0xE#4)
    (h : selectGroupE (fieldsOf w) = .ok i) : Spells i w := by
  unfold selectGroupE at h
  split at h
  case h_3 => cases h
  all_goals
    next hnn =>
      cases h
      exact ⟨rfl, encodeXnn_of_fields h4 hnn⟩

theorem selectGroupF_spells {w : Word} {i : Instr} (h4 : (fieldsOf w).nibble4 = 0xF#4)
    (h : selectGroupF (fieldsOf w) = .ok i) : Spells i w := by
  unfold selectGroupF at h
  split at h
  case h_10 => cases h
  all_goals
    next hnn =>
      cases h
      exact ⟨rfl, encodeXnn_of_fields h4 hnn⟩

/-- A word that decodes to an instruction is that instruction's word. -/
theorem spells_of_decode {w : Word} {i : Instr} (h : decode w = .ok i) : Spells i w := by
  unfold decode selectHandler at h
  split at h
  -- Groups 0, 8, E and F have maps of their own, groups 5 and 9 ask for nibble1, every other group is one format.
  case h_1 h4 => exact Except.ok.inj h ▸ selectGroup0_spells h4
  case h_2 h4 | h_3 h4 | h_11 h4 | h_12 h4 => cases h; exact ⟨rfl, encodeNnn_of_nibble4 h4⟩
  case h_4 h4 | h_5 h4 | h_7 h4 | h_8 h4 | h_13 h4 => cases h; exact ⟨rfl, encodeXnn_of_fields h4 rfl⟩
  case h_6 h4 | h_10 h4 =>
    split at h
    case isTrue h1 => cases h; exact ⟨rfl, encodeXyn_of_fields h4 h1⟩
    case isFalse => cases h
  case h_9 h4 => exact selectGroup8_spells h4 h
  case h_14 h4 => cases h; exact ⟨rfl, encodeXyn_of_fields h4 rfl⟩
  case h_15 h4 => exact selectGroupE_spells h4 h
  case h_16 => exact selectGroupF_spells (by simp only [imp_false] at *; bv_omega) h

/-! ## The malformed words -/

theorem nibble4_toNat (w : Word) : (fieldsOf w).nibble4.toNat = w.toNat / 4096 := by
  simp only [fieldsOf, BitVec.extractLsb'_toNat, Nat.shiftRight_eq_div_pow]
  omega

theorem nibble1_toNat (w : Word) : (fieldsOf w).nibble1.toNat = w.toNat % 16 := by
  simp [fieldsOf, BitVec.extractLsb'_toNat]

theorem rightByte_toNat (w : Word) : (fieldsOf w).rightByte.toNat = w.toNat % 256 := by
  simp [fieldsOf, BitVec.extractLsb'_toNat]

/-- Group 8 rejects the low nibbles 8 to 0xD and 0xF (30_encoding.md R109). -/
theorem selectGroup8_eq_noPattern_iff (f : Fields) :
    selectGroup8 f = .error .noPattern ↔ 8 ≤ f.nibble1.toNat ∧ f.nibble1.toNat ≠ 0xE := by
  unfold selectGroup8
  split
  case h_10 => simp only [imp_false, true_iff] at *; bv_omega
  all_goals simp [*]

theorem selectGroupE_eq_noPattern_iff (f : Fields) :
    selectGroupE f = .error .noPattern ↔ f.rightByte.toNat ∉ [0x9E, 0xA1] := by
  unfold selectGroupE
  split
  case h_3 => simp only [imp_false, List.mem_cons, List.not_mem_nil, or_false, true_iff] at *; bv_omega
  all_goals simp [*]

theorem selectGroupF_eq_noPattern_iff (f : Fields) :
    selectGroupF f = .error .noPattern ↔
      f.rightByte.toNat ∉ [0x07, 0x0A, 0x15, 0x18, 0x1E, 0x29, 0x33, 0x55, 0x65] := by
  unfold selectGroupF
  split
  case h_10 => simp only [imp_false, List.mem_cons, List.not_mem_nil, or_false, true_iff] at *; bv_omega
  all_goals simp [*]

/-- The opcode map rejects in groups 5 and 9 by the low nibble, and in groups 8, E and F as their own maps do
(30_encoding.md R112). -/
theorem selectHandler_eq_noPattern_iff (f : Fields) :
    selectHandler f = .error .noPattern ↔
      ((f.nibble4.toNat = 0x5 ∨ f.nibble4.toNat = 0x9) ∧ f.nibble1.toNat ≠ 0) ∨
      (f.nibble4.toNat = 0x8 ∧ selectGroup8 f = .error .noPattern) ∨
      (f.nibble4.toNat = 0xE ∧ selectGroupE f = .error .noPattern) ∨
      (f.nibble4.toNat = 0xF ∧ selectGroupF f = .error .noPattern) := by
  unfold selectHandler
  split
  case h_16 =>
    have h4 : f.nibble4.toNat = 0xF := by simp only [imp_false] at *; bv_omega
    simp [h4]
  case h_6 h4 | h_10 h4 => simp [h4, BitVec.toNat_eq]
  all_goals simp [*]

/-! ## The assembler -/

theorem immOf_val (n : Fin 16) : immOf 4 n.val = some (nibbleOf n) :=
  immOf_toNat (nibbleOf n)

theorem instrOfLine_lineOf {i : Instr} (h : i.wellFormed = true) : instrOfLine (lineOf i) = some i := by
  cases i with
  | sys nnn => simp [lineOf, instrOfLine, ifWellFormed, h]
  | drw x y n => simp [lineOf, instrOfLine, immOf_val]
  | _ => simp [lineOf, instrOfLine]

/-- Only SYS has terms that no encoding exists for, and the assembler checks them. -/
theorem wellFormed_of_instrOfLine {l : AsmLine} {i : Instr} (h : instrOfLine l = some i) : i.wellFormed = true := by
  cases i with
  | sys nnn =>
    unfold instrOfLine at h
    split at h
    -- The line of SYS, and that of JP V0, which asks for V0.
    case h_4 => simp_all [ifWellFormed, Option.bind_eq_some_iff]
    case h_25 => split at h <;> simp at h
    all_goals simp at h
  | _ => rfl

/-! ## The obligations -/

/-- Settles O3: group by group, the decoder reads the fields that the encoder wrote. -/
theorem decodeOfEncodeIsTheInstruction : Obligations.DecodeOfEncodeIsTheInstruction :=
  fun _ => decode_encode

/-- Settles O4: each branch of the opcode map fixes the bits that its instruction's encoding fixes, and the other bits
are the operands. -/
theorem encodeOfDecodeIsTheWord : Obligations.EncodeOfDecodeIsTheWord :=
  fun _ _ => spells_of_decode

/-- Settles O5: the fields of a word are its quotients and remainders. -/
theorem malformedWordsAreExactlyTheListedOnes : Obligations.MalformedWordsAreExactlyTheListedOnes := by
  intro w
  rw [decode, selectHandler_eq_noPattern_iff, selectGroup8_eq_noPattern_iff, selectGroupE_eq_noPattern_iff,
    selectGroupF_eq_noPattern_iff, nibble4_toNat, nibble1_toNat, rightByte_toNat]

/-- Settles O6: a line spells a well-formed instruction, and the word of one decodes to it. -/
theorem assemblyLinesSpellTheirWord : Obligations.AssemblyLinesSpellTheirWord := by
  refine ⟨fun i hi => ?spelled, fun l w h => ?decoded, fun x => ⟨rfl, rfl⟩⟩
  case spelled => rw [assemble, instrOfLine_lineOf hi, Option.map_some]
  case decoded =>
    obtain ⟨i, hline, rfl⟩ := Option.map_eq_some_iff.mp h
    exact ⟨i, hline, decode_encode (wellFormed_of_instrOfLine hline)⟩

/-- Settles O2: the eleven words, decoded by evaluation. -/
theorem wordsWrittenOutDecode : Obligations.WordsWrittenOutDecode := by
  unfold Obligations.WordsWrittenOutDecode
  decide

end Sys2Proof.Proofs
end

section
/-! PROOFS. What every instruction reports, and what it neither reads nor writes (10_state.md R33, R35, R41, R43;
40_cycle.md R144). -/

namespace Sys2Proof.Proofs

open Sys2Proof.Machine Sys2Proof.Config Sys2Proof.Laws

/-! ## The outcome an instruction reports -/

/-- The outcome of a skip. -/
def skipOutcome (c : Bool) : CycleOutcome :=
  if c then .skipNext else .continueNext

/-- The outcome that the handler of an instruction answers (40_cycle.md R144). `exec_eq_finish` ties it to `exec`. -/
def handlerOutcome (s : State) : Instr → CycleOutcome
  | .halt => .terminate
  | .cls => .requestRedraw
  | .ret =>
    match s.stack.getLast? with
    | none => .malformed .emptyStack
    | some r => if r = 0x0000#16 then .malformed .emptyStack else .jump r.toNat
  | .jp nnn => .jump nnn.toNat
  | .call nnn => if s.stackFull then .fault .stackOverflow else .jump nnn.toNat
  | .jpV0 nnn => .jump (targetPlusV0 nnn s)
  | .seVxNn x nn => skipOutcome (s.reg x == nn)
  | .sneVxNn x nn => skipOutcome (s.reg x != nn)
  | .seVxVy x y => skipOutcome (s.reg x == s.reg y)
  | .sneVxVy x y => skipOutcome (s.reg x != s.reg y)
  | .skp x =>
    match keyIndex x s with
    | none => .fault .keyIndexOutOfRange
    | some k => skipOutcome (keyDown s.keyCur k)
  | .sknp x =>
    match keyIndex x s with
    | none => .fault .keyIndexOutOfRange
    | some k => skipOutcome (!keyDown s.keyCur k)
  | .drw _ _ n => if dataInBounds s n.val then .requestRedraw else .fault .memoryBoundsViolation
  | .ldBVx _ => if dataInBounds s 3 then .continueNext else .fault .memoryBoundsViolation
  | .ldMemIVx x | .ldVxMemI x =>
    if dataInBounds s (transferCount x) then .continueNext else .fault .memoryBoundsViolation
  | .ldVxK x =>
    match firstEdge s.cfg.keyScan s.keyCur s.keyPrev with
    | some _ => .continueNext
    | none => .waitingForKey x
  | .sys _ | .ldVxNn _ _ | .addVxNn _ _ | .ldVxVy _ _ | .orVxVy _ _ | .andVxVy _ _ | .xorVxVy _ _ | .addVxVy _ _
  | .subVxVy _ _ | .shrVx _ _ | .subnVxVy _ _ | .shlVx _ _ | .ldINnn _ | .rnd _ _ | .ldVxDt _ | .ldDtVx _ | .ldStVx _
  | .addIVx _ | .ldFVx _ => .continueNext

theorem execRet_eq_finish (s : State) : execRet s = finish (handlerOutcome s .ret) s.pop.2 := by
  simp only [execRet, handlerOutcome, State.pop]
  cases s.stack.getLast? with
  | none => rfl
  | some r => exact (apply_ite (fun o => finish o _) _ _ _).symm

/-- Every instruction finishes with its outcome. -/
theorem exec_eq_finish (i : Instr) (s : State) : ∃ u, exec i s = finish (handlerOutcome s i) u := by
  cases i with
  | ret => exact ⟨_, execRet_eq_finish s⟩
  | call _ | drw _ _ _ | ldBVx _ | ldMemIVx _ | ldVxMemI _ =>
    simp only [exec, execCall, execDrw, execLdBVx, execLdMemIVx, execLdVxMemI, handlerOutcome]
    split <;> exact ⟨_, rfl⟩
  | skp x | sknp x =>
    simp only [exec, execSkp, execSknp, handlerOutcome]
    cases keyIndex x s <;> exact ⟨_, rfl⟩
  | ldVxK x =>
    simp only [exec, execLdVxK, handlerOutcome]
    cases firstEdge s.cfg.keyScan s.keyCur s.keyPrev <;> exact ⟨_, rfl⟩
  | _ => exact ⟨_, rfl⟩

theorem outcome_of_exec {i : Instr} {s t : State} (h : exec i s = .next t) :
    t.outcome = some (handlerOutcome s i) := by
  obtain ⟨u, hu⟩ := exec_eq_finish i s
  obtain rfl : u.conclude _ = t := Host.Outcome.next.inj (hu.symm.trans h)
  exact conclude_outcome u _

theorem redraw_of_exec {i : Instr} {s t : State} (h : exec i s = .next t) :
    t.redraw = (handlerOutcome s i == .requestRedraw) := by
  obtain ⟨u, hu⟩ := exec_eq_finish i s
  obtain rfl : u.conclude _ = t := Host.Outcome.next.inj (hu.symm.trans h)
  exact conclude_redraw u _

/-- Only CLS and a DRW inside memory answer RequestRedraw (40_cycle.md R154). -/
theorem handlerOutcome_eq_requestRedraw_iff (i : Instr) (s : State) :
    handlerOutcome s i = .requestRedraw ↔
      i = .cls ∨ ∃ x y n, i = .drw x y n ∧ (n = 0 ∨ s.I.toNat + n.val - 1 < memSize) := by
  cases i with
  | drw x y n => simp [handlerOutcome, dataInBounds_iff_eq_zero_or, or_iff_not_imp_left]
  | ret | skp x | sknp x | ldVxK x =>
    simp only [handlerOutcome]
    split <;> simp [skipOutcome, ite_eq_iff]
  | _ => simp [handlerOutcome, skipOutcome, ite_eq_iff]

/-- Only FX0A without an edge answers WaitingForKey (45_timers_keys.md R310). -/
theorem eq_ldVxK_of_handlerOutcome {i : Instr} {s : State} {x : Reg} (h : handlerOutcome s i = .waitingForKey x) :
    i = .ldVxK x ∧ NoEdge s := by
  cases i with
  | ldVxK x' =>
    simp only [handlerOutcome] at h
    split at h
    case h_1 => cases h
    case h_2 hnone => exact ⟨by simpa using h, firstEdge_none.mp hnone⟩
  | ret | skp x | sknp x =>
    simp only [handlerOutcome] at h
    split at h <;> simp [skipOutcome, ite_eq_iff] at h
  | _ => simp [handlerOutcome, skipOutcome, ite_eq_iff] at h

/-- FX0A writes nothing before its wait begins. -/
theorem eq_conclude_of_exec_waits {i : Instr} {s t : State} {x : Reg} (h : exec i s = .next t)
    (ho : t.outcome = some (.waitingForKey x)) : t = s.conclude (.waitingForKey x) := by
  have hreport : handlerOutcome s i = .waitingForKey x := Option.some.inj ((outcome_of_exec h).symm.trans ho)
  obtain ⟨rfl, hnone⟩ := eq_ldVxK_of_handlerOutcome hreport
  exact Host.Outcome.next.inj (h.symm.trans (execLdVxK_of_noEdge x hnone))

/-! ## The obligations -/

/-- Settles O8: `exec_is_conclude` gives the reported outcome, applied to a state whose pc and run are those before;
the outcomes that stop or wait come before all writes, but for the entry that a Malformed RET removes. -/
theorem execAppliesTheReportedOutcome : Obligations.ExecAppliesTheReportedOutcome := by
  intro i s
  obtain ⟨u, o, hexec, hpc, hrun, -, -, -, -, -, -, -, -, -, -, hfault, hmalformed, hhalt⟩ := exec_is_conclude i s
  refine ⟨u.conclude o, o, hexec, conclude_outcome u o, ?_⟩
  cases o with
  | continueNext => simpa [Continues, MovesTo, hpc, hrun] using conclude_continueNext u
  | skipNext => simpa [Skips, MovesTo, hpc, hrun] using conclude_skipNext u
  | jump target => simpa [JumpsTo, MovesTo, hpc, hrun] using conclude_jump u target
  | requestRedraw => simpa [Redraws, MovesTo, hpc, hrun] using conclude_requestRedraw u
  | waitingForKey x => exact eq_conclude_of_exec_waits hexec (conclude_outcome u _)
  | terminate =>
    obtain rfl := hhalt rfl
    exact (Host.Outcome.next.inj hexec).symm
  | malformed cause =>
    obtain rfl := hmalformed cause rfl
    exact ⟨rfl, hpc, rfl, rfl⟩
  | fault k =>
    obtain rfl := hfault k rfl
    exact conclude_fault u k

/-- Settles O20: the reported outcome is the fault, and it was applied to the state before the instruction. -/
theorem handlerFaultsWriteNothing : Obligations.HandlerFaultsWriteNothing := by
  intro i s t k hexec hreport
  obtain ⟨u, o, hanswer, -, -, -, -, -, -, -, -, -, -, -, -, hfault, -, -⟩ := exec_is_conclude i s
  obtain rfl : u.conclude o = t := Host.Outcome.next.inj (hanswer.symm.trans hexec)
  obtain rfl : o = .fault k := by simpa using hreport
  obtain rfl := hfault k rfl
  exact conclude_fault u k

/-- Settles O21: the redraw pulse is the report of RequestRedraw. -/
theorem onlyClsAndDrwRedraw : Obligations.OnlyClsAndDrwRedraw := by
  intro i s t h
  rw [redraw_of_exec h, beq_iff_eq, handlerOutcome_eq_requestRedraw_iff]

end Sys2Proof.Proofs
end

section
/-! PROOFS. Noninterference: an instruction neither reads nor writes a part of the state it does not name
(10_state.md R33, R35, R41, R43). One replacement of any parts commutes with every instruction that names none of
them, so one case analysis serves all eight parts. -/

namespace Sys2Proof.Proofs

open Sys2Proof.Machine Sys2Proof.Config Sys2Proof.Laws

/-! ## Replacing parts of the state -/

/-- New values for some of the eight parts that instructions name; a part without one is kept. -/
structure Replacement where
  I : Option Word := none
  stack : Option (List Word) := none
  mem : Option Memory := none
  delay : Option Byte := none
  sound : Option Byte := none
  keyCur : Option Keys := none
  keyPrev : Option Keys := none
  fb : Option Framebuffer := none

/-- The state with the parts replaced. -/
def Replacement.apply (p : Replacement) (s : State) : State :=
  { s with
    I := p.I.getD s.I, stack := p.stack.getD s.stack, mem := p.mem.getD s.mem, delay := p.delay.getD s.delay
    sound := p.sound.getD s.sound, keyCur := p.keyCur.getD s.keyCur, keyPrev := p.keyPrev.getD s.keyPrev
    fb := p.fb.getD s.fb }

/-- The replacement keeps every part that the instruction names. -/
structure Replacement.Spares (p : Replacement) (i : Instr) : Prop where
  I : namesI i = true → p.I = none
  stack : namesStack i = true → p.stack = none
  mem : namesMemory i = true → p.mem = none
  delay : namesDelay i = true → p.delay = none
  sound : namesSound i = true → p.sound = none
  keyCur : namesKeys i = true → p.keyCur = none
  keyPrev : namesKeySnapshot i = true → p.keyPrev = none
  fb : namesScreen i = true → p.fb = none

section
variable (p : Replacement) (s : State)

/-! ## The shared operations -/

theorem advance_apply (target : Nat) : (p.apply s).advance target = p.apply (s.advance target) := by
  unfold State.advance
  split <;> rfl

theorem conclude_apply (o : CycleOutcome) : (p.apply s).conclude o = p.apply (s.conclude o) := by
  cases o with
  | continueNext | skipNext | jump _ | requestRedraw => exact advance_apply p (s.report _) _
  | waitingForKey _ | terminate | malformed _ | fault _ => rfl

theorem mapNext_finish (o : CycleOutcome) : mapNext p.apply (finish o s) = finish o (p.apply s) :=
  congrArg Host.Outcome.next (conclude_apply p s o).symm

theorem writeRF_apply (x : Reg) (r : Byte) (f : Bool) : (p.apply s).writeRF x r f = p.apply (s.writeRF x r f) := by
  simp only [State.writeRF, show (p.apply s).cfg = s.cfg from rfl]
  split <;> rfl

theorem mapNext_finish_writeRF (x : Reg) (r : Byte) (f : Bool) :
    mapNext p.apply (finish .continueNext (s.writeRF x r f)) = finish .continueNext ((p.apply s).writeRF x r f) := by
  rw [writeRF_apply, mapNext_finish]

theorem drawByte_apply : (p.apply s).drawByte = (s.drawByte.1, p.apply s.drawByte.2) := by
  simp only [State.drawByte, show (p.apply s).rand = s.rand from rfl]
  split <;> rfl

theorem keyIndex_apply (x : Reg) : keyIndex x (p.apply s) = keyIndex x s := rfl

theorem firstEdge_apply (hCur : p.keyCur = none) (hPrev : p.keyPrev = none) :
    firstEdge (p.apply s).cfg.keyScan (p.apply s).keyCur (p.apply s).keyPrev =
      firstEdge s.cfg.keyScan s.keyCur s.keyPrev := by
  simp [Replacement.apply, hCur, hPrev]

theorem stepI_apply (h : p.I = none) (x : Reg) : stepI x (p.apply s) = p.apply (stepI x s) := by
  simp only [stepI, show (p.apply s).cfg = s.cfg from rfl]
  split
  · simp [Replacement.apply, State.setI, h]
  · rfl

theorem mapNext_finish_stepI (h : p.I = none) (x : Reg) :
    mapNext p.apply (finish .continueNext (stepI x s)) = finish .continueNext (stepI x (p.apply s)) := by
  rw [stepI_apply p s h, mapNext_finish]

end

/-- A handler that checks first: both its answers commute with a function on states. -/
theorem mapNext_ite {f : State → State} {c : Prop} [Decidable c] {a b a' b' : Host.Outcome State Fault Refusal}
    (ha : mapNext f a = a') (hb : mapNext f b = b') :
    mapNext f (if c then a else b) = if c then a' else b' := by
  rw [← ha, ← hb, apply_ite (mapNext f)]

/-! ## The instructions -/

/-- An instruction commutes with a replacement that spares what it names. -/
theorem mapNext_exec {p : Replacement} {i : Instr} (h : p.Spares i) (s : State) :
    mapNext p.apply (exec i s) = exec i (p.apply s) := by
  obtain ⟨I, stack, mem, delay, sound, keyCur, keyPrev, fb⟩ := p
  cases i with
  | halt | sys _ | jp _ | jpV0 _ | seVxNn _ _ | sneVxNn _ _ | seVxVy _ _ | sneVxVy _ _ => exact mapNext_finish _ s _
  | ldVxNn x nn => exact mapNext_finish _ (s.setReg x nn) _
  | addVxNn x nn => exact mapNext_finish _ (s.setReg x (s.reg x + nn)) _
  | ldVxVy x y => exact mapNext_finish _ (s.setReg x (s.reg y)) _
  | orVxVy x y => exact mapNext_finish _ (s.setReg x (s.reg x ||| s.reg y)) _
  | andVxVy x y => exact mapNext_finish _ (s.setReg x (s.reg x &&& s.reg y)) _
  | xorVxVy x y => exact mapNext_finish _ (s.setReg x (s.reg x ^^^ s.reg y)) _
  | addVxVy x y | subVxVy x y | shrVx x y | subnVxVy x y | shlVx x y => exact mapNext_finish_writeRF _ s x _ _
  | rnd x nn =>
    simp only [exec, execRnd, drawByte_apply]
    exact mapNext_finish _ (s.drawByte.2.setReg x (s.drawByte.1 &&& nn)) _
  | cls =>
    obtain rfl : fb = none := h.fb rfl
    exact mapNext_finish _ { s with fb := clearScreen } _
  | drw x y n =>
    obtain rfl : I = none := h.I rfl
    obtain rfl : mem = none := h.mem rfl
    obtain rfl : fb = none := h.fb rfl
    exact mapNext_ite (mapNext_finish _ (({ s with fb := (drawSprite x y n s).fb } : State).setReg VF
      (flagByte (drawSprite x y n s).collision)) _) (mapNext_finish _ s _)
  | ret =>
    obtain rfl : stack = none := h.stack rfl
    simp only [exec, execRet_eq_finish]
    exact mapNext_finish _ s.pop.2 _
  | call nnn =>
    obtain rfl : stack = none := h.stack rfl
    exact mapNext_ite (mapNext_finish _ s _) (mapNext_finish _ (s.push (returnAddress s)) _)
  | ldINnn nnn =>
    obtain rfl : I = none := h.I rfl
    exact mapNext_finish _ (s.setI (addressOf nnn)) _
  | addIVx x =>
    obtain rfl : I = none := h.I rfl
    exact mapNext_finish _ (s.setI (s.I.toNat + (s.reg x).toNat)) _
  | ldFVx x =>
    obtain rfl : I = none := h.I rfl
    exact mapNext_finish _ (s.setI (glyphAddress x s)) _
  | ldBVx x =>
    obtain rfl : I = none := h.I rfl
    obtain rfl : mem = none := h.mem rfl
    exact mapNext_ite
      (mapNext_finish _ { s with mem := s.mem.writeBytes (dataAddress s 0) (bcdDigits (s.reg x)) } _)
      (mapNext_finish _ s _)
  | ldMemIVx x =>
    obtain rfl : I = none := h.I rfl
    obtain rfl : mem = none := h.mem rfl
    exact mapNext_ite
      (mapNext_finish_stepI _
        { s with mem := s.mem.writeBytes (dataAddress s 0) (s.V.toList.take (transferCount x)) } rfl x)
      (mapNext_finish _ s _)
  | ldVxMemI x =>
    obtain rfl : I = none := h.I rfl
    obtain rfl : mem = none := h.mem rfl
    exact mapNext_ite
      (mapNext_finish_stepI _
        { s with V := loadRegs s.V 0 (s.mem.readBytes (dataAddress s 0) (transferCount x)) } rfl x)
      (mapNext_finish _ s _)
  | ldVxDt x =>
    obtain rfl : delay = none := h.delay rfl
    exact mapNext_finish _ (s.setReg x s.delay) _
  | ldDtVx x =>
    obtain rfl : delay = none := h.delay rfl
    exact mapNext_finish _ { s with delay := s.reg x } _
  | ldStVx x =>
    obtain rfl : sound = none := h.sound rfl
    exact mapNext_finish _ { s with sound := s.reg x } _
  | skp x =>
    obtain rfl : keyCur = none := h.keyCur rfl
    simp only [exec, execSkp, keyIndex_apply]
    cases keyIndex x s <;> exact mapNext_finish _ s _
  | sknp x =>
    obtain rfl : keyCur = none := h.keyCur rfl
    simp only [exec, execSknp, keyIndex_apply]
    cases keyIndex x s <;> exact mapNext_finish _ s _
  | ldVxK x =>
    obtain rfl : keyCur = none := h.keyCur rfl
    obtain rfl : keyPrev = none := h.keyPrev rfl
    simp only [exec, execLdVxK]
    rw [firstEdge_apply (hCur := rfl) (hPrev := rfl)]
    cases firstEdge s.cfg.keyScan s.keyCur s.keyPrev with
    | none => exact mapNext_finish _ s _
    | some k => exact mapNext_finish _ (s.setReg x (BitVec.ofNat 8 k)) _

/-! ## The obligation -/

/-- Settles O19: for each part, the replacement of that part alone; it spares every instruction that does not name
it. -/
theorem execIgnoresWhatItDoesNotName : Obligations.ExecIgnoresWhatItDoesNotName := by
  intro i s
  refine ⟨fun h v => ?I, fun h v => ?stack, fun h v => ?mem, fun h v => ?delay, fun h v => ?sound, fun h v => ?keyCur,
    fun h v => ?keyPrev, fun h v => ?fb⟩
  case I => exact (mapNext_exec (p := { I := some v }) (by constructor <;> simp [h]) s).symm
  case stack => exact (mapNext_exec (p := { stack := some v }) (by constructor <;> simp [h]) s).symm
  case mem => exact (mapNext_exec (p := { mem := some v }) (by constructor <;> simp [h]) s).symm
  case delay => exact (mapNext_exec (p := { delay := some v }) (by constructor <;> simp [h]) s).symm
  case sound => exact (mapNext_exec (p := { sound := some v }) (by constructor <;> simp [h]) s).symm
  case keyCur => exact (mapNext_exec (p := { keyCur := some v }) (by constructor <;> simp [h]) s).symm
  case keyPrev => exact (mapNext_exec (p := { keyPrev := some v }) (by constructor <;> simp [h]) s).symm
  case fb => exact (mapNext_exec (p := { fb := some v }) (by constructor <;> simp [h]) s).symm

end Sys2Proof.Proofs
end

section
/-! PROOFS. The cycle (40_cycle.md R140 to R157): what a cycle request does in an active, a waiting and a stopped run,
scripted or not. -/

namespace Sys2Proof.Proofs

open Sys2Proof.Machine Sys2Proof.Config Sys2Proof.Laws

/-! ## The beginning of a cycle -/

/-- Nothing but the counters, the script and its count differs. -/
def TimersOnly (s t : State) : Prop :=
  t = { s with delay := t.delay, sound := t.sound, pending := t.pending, inputCount := t.inputCount }

theorem timersOnly_of_cycleBegins {s u : State} {keys : Keys} (h : CycleBegins s keys u) : TimersOnly s u :=
  cycleBegins_frame h

section
variable {s t : State} (h : TimersOnly s t)
include h

theorem TimersOnly.run_eq : t.run = s.run := by rw [h]

theorem TimersOnly.waiting_eq : t.waiting = s.waiting := by rw [h]

theorem TimersOnly.waitReg_eq : t.waitReg = s.waitReg := by rw [h]

theorem TimersOnly.reg_eq (r : Reg) : t.reg r = s.reg r := by
  rw [h]
  rfl

theorem TimersOnly.loadResult_eq : t.loadResult = s.loadResult := by rw [h]

theorem TimersOnly.started_eq : t.started = s.started := by rw [h]

theorem TimersOnly.pc_eq : t.pc = s.pc := by rw [h]

theorem TimersOnly.fetchWord_eq : t.fetchWord = s.fetchWord := by
  rw [h]
  rfl

end

/-! ## Instruction cycles -/

theorem instructionCycle_of_ok {s : State} {w : Word} {i : Instr} (hw : s.fetchWord = some w) (hd : decode w = .ok i) :
    instructionCycle s = exec i s := by
  simp [instructionCycle, hw, hd]

theorem instructionCycle_of_error {s : State} {w : Word} {e : DecodeReject} (hw : s.fetchWord = some w)
    (hd : decode w = .error e) : instructionCycle s = finish (.malformed .noPattern) s := by
  simp [instructionCycle, hw, hd]

/-- The step of an active run that does not wait is an instruction cycle, which fetches at the pc before the step. -/
theorem step_eq_instructionCycle {s u : State} {keys : Keys} (hbegins : CycleBegins s keys u)
    (hload : s.loadResult ≠ some .romLoadFailure) (hrun : s.run = .active) (hwait : s.waiting = false) :
    step s = mapNext State.endCycle (instructionCycle (u.beginCycle keys)) ∧
      (u.beginCycle keys).fetchWord = s.fetchWord := by
  have htimers := timersOnly_of_cycleBegins hbegins
  refine ⟨?_, htimers.fetchWord_eq⟩
  rw [step_of_cycleBegins hbegins]
  exact cycle_instruction keys (htimers.loadResult_eq ▸ hload) (htimers.run_eq.trans hrun)
    (htimers.waiting_eq.trans hwait)

/-- An instruction cycle that answers a next state leaves the keys to the cycle around it. -/
theorem keyCur_of_instructionCycle {s t : State} (h : instructionCycle s = .next t) : t.keyCur = s.keyCur := by
  obtain ⟨w, -, ⟨i, -, hexec⟩ | ⟨e, -, rfl⟩⟩ := instructionCycle_cases h
  · obtain ⟨u, o, hanswer, -, -, -, -, hkeys, -⟩ := exec_is_conclude i s
    obtain rfl : u.conclude o = t := Host.Outcome.next.inj (hanswer.symm.trans hexec)
    rw [conclude_keyCur, hkeys]
  · exact conclude_keyCur s _

/-! ## Poll cycles -/

/-- The state after the write that completes an FX0A: the key in its register, the wait over (40_cycle.md R150). -/
def completeWait (s : State) (k : Nat) : State :=
  { s.setReg s.waitReg (BitVec.ofNat 8 k) with waiting := false }

theorem poll_of_isFirstEdge {s : State} {k : Nat} (h : IsFirstEdge s k) :
    s.poll = (completeWait s k).conclude .continueNext := by
  rw [State.poll, firstEdge_some.mpr h]
  rfl

theorem poll_of_noEdge {s : State} (h : NoEdge s) : s.poll = s.report (.waitingForKey s.waitReg) := by
  rw [State.poll, firstEdge_none.mpr h]

theorem poll_keyCur (s : State) : s.poll.keyCur = s.keyCur := by
  unfold State.poll
  split
  · exact conclude_keyCur _ _
  · rfl

/-- A poll cycle reads the keys, the snapshot and the parameters, which no timer step writes. -/
theorem isFirstEdge_beginCycle_iff {s u : State} {keys : Keys} {k : Nat} (h : TimersOnly s u) :
    IsFirstEdge (u.beginCycle keys) k ↔ IsFirstEdge { s with keyCur := keys } k := by
  rw [h]
  rfl

theorem noEdge_beginCycle_iff {s u : State} {keys : Keys} (h : TimersOnly s u) :
    NoEdge (u.beginCycle keys) ↔ NoEdge { s with keyCur := keys } := by
  rw [h]
  rfl

/-! ## The obligations -/

/-- Settles O7: the step is the instruction cycle of the fetched word, between key sampling and key snapshot. -/
theorem stepRunsTheDecodedInstruction : Obligations.StepRunsTheDecodedInstruction := by
  intro s u keys i hbegins hload hrun hwait hpc hdecode
  obtain ⟨hstep, hfetch⟩ := step_eq_instructionCycle hbegins hload hrun hwait
  obtain ⟨t, ht⟩ := exec_next i (u.beginCycle keys)
  refine ⟨t, ht, ?_⟩
  rw [hstep, instructionCycle_of_ok (hfetch.trans (fetchWord_eq hpc)) hdecode, ht]
  rfl

/-- Settles O9: the cycle of a word without a handler concludes Malformed(NoPattern), and RET without a return address
Malformed(EmptyStack). -/
theorem malformedCausesGiveTheirFaultKinds : Obligations.MalformedCausesGiveTheirFaultKinds := by
  refine ⟨fun s u keys hbegins hload hrun hwait hpc hdecode => ?noPattern, fun s hempty => ?emptyStack, rfl⟩
  case noPattern =>
    obtain ⟨hstep, hfetch⟩ := step_eq_instructionCycle hbegins hload hrun hwait
    rw [hstep, instructionCycle_of_error (hfetch.trans (fetchWord_eq hpc)) hdecode]
    rfl
  case emptyStack =>
    have hreport : handlerOutcome s .ret = .malformed .emptyStack := by
      rcases hempty with h | h <;> simp [handlerOutcome, h]
    exact (execRet_eq_finish s).trans (congrArg (finish · s.pop.2) hreport)

/-- Settles O10: with an edge the poll cycle concludes Continue after one register write, without one it reports the
wait. -/
theorem pollCycleWaitsForAnEdge : Obligations.PollCycleWaitsForAnEdge := by
  intro s u keys hbegins hload hrun hwait
  have htimers := timersOnly_of_cycleBegins hbegins
  have hstep : step s = .next (u.beginCycle keys).poll.endCycle := by
    rw [step_of_cycleBegins hbegins]
    exact cycle_poll keys (htimers.loadResult_eq ▸ hload) (htimers.run_eq.trans hrun) (htimers.waiting_eq.trans hwait)
  refine ⟨fun k hedge => ?edge, fun hnone => ?none⟩
  case edge =>
    have hfirst : IsFirstEdge (u.beginCycle keys) k := (isFirstEdge_beginCycle_iff htimers).mpr hedge
    have hpc : (completeWait (u.beginCycle keys) k).pc = s.pc := htimers.pc_eq
    have hrun' : (completeWait (u.beginCycle keys) k).run = s.run := htimers.run_eq
    obtain ⟨t, ht, hcont, honly⟩ := finish_continueNext hpc hrun'
    rw [poll_of_isFirstEdge hfirst, Host.Outcome.next.inj ht] at hstep
    refine ⟨t.endCycle, hstep, hcont, congrArg State.waiting honly, ?key, fun r hr => ?others, ?frame⟩
    case key =>
      rw [← htimers.waitReg_eq]
      calc (t.endCycle.reg u.waitReg).toNat
          = ((completeWait (u.beginCycle keys) k).reg u.waitReg).toNat :=
            congrArg BitVec.toNat (onlyControl_reg honly u.waitReg)
        _ = (BitVec.ofNat 8 k).toNat := congrArg BitVec.toNat (reg_setReg_same (u.beginCycle keys) u.waitReg _)
        _ = k := toNat_ofNat_of_isFirstEdge hfirst
    case others =>
      rw [← htimers.waitReg_eq] at hr
      calc t.endCycle.reg r
          = (completeWait (u.beginCycle keys) k).reg r := onlyControl_reg honly r
        _ = (u.beginCycle keys).reg r := reg_setReg_ne (u.beginCycle keys) hr _
        _ = s.reg r := htimers.reg_eq r
    case frame =>
      rw [honly]
      rfl
  case none =>
    rw [hstep, poll_of_noEdge ((noEdge_beginCycle_iff htimers).mpr hnone)]
    rw [← htimers.waitReg_eq]
    rfl

/-- Settles O11: the snapshot copies key_cur, which every kind of cycle leaves as it was sampled. -/
theorem everyActiveCycleTakesTheKeySnapshot : Obligations.EveryActiveCycleTakesTheKeySnapshot := by
  intro s t u keys hbegins hrun hstep
  rw [step_of_cycleBegins hbegins] at hstep
  obtain ⟨-, ⟨-, -, v, hcycle, rfl⟩ | ⟨-, -, rfl⟩ | ⟨hstopped, -⟩⟩ := cycle_cases hstep
  case inl =>
    have hkeys : v.keyCur = keys := keyCur_of_instructionCycle hcycle
    exact ⟨hkeys, hkeys⟩
  case inr.inl =>
    have hkeys : (u.beginCycle keys).poll.keyCur = keys := poll_keyCur _
    exact ⟨hkeys, hkeys⟩
  case inr.inr => exact absurd ((timersOnly_of_cycleBegins hbegins).run_eq.trans hrun) hstopped

/-- Settles O12: the third branch of a cycle request. -/
theorem stoppedRunIgnoresCycles : Obligations.StoppedRunIgnoresCycles := by
  intro s u keys hbegins hload hrun
  have htimers := timersOnly_of_cycleBegins hbegins
  rw [step_of_cycleBegins hbegins]
  exact cycle_stopped keys (htimers.loadResult_eq ▸ hload) (htimers.run_eq ▸ hrun)

end Sys2Proof.Proofs
end

section
/-! PROOFS. What every step keeps: the parameters and the font (10_state.md R44), the invariant (10_state.md R38;
41_control_flow.md R182, R185; 70_reset_and_hazards.md R385), and a stopped run. First what an instruction can do to
memory, the stack, pc and the wait; then what a step consists of; then each kind of step. -/

namespace Sys2Proof.Proofs

open Sys2Proof.Machine Sys2Proof.Config Sys2Proof.Laws

/-! ## Memory after an instruction -/

/-- An instruction that does not name memory leaves it alone: replacing it by itself changes nothing. -/
theorem mem_of_exec_of_not_names {i : Instr} {s t : State} (h : exec i s = .next t) (hi : namesMemory i = false) :
    t.mem = s.mem := by
  have hcomm := mapNext_exec (p := { mem := some s.mem }) (i := i) (by constructor <;> simp [hi]) s
  rw [h] at hcomm
  exact (congrArg State.mem (Host.Outcome.next.inj (hcomm.trans h))).symm

theorem mem_of_finish {o : CycleOutcome} {u t : State} (h : finish o u = .next t) : t.mem = u.mem := by
  obtain rfl : u.conclude o = t := Host.Outcome.next.inj h
  exact conclude_mem u o

/-- Some bytes were stored from I on, all of them inside memory. -/
def StoresAtI (s t : State) : Prop :=
  ∃ bs : List Byte, s.I.toNat + bs.length ≤ memSize ∧ t.mem = s.mem.writeBytes s.I.toNat bs

/-- An instruction leaves memory alone or stores at I inside memory (20_memory.md R76, R80). -/
theorem mem_of_exec {i : Instr} {s t : State} (h : exec i s = .next t) : t.mem = s.mem ∨ StoresAtI s t := by
  cases i with
  | drw x y n =>
    refine .inl ?_
    simp only [exec, execDrw] at h
    split at h
    · exact (mem_of_finish h).trans rfl
    · exact mem_of_finish h
  | ldVxMemI x =>
    refine .inl ?_
    simp only [exec, execLdVxMemI] at h
    split at h
    · exact (mem_of_finish h).trans (stepI_mem _ x)
    · exact mem_of_finish h
  | ldBVx x =>
    rcases Nat.lt_or_ge (s.I.toNat + 2) memSize with hin | hout
    · rw [exec, execLdBVx_of_inside x hin] at h
      exact .inr ⟨bcdDigits (s.reg x), hin, mem_of_finish h⟩
    · rw [exec, execLdBVx_of_outside x hout] at h
      exact .inl (mem_of_finish h)
  | ldMemIVx x =>
    rcases Nat.lt_or_ge (s.I.toNat + x.val) memSize with hin | hout
    · rw [exec, execLdMemIVx_of_inside hin] at h
      exact .inr ⟨s.V.toList.take (transferCount x), by rw [length_take_transferCount]; exact hin,
        (mem_of_finish h).trans (stepI_mem _ x)⟩
    · rw [exec, execLdMemIVx_of_outside hout] at h
      exact .inl (mem_of_finish h)
  | _ => exact .inl (mem_of_exec_of_not_names h rfl)

/-! ## The stack after an instruction -/

theorem stack_of_exec_of_not_names {i : Instr} {s t : State} (h : exec i s = .next t) (hi : namesStack i = false) :
    t.stack = s.stack := by
  have hcomm := mapNext_exec (p := { stack := some s.stack }) (i := i) (by constructor <;> simp [hi]) s
  rw [h] at hcomm
  exact (congrArg State.stack (Host.Outcome.next.inj (hcomm.trans h))).symm

theorem stack_of_finish {o : CycleOutcome} {u t : State} (h : finish o u = .next t) : t.stack = u.stack := by
  obtain rfl : u.conclude o = t := Host.Outcome.next.inj h
  exact conclude_stack u o

/-- An instruction leaves the stack alone, pushes the return address below the limit, or pops
(41_control_flow.md R182, R184, R185). -/
theorem stack_of_exec {i : Instr} {s t : State} (h : exec i s = .next t) :
    t.stack = s.stack ∨ t.stack = s.stack.dropLast ∨
      (s.cfg.stackLimit ≠ some s.stack.length ∧ t.stack = s.stack ++ [returnAddress s]) := by
  cases i with
  | ret =>
    rw [exec, execRet_eq_finish] at h
    exact .inr (.inl (stack_of_finish h))
  | call nnn =>
    by_cases hfull : s.cfg.stackLimit = some s.stack.length
    · rw [exec, execCall_of_full nnn hfull] at h
      exact .inl (stack_of_finish h)
    · rw [exec, execCall_of_not_full nnn hfull] at h
      exact .inr (.inr ⟨hfull, stack_of_finish h⟩)
  | _ => exact .inl (stack_of_exec_of_not_names h rfl)

/-! ## pc and the wait after an outcome -/

theorem advance_pc_le {s : State} (h : s.pc.toNat ≤ maxPc) (target : Nat) : (s.advance target).pc.toNat ≤ maxPc := by
  unfold State.advance
  split
  case isTrue hin =>
    rw [BitVec.toNat_ofNat]
    exact (Nat.mod_le target _).trans hin
  case isFalse => exact h

theorem conclude_pc_le {s : State} (h : s.pc.toNat ≤ maxPc) (o : CycleOutcome) :
    (s.conclude o).pc.toNat ≤ maxPc := by
  cases o with
  | continueNext | skipNext | jump _ | requestRedraw => exact advance_pc_le (s := s.report _) h _
  | waitingForKey _ | terminate | malformed _ | fault _ => exact h

/-- A wait begins only with the outcome WaitingForKey, which leaves run alone (40_cycle.md R145). -/
theorem conclude_run_of_waiting {s : State} (hs : s.waiting = false) {o : CycleOutcome}
    (h : (s.conclude o).waiting = true) : (s.conclude o).run = s.run := by
  cases o with
  | waitingForKey _ => rfl
  | continueNext | skipNext | jump _ | requestRedraw =>
    exact absurd (h.symm.trans (advance_waiting _ _)) (by simp [hs])
  | terminate | malformed _ | fault _ => exact absurd (h.symm.trans hs) (by decide)

/-! ## What a step consists of -/

/-- A step is a cycle, after timer steps where it is unscripted, or a load, or timer steps alone. -/
theorem step_eq_cycle_or_load_or_timersOnly {s t : State} (h : step s = .next t) :
    (∃ keys u, CycleBegins s keys u ∧ cycle keys u = .next t) ∨
    (∃ rom rest, load rom { s with pending := rest } = .next t) ∨ TimersOnly s t := by
  obtain ⟨keys, rest, hp, hcycle⟩ | ⟨rest, -, rfl⟩ | ⟨rest, -, rfl⟩ | ⟨rom, rest, -, hload⟩ | ⟨hp, hhost, hcycle⟩ |
    ⟨-, -, rfl⟩ := step_cases h
  · exact .inl ⟨keys, _, .inl ⟨rest, hp, rfl⟩, hcycle⟩
  · exact .inr (.inr rfl)
  · exact .inr (.inr rfl)
  · exact .inr (.inl ⟨rom, rest, hload⟩)
  · exact .inl ⟨_, _, .inr ⟨hp, hhost, rfl, rfl⟩, hcycle⟩
  · exact .inr (.inr rfl)

/-! ## The parameters -/

/-- The parameters, the font and the host's choice are the same. -/
def SameParameters (s t : State) : Prop :=
  t.cfg = s.cfg ∧ t.mem.font = s.mem.font ∧ t.hostStopped = s.hostStopped

theorem SameParameters.trans {s t u : State} (h : SameParameters s t) (k : SameParameters t u) :
    SameParameters s u := by
  obtain ⟨hcfg, hfont, hhost⟩ := h
  obtain ⟨kcfg, kfont, khost⟩ := k
  exact ⟨kcfg.trans hcfg, kfont.trans hfont, khost.trans hhost⟩

theorem conclude_sameParameters (s : State) (o : CycleOutcome) : SameParameters s (s.conclude o) := by
  simp [SameParameters]

theorem exec_sameParameters {i : Instr} {s t : State} (h : exec i s = .next t) : SameParameters s t := by
  have hfont : t.mem.font = s.mem.font := by
    rcases mem_of_exec h with hmem | ⟨bs, -, hmem⟩
    · rw [hmem]
    · rw [hmem, font_writeBytes]
  obtain ⟨u, o, hanswer, -, -, -, -, -, -, hcfg, -, hhost, -⟩ := exec_is_conclude i s
  obtain rfl : u.conclude o = t := Host.Outcome.next.inj (hanswer.symm.trans h)
  exact ⟨(conclude_cfg u o).trans hcfg, hfont, (conclude_hostStopped u o).trans hhost⟩

theorem poll_sameParameters (s : State) : SameParameters s s.poll := by
  unfold State.poll
  split
  · exact conclude_sameParameters (completeWait s _) _
  · exact ⟨rfl, rfl, rfl⟩

theorem cycle_sameParameters {keys : Keys} {s t : State} (h : cycle keys s = .next t) : SameParameters s t := by
  obtain ⟨-, ⟨-, -, u, hcycle, rfl⟩ | ⟨-, -, rfl⟩ | ⟨-, rfl⟩⟩ := cycle_cases h
  case inl =>
    obtain ⟨w, -, ⟨i, -, hexec⟩ | ⟨e, -, rfl⟩⟩ := instructionCycle_cases hcycle
    · exact exec_sameParameters (s := s.beginCycle keys) (t := u) hexec
    · exact conclude_sameParameters (s.beginCycle keys) _
  case inr.inl => exact poll_sameParameters (s.beginCycle keys)
  case inr.inr => exact ⟨rfl, rfl, rfl⟩

theorem load_sameParameters {rom : Rom} {s t : State} (h : load rom s = .next t) : SameParameters s t := by
  obtain ⟨-, -, rfl | ⟨b, -, -, rfl⟩⟩ := load_cases h
  · exact ⟨rfl, rfl, rfl⟩
  · exact ⟨rfl, font_writeBytes _ _ _, rfl⟩

theorem TimersOnly.sameParameters {s t : State} (h : TimersOnly s t) : SameParameters s t := by
  rw [h]
  exact ⟨rfl, rfl, rfl⟩

/-! ## The invariant -/

/-- The invariant speaks of eight fields. -/
theorem inv_of_eq {s t : State} (h : Inv s) (hmem : t.mem = s.mem) (hpc : t.pc = s.pc) (hstack : t.stack = s.stack)
    (hcfg : t.cfg = s.cfg) (hwaiting : t.waiting = s.waiting) (hrun : t.run = s.run) (hstarted : t.started = s.started)
    (hload : t.loadResult = s.loadResult) : Inv t where
  memWf := hmem ▸ h.memWf
  pcInMemory := hpc ▸ h.pcInMemory
  stackEntries := hstack ▸ h.stackEntries
  stackWithinLimit := hcfg ▸ hstack ▸ h.stackWithinLimit
  waitingIsActive := hwaiting ▸ hrun ▸ h.waitingIsActive
  activeBeforeStart := hstarted ▸ hrun ▸ hwaiting ▸ h.activeBeforeStart
  noCycleAfterFailure := hload ▸ hstarted ▸ h.noCycleAfterFailure

theorem TimersOnly.inv {s t : State} (h : TimersOnly s t) (hs : Inv s) : Inv t := by
  rw [h]
  exact inv_of_eq hs rfl rfl rfl rfl rfl rfl rfl rfl

theorem inv_withPending {s : State} (h : Inv s) (rest : List Move) : Inv { s with pending := rest } :=
  inv_of_eq h rfl rfl rfl rfl rfl rfl rfl rfl

/-- A cycle begins with the invariant, and is never the first after a failed load. -/
theorem inv_beginCycle {s : State} (h : Inv s) (hload : s.loadResult ≠ some .romLoadFailure) (keys : Keys) :
    Inv (s.beginCycle keys) where
  memWf := h.memWf
  pcInMemory := h.pcInMemory
  stackEntries := h.stackEntries
  stackWithinLimit := h.stackWithinLimit
  waitingIsActive := h.waitingIsActive
  activeBeforeStart := fun hstarted => absurd hstarted (by simp)
  noCycleAfterFailure := fun hfailed => absurd hfailed hload

theorem inv_endCycle {s : State} (h : Inv s) : Inv s.endCycle :=
  inv_of_eq h rfl rfl rfl rfl rfl rfl rfl rfl

/-- Concluding a cycle of an active run that does not wait keeps the invariant. -/
theorem inv_conclude {s : State} (h : Inv s) (hrun : s.run = .active) (hwait : s.waiting = false)
    (hstarted : s.started = true) (o : CycleOutcome) : Inv (s.conclude o) where
  memWf := (conclude_mem s o).symm ▸ h.memWf
  pcInMemory := conclude_pc_le h.pcInMemory o
  stackEntries := (conclude_stack s o).symm ▸ h.stackEntries
  stackWithinLimit := (conclude_cfg s o).symm ▸ (conclude_stack s o).symm ▸ h.stackWithinLimit
  waitingIsActive := fun hw => (conclude_run_of_waiting hwait hw).trans hrun
  activeBeforeStart := fun hns => absurd (hns.symm.trans ((conclude_started s o).trans hstarted)) (by decide)
  noCycleAfterFailure := fun hfailed => (conclude_started s o).trans
    (h.noCycleAfterFailure ((conclude_loadResult s o).symm.trans hfailed))

theorem memWf_of_exec {i : Instr} {s t : State} (hs : Inv s) (h : exec i s = .next t) : t.mem.wf = true := by
  rcases mem_of_exec h with hmem | ⟨bs, hin, hmem⟩
  · exact hmem ▸ hs.memWf
  · exact hmem ▸ wf_writeBytes hs.memWf hin

/-- What CALL pushes is two past a fetchable pc; every other entry was there before. -/
theorem stackEntries_of_exec {i : Instr} {s t : State} (hs : Inv s) (h : exec i s = .next t) :
    ∀ e ∈ t.stack, 2 ≤ e.toNat ∧ e.toNat ≤ memSize := by
  intro e he
  rcases stack_of_exec h with hkept | hpop | ⟨-, hpush⟩
  · exact hs.stackEntries e (hkept ▸ he)
  · exact hs.stackEntries e (List.dropLast_subset _ (hpop ▸ he))
  · rw [hpush, List.mem_append, List.mem_singleton] at he
    rcases he with he | rfl
    · exact hs.stackEntries e he
    · have hpc : s.pc.toNat ≤ 4094 := hs.pcInMemory
      rw [returnAddress_toNat hpc, show memSize = 4096 from rfl]
      omega

theorem stackWithinLimit_of_exec {i : Instr} {s t : State} (hs : Inv s) (h : exec i s = .next t) (n : Nat)
    (hlimit : s.cfg.stackLimit = some n) : t.stack.length ≤ n := by
  have hlen : s.stack.length ≤ n := hs.stackWithinLimit n hlimit
  rcases stack_of_exec h with hkept | hpop | ⟨hroom, hpush⟩
  · rwa [hkept]
  · rw [hpop, List.length_dropLast]
    omega
  · have hne : n ≠ s.stack.length := fun e => hroom (e ▸ hlimit)
    rw [hpush, List.length_append, List.length_singleton]
    omega

theorem inv_exec {i : Instr} {s t : State} (hs : Inv s) (hrun : s.run = .active) (hwait : s.waiting = false)
    (hstarted : s.started = true) (h : exec i s = .next t) : Inv t := by
  obtain ⟨u, o, hanswer, hpc, hur, huw, -, -, -, hcfg, -, -, -, hust, hul, -⟩ := exec_is_conclude i s
  obtain rfl : u.conclude o = t := Host.Outcome.next.inj (hanswer.symm.trans h)
  have hu : Inv u :=
    { memWf := conclude_mem u o ▸ memWf_of_exec hs h
      pcInMemory := hpc ▸ hs.pcInMemory
      stackEntries := conclude_stack u o ▸ stackEntries_of_exec hs h
      stackWithinLimit := hcfg ▸ conclude_stack u o ▸ stackWithinLimit_of_exec hs h
      waitingIsActive := fun _ => hur.trans hrun
      activeBeforeStart := fun _ => ⟨hur.trans hrun, huw.trans hwait⟩
      noCycleAfterFailure := hul ▸ hust ▸ hs.noCycleAfterFailure }
  exact inv_conclude hu (hur.trans hrun) (huw.trans hwait) (hust.trans hstarted) o

/-- A poll cycle ends the wait of an active run or leaves it. -/
theorem inv_poll {s : State} (hs : Inv s) (hrun : s.run = .active) (hstarted : s.started = true) : Inv s.poll := by
  unfold State.poll
  split
  case h_1 k _ =>
    have hdone : Inv (completeWait s k) :=
      { memWf := hs.memWf
        pcInMemory := hs.pcInMemory
        stackEntries := hs.stackEntries
        stackWithinLimit := hs.stackWithinLimit
        waitingIsActive := fun _ => hrun
        activeBeforeStart := fun _ => ⟨hrun, rfl⟩
        noCycleAfterFailure := hs.noCycleAfterFailure }
    exact inv_conclude hdone hrun rfl hstarted .continueNext
  case h_2 => exact inv_of_eq hs rfl rfl rfl rfl rfl rfl rfl rfl

theorem inv_instructionCycle {s t : State} (hs : Inv s) (hrun : s.run = .active) (hwait : s.waiting = false)
    (hstarted : s.started = true) (h : instructionCycle s = .next t) : Inv t := by
  obtain ⟨w, -, ⟨i, -, hexec⟩ | ⟨e, -, rfl⟩⟩ := instructionCycle_cases h
  · exact inv_exec hs hrun hwait hstarted hexec
  · exact inv_conclude hs hrun hwait hstarted _

theorem inv_cycle {keys : Keys} {s t : State} (hs : Inv s) (h : cycle keys s = .next t) : Inv t := by
  obtain ⟨hload, hcase⟩ := cycle_cases h
  have hbegun : Inv (s.beginCycle keys) := inv_beginCycle hs hload keys
  obtain ⟨hrun, hwait, u, hcycle, rfl⟩ | ⟨hrun, -, rfl⟩ | ⟨-, rfl⟩ := hcase
  · exact inv_endCycle (inv_instructionCycle hbegun hrun hwait rfl hcycle)
  · exact inv_endCycle (inv_poll hbegun hrun rfl)
  · exact inv_of_eq hs rfl rfl rfl rfl rfl rfl rfl rfl

/-- A load before any cycle: its bytes lie from `LOAD_ADDR` to the end of memory at most. -/
theorem inv_load {rom : Rom} {s t : State} (hs : Inv s) (h : load rom s = .next t) : Inv t := by
  obtain ⟨hstarted, -, rfl | ⟨b, -, hfits, rfl⟩⟩ := load_cases h
  · exact { hs with noCycleAfterFailure := fun _ => hstarted }
  · have hin : loadAddr + b.length ≤ memSize := by
      simp only [romCapacity, memSize, loadAddr] at hfits ⊢
      omega
    exact { hs with
      memWf := wf_writeBytes hs.memWf hin
      noCycleAfterFailure := fun _ => hstarted }

/-! ## Faults of the model -/

/-- Only the fetch of an instruction cycle can fault. -/
theorem fetchWord_eq_none_of_instructionCycle {s : State} {f : Fault} (h : instructionCycle s = .fault f) :
    s.fetchWord = none := by
  cases hw : s.fetchWord with
  | none => rfl
  | some w =>
    cases hd : decode w with
    | error e => simp [instructionCycle_of_error hw hd, finish] at h
    | ok i =>
      obtain ⟨t, ht⟩ := exec_next i s
      simp [instructionCycle_of_ok hw hd, ht] at h

theorem mapNext_eq_fault {g : State → State} {a : Host.Outcome State Fault Refusal} {f : Fault}
    (h : mapNext g a = .fault f) : a = .fault f := by
  cases a with
  | fault r => exact h
  | next _ | refused _ => cases h

theorem cycle_ne_fault {keys : Keys} {s : State} (hs : Inv s) (f : Fault) : cycle keys s ≠ .fault f := by
  intro h
  unfold cycle at h
  split_ifs at h
  have hfetch := fetchWord_eq_none_of_instructionCycle (mapNext_eq_fault h)
  rw [fetchWord_eq (s := s.beginCycle keys) hs.pcInMemory] at hfetch
  cases hfetch

theorem load_ne_fault (rom : Rom) (s : State) (f : Fault) : load rom s ≠ .fault f := by
  unfold load
  split
  · simp
  · cases rom with
    | ioFailure => simp
    | bytes b =>
      dsimp only
      split <;> simp

/-! ## The obligations -/

/-- Settles O16: the invariant holds of the state a cycle begins in, and cycles, loads and timer steps keep it. -/
theorem everyStepKeepsTheInvariant : Obligations.EveryStepKeepsTheInvariant := by
  intro s t hs hstep
  obtain ⟨keys, u, hbegins, hcycle⟩ | ⟨rom, rest, hload⟩ | htimers := step_eq_cycle_or_load_or_timersOnly hstep
  · exact inv_cycle ((timersOnly_of_cycleBegins hbegins).inv hs) hcycle
  · exact inv_load (inv_withPending hs rest) hload
  · exact htimers.inv hs

/-- Settles O17: only a cycle's fetch could fault, and the invariant keeps pc where both bytes exist. -/
theorem noFaultFromTheInvariant : Obligations.NoFaultFromTheInvariant := by
  intro s f hs h
  cases hp : s.pending with
  | nil =>
    have hticked : Inv s.freeTicks := inv_of_eq hs rfl rfl rfl rfl rfl rfl rfl rfl
    rw [step_of_no_pending hp, unscripted] at h
    split at h
    · cases h
    · exact cycle_ne_fault hticked f h
  | cons m rest =>
    have hpopped : Inv { s with pending := rest } := inv_withPending hs rest
    rw [step_of_pending hp] at h
    cases m with
    | cycle keys => exact cycle_ne_fault hpopped f h
    | tickDelay | tickSound => cases h
    | load rom => exact load_ne_fault rom _ f h

/-- Settles O18: memory keeps its font under every store, and no operation writes the other two fields. -/
theorem everyStepKeepsTheParameters : Obligations.EveryStepKeepsTheParameters := by
  intro s t hstep
  obtain ⟨keys, u, hbegins, hcycle⟩ | ⟨rom, rest, hload⟩ | htimers := step_eq_cycle_or_load_or_timersOnly hstep
  · exact (timersOnly_of_cycleBegins hbegins).sameParameters.trans (cycle_sameParameters hcycle)
  · exact load_sameParameters (s := { s with pending := rest }) hload
  · exact htimers.sameParameters

/-- Settles O13: a stopped run has started, so a load is refused, and a cycle writes nothing but the redraw pulse. -/
theorem stoppedIsPermanent : Obligations.StoppedIsPermanent := by
  intro s t hs hrun hstep
  obtain ⟨keys, u, hbegins, hcycle⟩ | ⟨rom, rest, hload⟩ | htimers := step_eq_cycle_or_load_or_timersOnly hstep
  case inl =>
    have htimers := timersOnly_of_cycleBegins hbegins
    have hstopped : u.run ≠ .active := htimers.run_eq ▸ hrun
    obtain ⟨-, ⟨hactive, -⟩ | ⟨hactive, -⟩ | ⟨-, rfl⟩⟩ := cycle_cases hcycle
    · exact absurd hactive hstopped
    · exact absurd hactive hstopped
    · rw [htimers]
  case inr.inl =>
    obtain ⟨hnotStarted, -⟩ := load_cases hload
    obtain ⟨hactive, -⟩ := hs.activeBeforeStart hnotStarted
    exact absurd hactive hrun
  case inr.inr => rw [htimers]

end Sys2Proof.Proofs
end

section
/-! PROOFS. Instructions taken together, or apart from their family: RET, matched calls and the order of checks
(41_control_flow.md; 60_exceptions.md R338), RND (42_alu.md R226), the digits and bytes that FX33 and FX55 leave
(20_memory.md R88; 43_index_memory.md R248, R253), and the counters (45_timers_keys.md). -/

namespace Sys2Proof.Proofs

open Sys2Proof.Machine Sys2Proof.Config Sys2Proof.Laws

/-! ## RET -/

theorem handlerOutcome_ret_of_append {s : State} {below : List Word} {r : Word} (h : s.stack = below ++ [r]) :
    handlerOutcome s .ret = if r = 0x0000#16 then .malformed .emptyStack else .jump r.toNat := by
  simp [handlerOutcome, h]

theorem handlerOutcome_ret_of_nil {s : State} (h : s.stack = []) :
    handlerOutcome s .ret = .malformed .emptyStack := by
  simp [handlerOutcome, h]

theorem pop_of_append {s : State} {below : List Word} {r : Word} (h : s.stack = below ++ [r]) :
    s.pop.2 = { s with stack := below } := by
  simp [State.pop, h]

theorem pop_of_nil {s : State} (h : s.stack = []) : s.pop.2 = s := by
  rw [State.pop, h, List.dropLast_nil, ← h]

/-- A handler that ends in Malformed leaves pc alone (40_cycle.md R148). -/
theorem finish_malformed (u : State) (c : MalformedCause) :
    ∃ t, finish (.malformed c) u = .next t ∧ t.pc = u.pc ∧ t.run = .faulted (faultOfMalformed c) ∧
      t.outcome = some (.malformed c) ∧ OnlyControl u t :=
  ⟨_, rfl, rfl, rfl, rfl, rfl⟩

/-- Settles O25: RET answers the outcome of the top entry after its pop. -/
theorem retJumpsToThePoppedAddress : Obligations.RetJumpsToThePoppedAddress := by
  intro s
  refine ⟨fun below r hstack hr => ?jump, fun below hstack => ?zero, fun hstack => ?empty⟩
  case jump =>
    have hexec : exec .ret s = finish (.jump r.toNat) { s with stack := below } := by
      rw [exec, execRet_eq_finish, handlerOutcome_ret_of_append hstack, if_neg hr, pop_of_append hstack]
    obtain ⟨t, ht, hjump, honly⟩ := finish_jump (s := s) (u := { s with stack := below }) r.toNat rfl rfl
    exact ⟨t, hexec.trans ht, hjump, honly⟩
  case zero =>
    have hexec : exec .ret s = finish (.malformed .emptyStack) { s with stack := below } := by
      rw [exec, execRet_eq_finish, handlerOutcome_ret_of_append hstack, if_pos rfl, pop_of_append hstack]
    exact hexec ▸ finish_malformed { s with stack := below } .emptyStack
  case empty =>
    have hexec : exec .ret s = finish (.malformed .emptyStack) s := by
      rw [exec, execRet_eq_finish, handlerOutcome_ret_of_nil hstack, pop_of_nil hstack]
    exact hexec ▸ finish_malformed s .emptyStack

/-! ## Matched calls -/

theorem execAll_cons_of_next {i : Instr} {s t : State} (h : exec i s = .next t) (l : List Instr) :
    execAll (i :: l) s = execAll l t := by
  rw [execAll, h]

theorem execAll_append_of_next {l : List Instr} {s t : State} (h : execAll l s = .next t) (l' : List Instr) :
    execAll (l ++ l') s = execAll l' t := by
  induction l generalizing s with
  | nil =>
    obtain rfl := Host.Outcome.next.inj h
    rfl
  | cons i l ih =>
    obtain ⟨u, hu⟩ := exec_next i s
    rw [execAll_cons_of_next hu] at h
    rw [List.cons_append, execAll_cons_of_next hu, ih h]

/-- A jump whose target can be fetched moves pc there and leaves run alone. -/
theorem pc_run_of_jumpsTo {s t : State} {target : Nat} (h : JumpsTo s t target) (ht : target ≤ 0xFFE) :
    t.pc.toNat = target ∧ t.run = s.run := by
  obtain ⟨-, -, hmoves, -⟩ := h
  exact hmoves ht

/-- A CALL to a fetchable target, with no stack limit. -/
theorem exec_call_of_fetchable {s : State} {nnn : BitVec 12} (hlimit : s.cfg.stackLimit = none)
    (hpc : s.pc.toNat ≤ 0xFFE) (htarget : nnn.toNat ≤ 0xFFE) :
    ∃ t r, exec (.call nnn) s = .next t ∧ t.pc.toNat = nnn.toNat ∧ t.run = s.run ∧ t.cfg = s.cfg ∧
      t.stack = s.stack ++ [r] ∧ r.toNat = s.pc.toNat + 2 := by
  obtain ⟨-, hroom, -⟩ := callPushesTheReturnAddress nnn s hpc
  obtain ⟨t, r, ht, hjump, hr, hframe⟩ := hroom (by simp [hlimit])
  obtain ⟨hpc', hrun⟩ := pc_run_of_jumpsTo hjump htarget
  exact ⟨t, r, ht, hpc', hrun, (congrArg State.cfg hframe).trans rfl, congrArg State.stack hframe, hr⟩

/-- A RET to a fetchable address. -/
theorem exec_ret_of_fetchable {s : State} {below : List Word} {r : Word} (hstack : s.stack = below ++ [r])
    (hpos : 0 < r.toNat) (hr : r.toNat ≤ 0xFFE) :
    ∃ t, exec .ret s = .next t ∧ t.pc.toNat = r.toNat ∧ t.run = s.run ∧ t.stack = below := by
  obtain ⟨hret, -, -⟩ := retJumpsToThePoppedAddress s
  obtain ⟨t, ht, hjump, hframe⟩ := hret below r hstack (fun h => by simp [h] at hpos)
  obtain ⟨hpc, hrun⟩ := pc_run_of_jumpsTo hjump hr
  exact ⟨t, ht, hpc, hrun, congrArg State.stack hframe⟩

/-- CALLs to the targets, and as many RETs. -/
def nestedCalls (targets : List (BitVec 12)) : List Instr :=
  targets.map Instr.call ++ List.replicate targets.length .ret

/-- The calls inside the first one stand between it and the last return. -/
theorem nestedCalls_cons (a : BitVec 12) (targets : List (BitVec 12)) :
    nestedCalls (a :: targets) = .call a :: (nestedCalls targets ++ [.ret]) := by
  simp [nestedCalls, List.replicate_succ']

/-- What matched calls leave, by the nesting: the inner ones return to two past the outer target. -/
theorem execAll_nestedCalls (targets : List (BitVec 12)) {s : State} (hlimit : s.cfg.stackLimit = none)
    (hpc : targets ≠ [] → s.pc.toNat + 2 ≤ 0xFFE) (htargets : ∀ a ∈ targets, a.toNat ≤ 0xFFE)
    (hreturns : ∀ a ∈ targets.dropLast, a.toNat + 2 ≤ 0xFFE) :
    ∃ t, execAll (nestedCalls targets) s = .next t ∧ t.stack = s.stack ∧ t.run = s.run ∧
      (targets ≠ [] → t.pc.toNat = s.pc.toNat + 2) := by
  induction targets generalizing s with
  | nil => exact ⟨s, rfl, rfl, rfl, fun h => absurd rfl h⟩
  | cons a rest ih =>
    have hpc' : s.pc.toNat + 2 ≤ 0xFFE := hpc (List.cons_ne_nil a rest)
    obtain ⟨u, r, hcall, hupc, hurun, hucfg, hustack, hr⟩ :=
      exec_call_of_fetchable hlimit (Nat.le_of_add_right_le hpc') (htargets a List.mem_cons_self)
    have hinner (hne : rest ≠ []) : u.pc.toNat + 2 ≤ 0xFFE := by
      rw [hupc]
      exact hreturns a (by simp [List.dropLast_cons_of_ne_nil hne])
    have hrest : ∀ b ∈ rest.dropLast, b.toNat + 2 ≤ 0xFFE := fun b hb =>
      hreturns b (by simp [List.dropLast_cons_of_ne_nil (List.ne_nil_of_mem (List.dropLast_subset _ hb)), hb])
    obtain ⟨v, hnested, hvstack, hvrun, -⟩ :=
      ih (hucfg ▸ hlimit) hinner (fun b hb => htargets b (List.mem_cons_of_mem a hb)) hrest
    obtain ⟨t, hret, htpc, htrun, htstack⟩ :=
      exec_ret_of_fetchable (hvstack.trans hustack) (by omega) (by omega)
    refine ⟨t, ?_, htstack, htrun.trans (hvrun.trans hurun), fun _ => htpc.trans hr⟩
    rw [nestedCalls_cons, execAll_cons_of_next hcall, execAll_append_of_next hnested, execAll_cons_of_next hret]
    rfl

/-- Settles O30: matched calls nest. -/
theorem matchedCallsReturnAfterTheFirstCall : Obligations.MatchedCallsReturnAfterTheFirstCall := by
  intro targets s hne hlimit hrun hpc htargets hreturns
  obtain ⟨t, ht, hstack, htrun, htpc⟩ := execAll_nestedCalls targets hlimit (fun _ => hpc) htargets hreturns
  exact ⟨t, ht, hstack, htpc hne, htrun.trans hrun⟩

/-! ## The order of checks -/

/-- Settles O22: CALL checks the limit, and DRW the sprite's bytes, before anything moves pc. -/
theorem earlierCheckDecidesTheFault : Obligations.EarlierCheckDecidesTheFault := by
  refine ⟨fun s n hlimit hfull => ?call, fun s x y n _ hn hout => ?drw⟩
  case call => exact ⟨_, execCall_of_full _ (hfull ▸ hlimit), conclude_fault s .stackOverflow⟩
  case drw => exact ⟨_, execDrw_of_outside x y hn hout, conclude_fault s .memoryBoundsViolation⟩

/-! ## RND -/

theorem drawByte_of_cons {s : State} {b : Byte} {rest : List Byte} (h : s.rand = b :: rest) :
    s.drawByte = (b, { s with rand := rest }) := by
  simp [State.drawByte, h]

theorem drawByte_of_nil {s : State} (h : s.rand = []) :
    s.drawByte = (freeByte s.drawCount, { s with drawCount := s.drawCount + 1 }) := by
  simp [State.drawByte, h]

/-- RND is one write of V[X] and of the port's own fields. -/
theorem execRnd_eq_finish (x : Reg) (nn : Byte) (s : State) :
    execRnd x nn s = finish .continueNext { s with
      V := s.V.set x (s.drawByte.1 &&& nn), rand := s.drawByte.2.rand, drawCount := s.drawByte.2.drawCount } := by
  cases h : s.rand with
  | nil => simp [execRnd, drawByte_of_nil h, State.setReg]
  | cons b rest => simp [execRnd, drawByte_of_cons h, State.setReg]

/-- Settles O36: the drawn byte is the port's or a free one, and the mask clears its bits. -/
theorem randomByteIsMasked : Obligations.RandomByteIsMasked := by
  intro x nn s
  obtain ⟨t, ht, hcont, honly⟩ := finish_continueNext (s := s) (u := { s with
    V := s.V.set x (s.drawByte.1 &&& nn), rand := s.drawByte.2.rand, drawCount := s.drawByte.2.drawCount }) rfl rfl
  have hV : t.V = s.V.set x (s.drawByte.1 &&& nn) := congrArg State.V honly
  have hrand : t.rand = s.drawByte.2.rand := (congrArg State.rand honly).trans rfl
  have hcount : t.drawCount = s.drawByte.2.drawCount := (congrArg State.drawCount honly).trans rfl
  have hdrawn : t.reg x = s.drawByte.1 &&& nn := (onlyControl_reg honly x).trans (reg_setReg_same s x _)
  refine ⟨t, (execRnd_eq_finish x nn s).trans ht, hcont, ?frame, fun r hr => ?others, fun b rest h => ?scripted,
    fun h => ?free, fun j hj => ?masked⟩
  case frame =>
    rw [hV, hrand, hcount]
    exact honly
  case others => exact (onlyControl_reg honly r).trans (reg_setReg_ne s hr _)
  case scripted =>
    rw [drawByte_of_cons h] at hrand hcount hdrawn
    exact ⟨hdrawn, hrand, hcount⟩
  case free =>
    rw [drawByte_of_nil h] at hrand hcount hdrawn
    exact ⟨hdrawn, hrand.trans h, hcount⟩
  case masked => rw [hdrawn, BitVec.getLsbD_and, hj, Bool.and_false]

/-! ## Bytes stored and read back -/

/-- Settles O39: the digits are quotients and remainders of one byte. -/
theorem bcdDigitsRecomposeTheByte : Obligations.BcdDigitsRecomposeTheByte := by
  intro x s hin
  obtain ⟨-, hinside, -⟩ := bcdStoresThreeDigits x s
  obtain ⟨t, ht, -, -, hhundreds, htens, hones, -⟩ := hinside hin
  simp only [dataAddress, Nat.add_zero] at hhundreds htens hones
  have hlt : (s.reg x).toNat < 256 := (s.reg x).isLt
  refine ⟨t, ht, ?_⟩
  rw [hhundreds, htens, hones]
  omega

/-- Settles O42: FX65 reads the addresses that FX55 wrote, and nothing wrote them between. -/
theorem storeThenLoadRestoresTheRegisters : Obligations.StoreThenLoadRestoresTheRegisters := by
  intro x s u hstays hcfg hin
  obtain ⟨-, hstore, -⟩ := bulkStoreWritesV0ToVx x s
  obtain ⟨t, ht, -, -, htI, -, hstored, -⟩ := hstore hin
  refine ⟨t, ht, htI hstays, fun huI hkept => ?_⟩
  have hI : u.I = s.I := huI.trans (htI hstays)
  obtain ⟨-, hload, -⟩ := bulkLoadReadsV0ToVx x u
  obtain ⟨w, hw, -, -, hwI, -, hloaded, -⟩ := hload (hI ▸ hin)
  refine ⟨w, hw, hwI (hcfg ▸ hstays), fun k hk => ?_⟩
  have haddress : dataAddress u k.val = dataAddress s k.val := congrArg (·.toNat + k.val) hI
  calc w.reg k
      = u.mem.get (dataAddress s k.val) := haddress ▸ hloaded k hk
    _ = t.mem.get (dataAddress s k.val) := hkept _ (Nat.le_add_right _ _) (Nat.add_le_add_left hk _)
    _ = s.reg k := hstored k hk

/-- Memory after a store, byte by byte. -/
theorem get_writeBytes_eq_storedOver (s : State) (base : Nat) (bs : List Byte) (a : Nat) :
    (s.mem.writeBytes base bs).get a = storedOver s base bs a := by
  unfold storedOver
  split
  case isTrue h =>
    obtain ⟨hle, hlt⟩ := h
    obtain ⟨k, rfl⟩ := Nat.exists_eq_add_of_le hle
    have hk : k < bs.length := by omega
    rw [get_writeBytes_stored s.mem base bs hk, Nat.add_sub_cancel_left, List.getD_eq_getElem _ _ hk]
  case isFalse h => exact get_writeBytes_outside s.mem bs h

/-- The fetch after an instruction that stored bytes at I and continued. -/
theorem fetchWord_of_stored {s t : State} {bs : List Byte} (hpc : s.pc.toNat + 2 ≤ 0xFFE) (hcont : Continues s t)
    (hmem : t.mem = s.mem.writeBytes s.I.toNat bs) :
    t.fetchWord = some (wordOfBytes (storedOver s s.I.toNat bs (s.pc.toNat + 2))
      (storedOver s s.I.toNat bs (s.pc.toNat + 3))) := by
  obtain ⟨-, -, hmoves, -⟩ := hcont
  obtain ⟨htpc, -⟩ := hmoves hpc
  rw [Laws.fetchWord_eq (htpc ▸ hpc), htpc, hmem, get_writeBytes_eq_storedOver, get_writeBytes_eq_storedOver]

/-- Settles O43: memory after FX55 and FX33 is the store over the old memory, and the next fetch is at pc + 2. -/
theorem storedWordIsFetchedNext : Obligations.StoredWordIsFetchedNext := by
  intro x s hpc
  refine ⟨fun hin => ?registers, fun hin => ?digits⟩
  case registers =>
    obtain ⟨t, ht, hcont, hframe, -, -⟩ := finish_stepI (s := s)
      (u := { s with mem := s.mem.writeBytes (dataAddress s 0) (s.V.toList.take (transferCount x)) }) x rfl rfl rfl rfl
    exact ⟨t, (execLdMemIVx_of_inside hin).trans ht, fetchWord_of_stored hpc hcont (congrArg State.mem hframe)⟩
  case digits =>
    obtain ⟨t, ht, hcont, hmem, -⟩ :=
      finish_setMem s (s.mem.writeBytes (dataAddress s 0) (bcdDigits (s.reg x)))
    exact ⟨t, (execLdBVx_of_inside x hin).trans ht, fetchWord_of_stored hpc hcont hmem⟩

/-! ## The counters -/

/-- Settles O51: one register write, and two writes of a counter. -/
theorem timerInstructionsAccessOneCounter : Obligations.TimerInstructionsAccessOneCounter := by
  intro x s
  exact ⟨finish_setReg s x s.delay, finish_continueNext (s := s) (u := { s with delay := s.reg x }) rfl rfl,
    finish_continueNext (s := s) (u := { s with sound := s.reg x }) rfl rfl⟩

end Sys2Proof.Proofs
end

section
/-! PROOFS. The display as a whole (44_display.md): one sprite's pixels, a sprite drawn twice (R279) and the RGBA buffer
(R285). -/

namespace Sys2Proof.Proofs

open Sys2Proof.Machine Sys2Proof.Config Sys2Proof.Laws

/-! ## One sprite -/

/-- Settles O47: rows lie within 15 and columns within 8, less than the screen's height and width apart. -/
theorem spritePixelsLandOnDistinctCells : Obligations.SpritePixelsLandOnDistinctCells := by
  intro wrap x0 y0 r r' c c' p hr hr' hc hc' h h'
  exact landsOn_injective hr hr' hc hc' (place_eq_some.mp h) (place_eq_some.mp h')

/-! ## A sprite drawn twice -/

/-- Which cells a sprite covers depends on memory, I, the parameters and the two registers of its origin. -/
theorem spriteCovers_congr {x y : Reg} {n : Nat} {s t : State} (hmem : t.mem = s.mem) (hI : t.I = s.I)
    (hcfg : t.cfg = s.cfg) (hx : t.reg x = s.reg x) (hy : t.reg y = s.reg y) (cx cy : Nat) :
    SpriteCovers x y n t cx cy ↔ SpriteCovers x y n s cx cy := by
  simp only [SpriteCovers, hmem, hI, hcfg, hx, hy]

/-- A draw inside memory, with the cells it covers: those are toggled, and VF says whether one of them was set. -/
theorem exec_drw_of_inside (x y : Reg) {n : Fin 16} {s : State} (hin : n.val = 0 ∨ s.I.toNat + n.val - 1 < memSize) :
    ∃ t, exec (.drw x y n) s = .next t ∧ t.mem = s.mem ∧ t.I = s.I ∧ t.cfg = s.cfg ∧
      (∀ r, r ≠ VF → t.reg r = s.reg r) ∧
      (∀ cx cy, SpriteCovers x y n.val s cx.val cy.val → t.fb.cell cx cy = !s.fb.cell cx cy) ∧
      (∀ cx cy, ¬ SpriteCovers x y n.val s cx.val cy.val → t.fb.cell cx cy = s.fb.cell cx cy) ∧
      (t.reg VF = 0x01#8 ↔ ∃ cx cy, SpriteCovers x y n.val s cx.val cy.val ∧ s.fb.cell cx cy = true) ∧
      (t.reg VF = 0x00#8 ↔ ¬ ∃ cx cy, SpriteCovers x y n.val s cx.val cy.val ∧ s.fb.cell cx cy = true) := by
  obtain ⟨-, hinside, -⟩ := drwTogglesTheCoveredCells x y n s
  obtain ⟨t, ht, -, hframe, hregs, hcells, hhit, hmiss⟩ := hinside hin
  refine ⟨t, ht, (congrArg State.mem hframe).trans rfl, (congrArg State.I hframe).trans rfl,
    (congrArg State.cfg hframe).trans rfl, hregs, fun cx cy => (hcells cx cy).1, fun cx cy => (hcells cx cy).2,
    ⟨fun h => ?_, hhit⟩, ⟨fun h hset => ?_, hmiss⟩⟩
  · by_contra hunset
    exact absurd (h.symm.trans (hmiss hunset)) (by decide)
  · exact absurd (h.symm.trans (hhit hset)) (by decide)

/-- Settles O48: the second draw covers the same cells, since the first moves neither the origin nor the bytes, and
finds each of them toggled. -/
theorem secondDrawRestoresTheScreen : Obligations.SecondDrawRestoresTheScreen := by
  intro x y n s hx hy hin
  obtain ⟨t, ht, hmem, hI, hcfg, hregs, hon, hoff, -, hmiss⟩ := exec_drw_of_inside x y hin
  obtain ⟨u, hu, -, -, -, -, hon', hoff', hhit', -⟩ := exec_drw_of_inside (s := t) x y (hI.symm ▸ hin)
  have hcovers (cx cy : Nat) : SpriteCovers x y n.val t cx cy ↔ SpriteCovers x y n.val s cx cy :=
    spriteCovers_congr hmem hI hcfg (hregs x hx) (hregs y hy) cx cy
  simp only [hcovers] at hon' hoff' hhit'
  have hsecond : u.reg VF = 0x01#8 ↔ ∃ cx cy, SpriteCovers x y n.val s cx.val cy.val ∧ s.fb.cell cx cy = false := by
    rw [hhit']
    refine exists_congr fun cx => exists_congr fun cy => and_congr_right fun hc => ?_
    rw [hon cx cy hc, Bool.not_eq_true']
  refine ⟨t, u, ht, hu, fun cx cy => ?restored, hsecond, fun hclear => ?afterNoCollision⟩
  case restored =>
    by_cases hc : SpriteCovers x y n.val s cx.val cy.val
    · rw [hon' cx cy hc, hon cx cy hc, Bool.not_not]
    · rw [hoff' cx cy hc, hoff cx cy hc]
  case afterNoCollision =>
    have hunset := hmiss.mp hclear
    rw [hsecond]
    refine exists_congr fun cx => exists_congr fun cy => and_iff_left_of_imp fun hc => ?_
    by_contra hset
    exact hunset ⟨cx, cy, hc, Bool.not_eq_false _ ▸ hset⟩

/-! ## Where every covered cell was set -/

/-- The reset state with every cell of the screen set. I is 0, where the font's first byte is 0xF0. -/
def litScreen : State :=
  { State.reset with fb := ⟨Vector.replicate 64 (Vector.replicate 32 true)⟩ }

theorem cell_litScreen (cx : Fin 64) (cy : Fin 32) : litScreen.fb.cell cx cy = true := by
  simp [litScreen, Framebuffer.cell]

/-- The leftmost pixel of the font's first byte lands on the cell at the origin. -/
theorem spriteCovers_litScreen : SpriteCovers 0 1 1 litScreen 0 0 :=
  ⟨0, 0, by decide, by decide, by decide, rfl, rfl⟩

/-- Refutes O49: on `litScreen` the first draw clears every cell that the sprite covers, so the second finds none
set. -/
theorem not_secondDrawAlwaysCollides : ¬ Obligations.SecondDrawAlwaysCollides := by
  intro h
  have hin : (1 : Fin 16).val = 0 ∨ litScreen.I.toNat + (1 : Fin 16).val - 1 < memSize := by decide
  obtain ⟨t, u, ht, hu, -, hsecond, -⟩ := secondDrawRestoresTheScreen 0 1 1 litScreen (by decide) (by decide) hin
  have hcollides : u.reg VF = 0x01#8 :=
    h 0 1 1 litScreen t u (by decide) (by decide) hin ht hu ⟨0, 0, spriteCovers_litScreen⟩
  obtain ⟨cx, cy, -, hunset⟩ := hsecond.mp hcollides
  exact absurd ((cell_litScreen cx cy).symm.trans hunset) (by decide)

/-! ## The RGBA buffer -/

/-- The distance from the unset colour to the set one is no multiple of 2^32. -/
theorem setRgba_ne_unsetRgba : setRgba ≠ unsetRgba := by
  intro h
  have hlt : rgbaDistance.val < 4294967295 := rgbaDistance.isLt
  have hsum : setRgba.toNat = unsetRgba.toNat := congrArg BitVec.toNat h
  rw [setRgba, BitVec.toNat_add, BitVec.toNat_ofNat] at hsum
  have hunset : unsetRgba.toNat < 2 ^ 32 := unsetRgba.isLt
  omega

/-- Blocks of `k` entries one after another: the first `i` blocks are the first `i * k` entries. -/
theorem drop_flatMap_of_length {α β : Type} {f : α → List β} {k : Nat} (hf : ∀ a, (f a).length = k) (l : List α)
    (i : Nat) : (l.flatMap f).drop (i * k) = (l.drop i).flatMap f := by
  induction i generalizing l with
  | zero => simp
  | succ i ih =>
    cases l with
    | nil => simp
    | cons a l =>
      rw [List.flatMap_cons, List.drop_succ_cons, ← ih, Nat.succ_mul, Nat.add_comm, ← List.drop_drop,
        List.drop_left' (hf a)]

/-- After `i` blocks the next one begins. -/
theorem drop_flatMap_eq_append {α β : Type} {f : α → List β} {k : Nat} (hf : ∀ a, (f a).length = k) {l : List α}
    {i : Nat} (hi : i < l.length) : (l.flatMap f).drop (i * k) = f l[i] ++ (l.drop (i + 1)).flatMap f := by
  rw [drop_flatMap_of_length hf, List.drop_eq_getElem_cons hi, List.flatMap_cons]

/-- The four bytes of a cell. -/
def cellBytes (s : State) (y : Fin 32) (x : Fin 64) : List Byte :=
  colourBytes (cellColour (s.fb.cell x y))

theorem cellBytes_length (s : State) (y : Fin 32) (x : Fin 64) : (cellBytes s y x).length = 4 := rfl

/-- The bytes of a row of cells, from the left. -/
def rowBytes (s : State) (y : Fin 32) : List Byte :=
  (List.finRange 64).flatMap (cellBytes s y)

theorem rowBytes_length (s : State) (y : Fin 32) : (rowBytes s y).length = 256 := by
  simp [rowBytes, List.length_flatMap, cellBytes_length]

theorem rgbaBuffer_eq (s : State) : s.rgbaBuffer = (List.finRange 32).flatMap (rowBytes s) := rfl

theorem rgbaBuffer_length (s : State) : s.rgbaBuffer.length = 8192 := by
  simp [rgbaBuffer_eq, List.length_flatMap, rowBytes_length]

/-- The bytes before a cell are 256 for each row above and 4 for each cell to its left. -/
theorem rgbaBuffer_drop_take (s : State) (x : Fin 64) (y : Fin 32) :
    (s.rgbaBuffer.drop (y.val * 256 + x.val * 4)).take 4 = cellBytes s y x := by
  have hrow : s.rgbaBuffer.drop (y.val * 256) =
      rowBytes s y ++ ((List.finRange 32).drop (y.val + 1)).flatMap (rowBytes s) := by
    rw [rgbaBuffer_eq, drop_flatMap_eq_append (rowBytes_length s) (by simp), List.getElem_finRange]
    rfl
  have hcell : (rowBytes s y).drop (x.val * 4) =
      cellBytes s y x ++ ((List.finRange 64).drop (x.val + 1)).flatMap (cellBytes s y) := by
    rw [rowBytes, drop_flatMap_eq_append (cellBytes_length s y) (by simp), List.getElem_finRange]
    rfl
  have hinRow : x.val * 4 ≤ (rowBytes s y).length := by
    rw [rowBytes_length]
    omega
  rw [← List.drop_drop, hrow, List.drop_append_of_le_length hinRow, hcell, List.append_assoc,
    List.take_left' (cellBytes_length s y x)]

/-- Settles O50: rows of 256 bytes, cells of 4. -/
theorem rgbaBufferShowsTheScreen : Obligations.RgbaBufferShowsTheScreen := by
  refine ⟨setRgba_ne_unsetRgba, fun s => ⟨rgbaBuffer_length s, fun x y => ?_⟩⟩
  rw [show (x.val % 64 + y.val * 64) * 4 = y.val * 256 + x.val * 4 by omega]
  exact rgbaBuffer_drop_take s x y

end Sys2Proof.Proofs
end

section
/-! PROOFS. The host and the timer activity: the ROM load (70_reset_and_hazards.md R384, R385), timer steps and fair
timers (60_exceptions.md R345 to R347), and a host that stops or keeps on requesting cycles (R368). -/

namespace Sys2Proof.Proofs

open Sys2Proof.Machine Sys2Proof.Config Sys2Proof.Laws

/-! ## The ROM load -/

theorem load_of_not_offered {s : State} (h : s.started = true ∨ s.loadResult ≠ none) (rom : Rom) :
    load rom s = .refused .loadNotOffered :=
  if_pos h

section
variable {s : State} (hstarted : s.started = false) (hload : s.loadResult = none)
include hstarted hload

theorem load_ioFailure : load .ioFailure s = .next { s with loadResult := some .romLoadFailure } := by
  simp [load, hstarted, hload]

theorem load_of_too_long {b : List Byte} (hb : romCapacity < b.length) :
    load (.bytes b) s = .next { s with loadResult := some .romLoadFailure } := by
  simp [load, hstarted, hload, hb]

theorem load_of_fits {b : List Byte} (hb : b.length ≤ romCapacity) :
    load (.bytes b) s =
      .next { s with mem := s.mem.writeBytes loadAddr b, loadResult := some (.byteCount b.length) } := by
  simp [load, hstarted, hload, Nat.not_lt.mpr hb]

end

/-- Settles O44: the three answers of an offered load, and the two refusals. -/
theorem romLoadCopiesOrFails : Obligations.RomLoadCopiesOrFails := by
  intro s rom rest
  refine ⟨fun hp hstarted hload => ⟨?fits, ?fails⟩, fun hp hlate => ?secondLoad, fun keys hp hfailed => ?noCycle⟩
  case fits =>
    rintro b rfl hb
    have hstep : step s = _ :=
      (step_of_pending hp).trans (load_of_fits (s := { s with pending := rest }) hstarted hload hb)
    refine ⟨_, hstep, rfl, rfl, fun j hj => ?_, memoryKeptOutside_of_writeBytes rfl⟩
    rw [List.getD_eq_getElem _ _ hj]
    exact get_writeBytes_stored s.mem loadAddr b hj
  case fails =>
    rw [step_of_pending hp]
    rintro (rfl | ⟨b, rfl, hb⟩)
    · exact load_ioFailure (s := { s with pending := rest }) hstarted hload
    · exact load_of_too_long (s := { s with pending := rest }) hstarted hload hb
  case secondLoad =>
    rw [step_of_pending hp]
    exact load_of_not_offered (s := { s with pending := rest }) hlate rom
  case noCycle =>
    rw [step_of_pending hp]
    exact if_pos hfailed

/-! ## Timer steps -/

/-- Settles O52: a scripted timer step is `countDown` of its counter. -/
theorem timerStepsSaturateAtZero : Obligations.TimerStepsSaturateAtZero := by
  intro s rest
  exact ⟨fun hp => ⟨_, step_of_pending hp, countDown_toNat s.delay, rfl⟩,
    fun hp => ⟨_, step_of_pending hp, countDown_toNat s.sound, rfl⟩⟩

theorem iterate_countDown_toNat (v : Byte) (t : Nat) : (countDown^[t] v).toNat = v.toNat - t := by
  induction t with
  | zero => rfl
  | succ t ih => rw [Function.iterate_succ_apply', countDown_toNat, ih, Nat.sub_sub]

theorem countDownBy_eq_iterate (v : Byte) (t : Nat) : countDownBy v t = countDown^[t] v :=
  BitVec.eq_of_toNat_eq ((countDownBy_toNat v t).trans (iterate_countDown_toNat v t).symm)

/-- Settles O53: both are `v - t` as numbers. -/
theorem ticksLowerACounterToZero : Obligations.TicksLowerACounterToZero :=
  fun v t => ⟨iterate_countDown_toNat v t, countDownBy_eq_iterate v t⟩

/-- Settles O54: a compare-and-swap that finds the value it read decrements it, unless it is 0. -/
theorem racedDecrementIsATickOrNothing : Obligations.RacedDecrementIsATickOrNothing := by
  refine fun seen now => ⟨fun hne => if_neg fun ⟨_, h⟩ => hne h, ?_⟩
  rintro rfl
  by_cases hzero : now = 0x00#8 <;> simp [casDecrement, countDown, hzero]

/-! ## Fair timers in a stopped run -/

/-- The step lowers the delay counter by some number, positive where it ticks it, and the sound counter by another. -/
def CountsDown (s t : State) : Prop :=
  (∃ j, t.delay = countDownBy s.delay j ∧ (TicksDelay s → 0 < j)) ∧
  (∃ k, t.sound = countDownBy s.sound k ∧ (TicksSound s → 0 < k))

/-- A counter that is left alone, in a step that does not tick it. -/
theorem countDownBy_of_unticked {v w : Byte} {ticks : Prop} (h : w = v) (hticks : ¬ ticks) :
    ∃ j, w = countDownBy v j ∧ (ticks → 0 < j) :=
  ⟨0, h.trans (countDownBy_eq_iterate v 0).symm, fun ht => absurd ht hticks⟩

theorem countDownBy_of_tick {v w : Byte} {ticks : Prop} (h : w = countDown v) :
    ∃ j, w = countDownBy v j ∧ (ticks → 0 < j) :=
  ⟨1, h.trans (countDownBy_eq_iterate v 1).symm, fun _ => Nat.one_pos⟩

/-- What a cycle request leaves of the counters in a stopped run: everything. -/
theorem counters_of_stopped_cycle {keys : Keys} {s t : State} (hrun : s.run ≠ .active) (h : cycle keys s = .next t) :
    t.delay = s.delay ∧ t.sound = s.sound := by
  obtain ⟨-, ⟨hactive, -⟩ | ⟨hactive, -⟩ | ⟨-, rfl⟩⟩ := cycle_cases h
  · exact absurd hactive hrun
  · exact absurd hactive hrun
  · exact ⟨rfl, rfl⟩

theorem counters_of_load {rom : Rom} {s t : State} (h : load rom s = .next t) :
    t.delay = s.delay ∧ t.sound = s.sound := by
  obtain ⟨-, -, rfl | ⟨b, -, -, rfl⟩⟩ := load_cases h <;> exact ⟨rfl, rfl⟩

/-- In a stopped run nothing raises a counter (60_exceptions.md R346). -/
theorem countsDown_of_stopped {s t : State} (hrun : s.run ≠ .active) (h : step s = .next t) : CountsDown s t := by
  obtain ⟨keys, rest, hp, hcycle⟩ | ⟨rest, hp, rfl⟩ | ⟨rest, hp, rfl⟩ | ⟨rom, rest, hp, hload⟩ | ⟨hp, -, hcycle⟩ |
    ⟨hp, -, rfl⟩ := step_cases h
  · obtain ⟨hdelay, hsound⟩ := counters_of_stopped_cycle (s := { s with pending := rest }) hrun hcycle
    exact ⟨countDownBy_of_unticked hdelay (by simp [TicksDelay, hp]),
      countDownBy_of_unticked hsound (by simp [TicksSound, hp])⟩
  · exact ⟨countDownBy_of_tick rfl, countDownBy_of_unticked rfl (by simp [TicksSound, hp])⟩
  · exact ⟨countDownBy_of_unticked rfl (by simp [TicksDelay, hp]), countDownBy_of_tick rfl⟩
  · obtain ⟨hdelay, hsound⟩ := counters_of_load hload
    exact ⟨countDownBy_of_unticked hdelay (by simp [TicksDelay, hp]),
      countDownBy_of_unticked hsound (by simp [TicksSound, hp])⟩
  · obtain ⟨hdelay, hsound⟩ := counters_of_stopped_cycle (s := s.freeTicks) hrun hcycle
    exact ⟨⟨_, hdelay, by simp [TicksDelay, hp]⟩, ⟨_, hsound, by simp [TicksSound, hp]⟩⟩
  · exact ⟨⟨_, rfl, by simp [TicksDelay, hp]⟩, ⟨_, rfl, by simp [TicksSound, hp]⟩⟩

/-- A counter that is only lowered from `n` on, and is ticked again whenever it stays positive, reaches 0: by the value
it holds at `n`. -/
theorem reaches_zero_of_fair {c : Nat → Byte} {ticks : Nat → Prop} {n : Nat}
    (hdown : ∀ m, n ≤ m → ∃ j, c (m + 1) = countDownBy (c m) j ∧ (ticks m → 0 < j))
    (hfair : ∀ k, (∀ m, k ≤ m → c m ≠ 0x00#8) → ∃ m, k ≤ m ∧ ticks m) : ∃ m, n ≤ m ∧ c m = 0x00#8 := by
  induction hv : (c n).toNat using Nat.strong_induction_on generalizing n with
  | _ v ih =>
    by_contra hnever
    have hpositive : ∀ m, n ≤ m → c m ≠ 0x00#8 := fun m hm h => hnever ⟨m, hm, h⟩
    obtain ⟨m, hm, htick⟩ := hfair n hpositive
    have hle : (c m).toNat ≤ v := by
      clear htick
      induction m, hm using Nat.le_induction with
      | base => exact hv.le
      | succ k hk ihk =>
        obtain ⟨j, hj, -⟩ := hdown k hk
        rw [hj, countDownBy_toNat]
        omega
    obtain ⟨j, hj, hpos⟩ := hdown m hm
    have hlower : (c (m + 1)).toNat < v := by
      have hne : (c m).toNat ≠ 0 := fun h => hpositive m hm (BitVec.eq_of_toNat_eq h)
      have hj0 : 0 < j := hpos htick
      rw [hj, countDownBy_toNat]
      omega
    obtain ⟨k, hk, hzero⟩ := ih _ hlower (n := m + 1) (fun k hk => hdown k (by omega)) rfl
    exact hpositive k (by omega) hzero

/-- Settles O57: each counter is only lowered once the run has stopped. -/
theorem fairTimersRunDownAfterTheRunStops : Obligations.FairTimersRunDownAfterTheRunStops := by
  intro f n hrun hfair hstopped
  obtain ⟨hfairDelay, hfairSound⟩ := hfair
  have hdown (m : Nat) (hm : n ≤ m) : CountsDown (f m) (f (m + 1)) := countsDown_of_stopped (hstopped m hm) (hrun m)
  exact ⟨reaches_zero_of_fair (c := fun m => (f m).delay) (fun m hm => (hdown m hm).1) hfairDelay,
    reaches_zero_of_fair (c := fun m => (f m).sound) (fun m hm => (hdown m hm).2) hfairSound⟩

/-! ## Without cycle requests -/

theorem TimersOnly.trans {s t u : State} (h : TimersOnly s t) (k : TimersOnly t u) : TimersOnly s u := by
  unfold TimersOnly at *
  rw [k, h]

/-- Without a cycle request a run that has started only ticks: a load is refused. -/
theorem timersOnly_of_step {s t : State} (h : step s = .next t) (hstarted : s.started = true)
    (hquiet : ¬ RequestsCycle s) : TimersOnly s t := by
  obtain ⟨keys, u, hbegins, -⟩ | ⟨rom, rest, hload⟩ | htimers := step_eq_cycle_or_load_or_timersOnly h
  · exact absurd ⟨keys, u, hbegins⟩ hquiet
  · obtain ⟨hnotStarted, -⟩ := load_cases hload
    exact absurd (hstarted.symm.trans hnotStarted) (by decide)
  · exact htimers

theorem timersOnly_of_quiet {f : Nat → State} {n m : Nat} (hrun : IsRun f) (hstarted : (f n).started = true)
    (hle : n ≤ m) (hquiet : ∀ k, n ≤ k → k < m → ¬ RequestsCycle (f k)) : TimersOnly (f n) (f m) := by
  induction m, hle using Nat.le_induction with
  | base => rfl
  | succ k hk ih =>
    have hbefore : TimersOnly (f n) (f k) := ih fun j hj hjk => hquiet j hj (Nat.lt_succ_of_lt hjk)
    exact hbefore.trans
      (timersOnly_of_step (hrun k) (hbefore.started_eq.trans hstarted) (hquiet k hk (Nat.lt_succ_self k)))

/-- Settles O58: an unscripted step of a stopped host is its free ticks, and without a cycle request every step is
timer steps. -/
theorem withoutCycleRequestsOnlyTimersRun : Obligations.WithoutCycleRequestsOnlyTimersRun :=
  ⟨fun _ hp hstopped => (step_of_no_pending hp).trans (unscripted_idle hstopped),
    fun _ _ hrun hstarted hquiet _ hm => timersOnly_of_quiet hrun hstarted hm fun k hk _ => hquiet k hk⟩

/-! ## A host that keeps on -/

theorem instructionCycle_of_halt {s : State} (h : s.fetchWord = some 0x0000#16) :
    instructionCycle s = .next (s.conclude .terminate) :=
  instructionCycle_of_ok h rfl

/-- The first cycle of an active run at the word 0x0000 halts it. -/
theorem cycle_of_halt {keys : Keys} {s t : State} (h : cycle keys s = .next t) (hrun : s.run = .active)
    (hwait : s.waiting = false) (hword : s.fetchWord = some 0x0000#16) : EndedWell t ∧ t.pc = s.pc := by
  obtain ⟨-, ⟨-, -, u, hcycle, rfl⟩ | ⟨-, hwaits, -⟩ | ⟨hstopped, -⟩⟩ := cycle_cases h
  · obtain rfl : (s.beginCycle keys).conclude .terminate = u :=
      Host.Outcome.next.inj ((instructionCycle_of_halt (s := s.beginCycle keys) hword).symm.trans hcycle)
    exact ⟨rfl, rfl⟩
  · exact absurd (hwaits.symm.trans hwait) (by decide)
  · exact absurd hrun hstopped

/-- Settles O59: up to the first cycle request only timers run, and that cycle halts. -/
theorem haltIsReachedIfTheHostKeepsRequesting : Obligations.HaltIsReachedIfTheHostKeepsRequesting := by
  classical
  intro f hrun hhost hstarted hactive hwait hword
  have hrequest : ∃ m, RequestsCycle (f m) := (hhost 0).imp fun m h => h.2
  let m := Nat.find hrequest
  obtain ⟨keys, u, hbegins⟩ : RequestsCycle (f m) := Nat.find_spec hrequest
  have hquiet : TimersOnly (f 0) (f m) :=
    timersOnly_of_quiet hrun hstarted (Nat.zero_le m) fun k _ hk => Nat.find_min hrequest hk
  have htimers : TimersOnly (f 0) u := hquiet.trans (timersOnly_of_cycleBegins hbegins)
  have hcycle : cycle keys u = .next (f (m + 1)) := (step_of_cycleBegins hbegins).symm.trans (hrun m)
  obtain ⟨hend, hpc⟩ := cycle_of_halt hcycle (htimers.run_eq.trans hactive) (htimers.waiting_eq.trans hwait)
    (htimers.fetchWord_eq.trans hword)
  exact ⟨m + 1, hend, hpc.trans htimers.pc_eq⟩

end Sys2Proof.Proofs
end
